-- ==== Sys2Proof/Word.lean ====
section
/-!
DEFINITION. Word types of the Compresso codec block (00_scope R6, R8): bytes, 16-bit table entries,
32-bit registers and block elements, 64-bit floating-point patterns, and bit strings.
-/

namespace Sys2Proof

/-- u8: a byte of buffer memory (20_memory R60). -/
abbrev Byte := BitVec 8

/-- u16: a quantization-table entry (QT_BITS = 16, 00_scope R6). -/
abbrev Half := BitVec 16

/-- u32 and i32: a register, a command word, an entropy-coder symbol (00_scope R6). -/
abbrev Word := BitVec 32

/-- A bit string, first bit first (00_scope R9). -/
abbrev Bits := List Bool

/-- The pattern of an IEEE-754 binary64 value (00_scope R12). -/
abbrev Pattern64 := BitVec 64

/-- A block of 64 signed elements in index order, row-major (20_memory R68). -/
abbrev Block := List Int

/-- A finite binary64 value as the exact real number `man * 2 ^ exp` (00_scope R12).
The block has no NaN, infinity or subnormal result, so a value is all there is to a number. -/
structure F64 where
  man : Int
  exp : Int
deriving DecidableEq, Repr

end Sys2Proof
end

