-- ==== Sys2Proof/Config.lean ====
section
/-!
DEFINITION. What an implementation fixes (the OPEN parameters of 00_scope R6, 20_memory R62 and
60_exceptions R300) and the free values, which the spec leaves open.
The parameters are plain data carried by the state and written by no step, so a statement about every
state is a statement about every choice of the parameters.
The free values are constants without a body: nothing can evaluate them.
-/

namespace Sys2Proof

/-- The OPEN parameters of one block (93_implementation_defined U17). -/
structure Params where
  /-- MEM_SIZE, bytes of buffer memory (00_scope R6, 20_memory R60). -/
  memSize : Nat
  /-- MAX_PIXELS (00_scope R6, 40_command R135). -/
  maxPixels : Nat
  /-- MAX_SYMBOLS (00_scope R6, 46_entropy R245). -/
  maxSymbols : Nat
  /-- REG_BASE: where the platform places the register space (20_memory R62). -/
  regBase : Nat
  /-- MEM_BASE: where the platform places the buffer memory (20_memory R62). -/
  memBase : Nat
  /-- IRQ_LINE: the platform line IRQ drives (60_exceptions R300). -/
  irqLine : Nat
deriving DecidableEq, Repr

/-- The ranges 00_scope R6 gives the parameters.
DEDUCED: MAX_SYMBOLS below 2^32, since MAXSYM reads it back in 32 bits (10_state R37).
Safe: it only narrows which blocks statements with this premise speak about (log 4). -/
def Params.legal (p : Params) : Bool :=
  decide (2 ^ 16 ≤ p.memSize) && decide (p.memSize ≤ 2 ^ 32) &&
  decide (1 ≤ p.maxPixels) && decide (p.maxPixels ≤ 1431655765) &&
  decide (2 ≤ p.maxSymbols) && decide (p.maxSymbols < 2 ^ 32)

/-- The parameters the spec's test vectors assume (95_test_vectors, header), with the two spaces placed apart.
DESIGN CHOICE: the spec leaves all six OPEN.
Unsafe: a statement about the reset state alone speaks of these values only (log 3). -/
def Config.defaultParams : Params :=
  { memSize := 2 ^ 24, maxPixels := 4194304, maxSymbols := 65536,
    regBase := 2 ^ 32, memBase := 0, irqLine := 0 }

/-- Free value number `k`: an unspecified byte the block produced (93_implementation_defined U3, U4, U5). -/
opaque Config.freeByte : Nat → Byte

/-- What an unwritten byte reads as to the host: the contents of address `a` after power-on number `e`
(93_implementation_defined U6). -/
opaque Config.powerOnByte : Nat → Nat → Byte

/-- RESULT_LEN where the number of bytes written does not fit 32 bits, which 40_command R136 rules out
and one in-place window of 2^32 bytes brings about (log 17). -/
opaque Config.longResultLen : Nat → Word

/-- The range of QT_CANON, the OPEN parameter of software: 64 values, each in 1..65535 (70_reset R326).
It is an argument of the boot sequence, and no part of the block. -/
def Config.qtCanonLegal (qtCanon : Vector Half 64) : Bool := decide (∀ i : Fin 64, qtCanon[i] ≠ 0)

end Sys2Proof
end

