-- ==== Sys2Proof/Syntax.lean ====
section
/-!
DEFINITION. The commands of the block, one constructor for every row of the opcode table
(30_encoding R93), and the fields of the one word format CMD32 (30_encoding R91).
A command carries no operand: every operand comes from the latch (30_encoding R92).
-/

namespace Sys2Proof

/-- The 15 commands of 30_encoding R93, in the table's order. -/
inductive Instr where
  | nop
  | colorFwd
  | subsample
  | tile
  | fdct
  | quant
  | huffEnc
  | compress
  | colorInv
  | upsample
  | untile
  | idct
  | dequant
  | huffDec
  | decompress
deriving DecidableEq, Repr

/-- All commands, in the table's order. -/
def Instr.all : List Instr :=
  [.nop, .colorFwd, .subsample, .tile, .fdct, .quant, .huffEnc, .compress,
   .colorInv, .upsample, .untile, .idct, .dequant, .huffDec, .decompress]

/-- Format CMD32: OPCODE in bits [7:0], RSVD in bits [31:8] (30_encoding R91). -/
structure CmdWord where
  rsvd   : BitVec 24
  opcode : BitVec 8
deriving DecidableEq, Repr

/-- Why a word names no command (30_encoding R95). -/
inductive DecodeError where
  /-- RSVD is not 0. -/
  | reservedNotZero
  /-- RSVD is 0 and OPCODE is one of 0x08-0x10, 0x18-0xFF. -/
  | opcodeUnassigned
deriving DecidableEq, Repr

end Sys2Proof
end

