-- ==== Sys2Proof/WellFormed.lean ====
section
/-!
DEFINITION. Well-formedness of what a host can write as a command word (30_encoding R91, R95).
A constructor of `Instr` has no operand, so every one of them is well formed; the checks are those of the
word's two fields.
-/

namespace Sys2Proof

/-- "A word with RSVD ≠ 0 is illegal, whatever its OPCODE" (30_encoding R91). -/
def CmdWord.reservedZero (c : CmdWord) : Bool := c.rsvd == 0

/-- OPCODE is neither 0x08-0x10 nor 0x18-0xFF (30_encoding R95). -/
def CmdWord.opcodeAssigned (c : CmdWord) : Bool :=
  decide (c.opcode.toNat ≤ 0x07) || (decide (0x11 ≤ c.opcode.toNat) && decide (c.opcode.toNat ≤ 0x17))

/-- The word names a command (30_encoding R95). -/
def CmdWord.wellFormed (c : CmdWord) : Bool := c.reservedZero && c.opcodeAssigned

/-- Every command is well formed: the word has no register fields, immediates or modifiers (30_encoding R91). -/
def Instr.wellFormed (i : Instr) : Bool := Instr.all.contains i

end Sys2Proof
end

