-- ==== Sys2Proof/Decode.lean ====
section
/-!
DEFINITION. The decoder of command words, total and rejecting by name (30_encoding R93, R95), and the
encoder, both written from the opcode map of 30_encoding R93.
-/

namespace Sys2Proof

/-- The fields of a 32-bit word (30_encoding R91). -/
def CmdWord.ofWord (w : Word) : CmdWord :=
  { rsvd := w.extractLsb' 8 24, opcode := w.extractLsb' 0 8 }

/-- The 32-bit word of two fields (30_encoding R91). -/
def CmdWord.toWord (c : CmdWord) : Word := c.rsvd ++ c.opcode

/-- One row of the opcode map: a word is the row's if it agrees with `word` under the mask 0xFFFFFFFF
(30_encoding R93). -/
structure OpcodeRow where
  instr : Instr
  mask  : Word
  word  : Word
deriving DecidableEq, Repr

/-- The opcode map of 30_encoding R93. -/
def opcodeMap : List OpcodeRow :=
  [ ⟨.nop,        0xFFFFFFFF, 0x00000000⟩,
    ⟨.colorFwd,   0xFFFFFFFF, 0x00000001⟩,
    ⟨.subsample,  0xFFFFFFFF, 0x00000002⟩,
    ⟨.tile,       0xFFFFFFFF, 0x00000003⟩,
    ⟨.fdct,       0xFFFFFFFF, 0x00000004⟩,
    ⟨.quant,      0xFFFFFFFF, 0x00000005⟩,
    ⟨.huffEnc,    0xFFFFFFFF, 0x00000006⟩,
    ⟨.compress,   0xFFFFFFFF, 0x00000007⟩,
    ⟨.colorInv,   0xFFFFFFFF, 0x00000011⟩,
    ⟨.upsample,   0xFFFFFFFF, 0x00000012⟩,
    ⟨.untile,     0xFFFFFFFF, 0x00000013⟩,
    ⟨.idct,       0xFFFFFFFF, 0x00000014⟩,
    ⟨.dequant,    0xFFFFFFFF, 0x00000015⟩,
    ⟨.huffDec,    0xFFFFFFFF, 0x00000016⟩,
    ⟨.decompress, 0xFFFFFFFF, 0x00000017⟩ ]

/-- The row's pattern, "comparing the whole 32-bit word with the row's word" (30_encoding R93). -/
def OpcodeRow.selects (r : OpcodeRow) (w : Word) : Bool := w &&& r.mask == r.word

/-- The command a word names, or why it names none (30_encoding R93, R95). -/
def decode (w : Word) : Except DecodeError Instr :=
  match opcodeMap.find? (fun r => r.selects w) with
  | some r => .ok r.instr
  | none =>
    if (CmdWord.ofWord w).reservedZero then .error .opcodeUnassigned else .error .reservedNotZero

/-- The OPCODE of a command: bit 4 is the direction, bits [3:0] the stage (30_encoding R93). -/
def Instr.opcode : Instr → BitVec 8
  | .nop        => 0x00
  | .colorFwd   => 0x01
  | .subsample  => 0x02
  | .tile       => 0x03
  | .fdct       => 0x04
  | .quant      => 0x05
  | .huffEnc    => 0x06
  | .compress   => 0x07
  | .colorInv   => 0x11
  | .upsample   => 0x12
  | .untile     => 0x13
  | .idct       => 0x14
  | .dequant    => 0x15
  | .huffDec    => 0x16
  | .decompress => 0x17

/-- The command word of a command: `0x000000` followed by the opcode byte (30_encoding R93). -/
def encode (i : Instr) : Word := CmdWord.toWord { rsvd := 0, opcode := i.opcode }

/-- The command in the low `nbits` bits of `w`, every higher bit taken as 0; a value that does not fit the
one 32-bit format is no command (30_encoding R90). -/
def decodeTableWord (nbits w : Nat) : Option Instr :=
  if w % 2 ^ nbits < 2 ^ 32 then
    match decode (BitVec.ofNat 32 (w % 2 ^ nbits)) with
    | .ok i => some i
    | .error _ => none
  else none

end Sys2Proof
end

