-- ==== Sys2Proof/Machine/State.lean ====
section
/-!
DEFINITION. The state of the Compresso codec block as plain data: the host-visible registers of 10_state R20,
the latch of R40, the buffer memory of 20_memory R60, the parameters, and the model's own fields (the events
still to come, the response to the last host access, and two counters that key the free values).
-/

namespace Sys2Proof.Machine

/-- Why the machine stops. Both are the spec's own model faults, reached only by programs that do not conform. -/
inductive Fault where
  /-- UNINIT_READ: a command body read a byte that nothing has written since power-on
  (20_memory R65, 93_implementation_defined U1). Raised by every meaning that reads its source window.
  Safe: the hardware goes on with some byte. -/
  | uninitRead
  /-- HOST_RACE: the host wrote into the source or destination window of the command in flight
  (20_memory R82, 93_implementation_defined U2). Raised by the buffer-memory writes of the host.
  Safe: the hardware goes on with an outcome it does not define. -/
  | hostRace
deriving DecidableEq, Repr

/-- Why a command has no meaning. -/
inductive Refusal where
  /-- Raised by an arm of `exec` for a command the model gives no meaning; no arm raises it. Safe. -/
  | notModelled (mnemonic : String)
deriving DecidableEq, Repr

/-- The errors a command can end with (60_exceptions R290). -/
inductive Err where
  | illegalCmd
  | badDimension
  | qtableZero
  | addressRange
  | overlap
  | capacity
  | formatTruncated
  | formatHeader
  | formatTree
  | formatCode
  /-- Reserved: a value without a codebook entry, which cannot happen (46_entropy R247). -/
  | codecInvariant
deriving DecidableEq, Repr

/-- STATUS (10_state R23). -/
structure Status where
  busy    : Bool
  done    : Bool
  error   : Bool
  overrun : Bool
  errcode : Byte
deriving DecidableEq, Repr

/-- The operand registers (10_state R31 to R34, R36). -/
structure Operands where
  width    : Word
  height   : Word
  count    : Word
  srcAddr  : Word
  srcLen   : Word
  dstAddr  : Word
  dstLimit : Word
  qtable   : Vector Half 64
deriving DecidableEq, Repr

/-- The latch L: the accepted word and a copy of the operand registers (10_state R40, 40_command R131). -/
structure Latch where
  word : CmdWord
  ops  : Operands
deriving DecidableEq, Repr

/-- Buffer memory: the bytes that hold a value, by rising address.
An address not listed holds no value (20_memory R65). -/
abbrev Memory := List Host.Cell

/-- What the bus answered to the last host access (10_state R39, 20_memory R61). -/
structure Response where
  data     : Word
  busError : Bool
deriving DecidableEq, Repr

/-- One atomic step of an agent (60_exceptions R299, 70_reset R334). Widths `n` are in bytes. -/
inductive Event where
  /-- The host writes register space at byte offset `off` (10_state R39). -/
  | regWrite (off n : Nat) (v : Word)
  /-- The host reads register space at byte offset `off` (10_state R39). -/
  | regRead (off n : Nat)
  /-- HostWrite(a, n, v) on buffer memory (20_memory R61). -/
  | memWrite (a n : Nat) (v : Word)
  /-- HostRead(a, n) on buffer memory (20_memory R61). -/
  | memRead (a n : Nat)
  /-- The host writes at an address of its own map (20_memory R62). -/
  | busWrite (addr n : Nat) (v : Word)
  /-- The host reads at an address of its own map (20_memory R62). -/
  | busRead (addr n : Nat)
  /-- The engine completes the command in flight (40_command R137, R138). -/
  | complete
  /-- The platform asserts hardware reset (70_reset R320). -/
  | hardReset
  /-- Power is removed and applied again (70_reset R320, 60_exceptions R308). -/
  | powerOn
deriving DecidableEq, Repr

/-- The whole machine. -/
structure State where
  /-- The OPEN parameters (00_scope R6); no step writes them. -/
  params    : Params
  /-- CMD (10_state R22). -/
  cmd       : Word
  /-- STATUS (10_state R23). -/
  status    : Status
  /-- CTRL.IRQ_EN (10_state R29). -/
  irqEn     : Bool
  /-- IRQ_STATUS.DONE_PEND (10_state R30). -/
  donePend  : Bool
  /-- The operand registers (10_state R31 to R34, R36). -/
  ops       : Operands
  /-- RESULT_LEN (10_state R35). -/
  resultLen : Word
  /-- The latch (10_state R40). -/
  latch     : Latch
  /-- Buffer memory (20_memory R60). -/
  mem       : Memory
  /-- The model's own: the answer to the last host access (log 7). -/
  response  : Response
  /-- The model's own: the events still to come, the next one first (log 1). -/
  inputs    : List Event
  /-- The model's own: how many free bytes have been drawn (log 9). -/
  draws     : Nat
  /-- The model's own: how many power-on resets there have been (log 10). -/
  epoch     : Nat
deriving DecidableEq, Repr

/-- STATUS after reset (10_state R47, 70_reset R320). -/
def Status.reset : Status :=
  { busy := false, done := false, error := false, overrun := false, errcode := 0 }

/-- The operand registers after reset: 0, and 1 in every table entry (10_state R36, R47). -/
def Operands.reset : Operands :=
  { width := 0, height := 0, count := 0, srcAddr := 0, srcLen := 0, dstAddr := 0, dstLimit := 0,
    qtable := Vector.replicate 64 1 }

/-- The latch after reset.
DESIGN CHOICE: the spec says it holds no value and that no rule reads it before an acceptance (10_state R40, R47).
Unsafe as any named reset value is; no step of an idle block depends on it (log 5). -/
def Latch.reset : Latch :=
  { word := { rsvd := 0, opcode := 0 }, ops := Operands.reset }

/-- No host access yet. DESIGN CHOICE: the field is the model's own (log 7). -/
def Response.reset : Response := { data := 0, busError := false }

/-- The machine right after power-on reset (10_state R47, 70_reset R320, R321).
DESIGN CHOICE: the parameters, which the spec leaves OPEN (log 3), and the model's own fields (logs 1, 7, 9, 10). -/
def State.reset : State :=
  { params := Config.defaultParams, cmd := 0, status := Status.reset, irqEn := false, donePend := false,
    ops := Operands.reset, resultLen := 0, latch := Latch.reset, mem := [], response := Response.reset,
    inputs := [], draws := 0, epoch := 0 }

end Sys2Proof.Machine
end

