-- ==== Sys2Proof/Machine/Arith.lean ====
section
/-!
DEFINITION. Arithmetic of 00_scope R8 to R15: integer helpers, byte and bit strings, rounding, saturation, and
IEEE-754 binary64 with rounding to nearest, ties to even.
-/

namespace Sys2Proof.Machine

/-! ### Integers (00_scope R11, R14, R15) -/

/-- `ceil8(n) = ceil(n/8)` (00_scope R11). -/
def ceil8 (n : Nat) : Nat := (n + 7) / 8

/-- `Clamp(z, lo, hi) = min(hi, max(lo, z))` (00_scope R15). -/
def clamp (z lo hi : Int) : Int := min hi (max lo z)

/-- `Sat32(z)`, to i32 by saturation (00_scope R15). -/
def sat32 (z : Int) : Int := clamp z (-2147483648) 2147483647

/-- `DivRoundHA(n, d)`: n/d to the nearest integer, halves away from zero (00_scope R14). -/
def divRoundHA (n : Int) (d : Nat) : Int := n.sign * (((2 * n.natAbs + d) / (2 * d) : Nat) : Int)

/-- The byte of an integer already in 0..255. -/
def byteOfInt (z : Int) : Byte := BitVec.ofInt 8 z

/-- `sext_32` (00_scope R8). -/
def sext32 (w : Word) : Int := w.toInt

/-- `twos32` (00_scope R8). -/
def twos32 (z : Int) : Word := BitVec.ofInt 32 z

/-! ### Byte strings, big-endian (20_memory R63) -/

/-- The n bytes of v, most significant first: byte j is `(v div 256^(n-1-j)) mod 256` (20_memory R63). -/
def beBytes (n v : Nat) : List Byte := (List.range n).map (fun j => BitVec.ofNat 8 (v / 256 ^ (n - 1 - j)))

/-- The value of a byte string, most significant first (20_memory R63). -/
def beValue (bs : List Byte) : Nat := bs.foldl (fun acc b => acc * 256 + b.toNat) 0

/-- The 4 bytes of a 32-bit value (20_memory R63). -/
def wordBytes (w : Word) : List Byte := beBytes 4 w.toNat

/-- A byte string cut into 32-bit values (20_memory R68, R69); a last group shorter than 4 bytes is dropped. -/
def bytesToWords : List Byte → List Word
  | b0 :: b1 :: b2 :: b3 :: rest => BitVec.ofNat 32 (beValue [b0, b1, b2, b3]) :: bytesToWords rest
  | _ => []

/-- 32-bit values as bytes (20_memory R68, R69). -/
def wordsToBytes (ws : List Word) : List Byte := ws.flatMap wordBytes

/-- A list cut into `n` pieces of 64 (20_memory R68). -/
def chunks64 {α : Type} : Nat → List α → List (List α)
  | 0, _ => []
  | n + 1, xs => xs.take 64 :: chunks64 n (xs.drop 64)

/-! ### Bit strings (00_scope R9) -/

/-- `bits32`, most significant bit first (00_scope R9). -/
def bits32 (w : Word) : Bits := (List.range 32).map (fun k => w.getMsbD k)

/-- `pad64`: zero bits up to a multiple of 64 (00_scope R9). -/
def pad64 (s : Bits) : Bits := s ++ List.replicate ((64 - s.length % 64) % 64) false

/-- The byte of 8 bits, the first one bit 7 (00_scope R9). -/
def byteOfBits (b7 b6 b5 b4 b3 b2 b1 b0 : Bool) : Byte :=
  BitVec.ofNat 8 (b7.toNat * 128 + b6.toNat * 64 + b5.toNat * 32 + b4.toNat * 16 +
    b3.toNat * 8 + b2.toNat * 4 + b1.toNat * 2 + b0.toNat)

/-- `bytes(s)` for a bit string of length 8k (00_scope R9). -/
def bytesOfBits : Bits → List Byte
  | b7 :: b6 :: b5 :: b4 :: b3 :: b2 :: b1 :: b0 :: rest =>
    byteOfBits b7 b6 b5 b4 b3 b2 b1 b0 :: bytesOfBits rest
  | _ => []

end Sys2Proof.Machine

namespace Sys2Proof.F64

/-! ### IEEE-754 binary64 on exact values (00_scope R12, R13)

DEDUCED: 00_scope R12 says no operation produces a NaN, an infinity or a subnormal result, so a value is an exact
dyadic number whose exponent needs no bound, and +0 and -0 are one value: no rule tells them apart (log 16). -/

/-- `2^k`, as a shift. -/
def pow2 (k : Nat) : Nat := 1 <<< k

/-- The number of a binary64 pattern that is neither a NaN nor an infinity. -/
def ofBits (p : Pattern64) : F64 :=
  let e := (p.toNat >>> 52) % 2048
  let f := p.toNat % pow2 52
  let m : Nat := if e = 0 then f else pow2 52 + f
  let x : Int := (if e = 0 then 1 else (e : Int)) - 1075
  { man := if p.getMsbD 0 then -(m : Int) else (m : Int), exp := x }

/-- `n / 2^k` to the nearest integer, ties to even. -/
def shiftRNE (n k : Nat) : Nat :=
  let q := n >>> k
  let twice := 2 * (n % pow2 k)
  if twice < pow2 k then q
  else if pow2 k < twice then q + 1
  else q + q % 2

/-- How many low bits of the magnitude `n` do not fit the 53-bit significand (00_scope R12). -/
def excessBits (n : Nat) : Nat := Nat.log2 n - 52

/-- The nearest binary64 number to `m * 2 ^ e`, ties to even. -/
def round (m e : Int) : F64 :=
  match m with
  | .ofNat n => { man := Int.ofNat (shiftRNE n (excessBits n)), exp := e + excessBits n }
  | .negSucc n =>
    { man := -Int.ofNat (shiftRNE (n + 1) (excessBits (n + 1))), exp := e + excessBits (n + 1) }

/-- +0.0. -/
def zero : F64 := { man := 0, exp := 0 }

/-- An integer converted exactly: every i32 and every u8 is representable (00_scope R12). -/
def ofInt (z : Int) : F64 := { man := z, exp := 0 }

/-- The pattern with the sign bit turned over. -/
def neg (a : F64) : F64 := { a with man := -a.man }

/-- The mantissa of `a` at the smaller exponent `e`. -/
def manAt (a : F64) (e : Int) : Int := a.man * (pow2 (a.exp - e).toNat : Int)

/-- `⊕` (00_scope R12). -/
def add (a b : F64) : F64 :=
  round (a.manAt (min a.exp b.exp) + b.manAt (min a.exp b.exp)) (min a.exp b.exp)

/-- `⊖` (00_scope R12). -/
def sub (a b : F64) : F64 := add a (neg b)

/-- `⊗` (00_scope R12). -/
def mul (a b : F64) : F64 := round (a.man * b.man) (a.exp + b.exp)

/-- `RoundHA`: the nearest integer to the exact value, halves away from zero (00_scope R13). -/
def roundHA (a : F64) : Int :=
  if 0 ≤ a.exp then a.man * (pow2 a.exp.toNat : Int)
  else Machine.divRoundHA a.man (pow2 (-a.exp).toNat)

end Sys2Proof.F64
end

