-- ==== Sys2Proof/Machine/Flags.lean ====
section
/-!
DEFINITION. Condition flags and completion fields (10_state R23 to R30, R45): the error codes of 60_exceptions
R290, the words the status registers read as, and how acceptance and completion set STATUS.
-/

namespace Sys2Proof.Machine

/-- ERRCODE of an error (60_exceptions R290). -/
def Err.code : Err → Byte
  | .illegalCmd      => 0x01
  | .badDimension    => 0x02
  | .qtableZero      => 0x03
  | .addressRange    => 0x04
  | .overlap         => 0x05
  | .capacity        => 0x06
  | .formatTruncated => 0x07
  | .formatHeader    => 0x08
  | .formatTree      => 0x09
  | .formatCode      => 0x0A
  | .codecInvariant  => 0x0B

/-- A one-bit field as a number. -/
def bit (b : Bool) : Nat := b.toNat

/-- What STATUS reads as; bits [7:4] and [31:16] read 0 (10_state R23). -/
def Status.word (t : Status) : Word :=
  BitVec.ofNat 32 (bit t.busy + 2 * bit t.done + 4 * bit t.error + 8 * bit t.overrun + 256 * t.errcode.toNat)

/-- STATUS at acceptance: BUSY set; DONE, ERROR and ERRCODE cleared; OVERRUN kept (40_command R131). -/
def Status.accepted (t : Status) : Status :=
  { t with busy := true, done := false, error := false, errcode := 0 }

/-- STATUS at a successful completion (40_command R137). -/
def Status.succeeded (t : Status) : Status :=
  { t with busy := false, done := true, error := false, errcode := 0 }

/-- STATUS at a completion with an error (40_command R137, 60_exceptions R291). -/
def Status.failed (e : Err) (t : Status) : Status :=
  { t with busy := false, done := true, error := true, errcode := e.code }

/-- STATUS after a CMD write that was dropped (40_command R132). -/
def Status.overrunSet (t : Status) : Status := { t with overrun := true }

/-- STATUS after the host wrote `v` to it: only OVERRUN can change, W1C in bit 3 (10_state R23, R27). -/
def Status.written (v : Word) (t : Status) : Status :=
  { t with overrun := t.overrun && !v.getLsbD 3 }

/-- What CTRL reads as: IRQ_EN in bit 0, everything else 0 (10_state R29). -/
def ctrlWord (irqEn : Bool) : Word := BitVec.ofNat 32 (bit irqEn)

/-- What IRQ_STATUS reads as (10_state R30). -/
def irqStatusWord (donePend : Bool) : Word := BitVec.ofNat 32 (bit donePend)

/-- DONE_PEND after the host wrote `v` to IRQ_STATUS: W1C in bit 0 (10_state R30). -/
def donePendWritten (v : Word) (donePend : Bool) : Bool := donePend && !v.getLsbD 0

/-- The interrupt output, a level (10_state R42, 60_exceptions R300). -/
def State.irq (s : State) : Bool := s.irqEn && s.donePend

/-- The level of platform line `line` as far as this block drives it (60_exceptions R300). -/
def State.irqOnLine (s : State) (line : Nat) : Bool := line == s.params.irqLine && s.irq

end Sys2Proof.Machine
end

