-- ==== Sys2Proof/Machine/Operands.lean ====
section
/-!
DEFINITION. The operands of a command: the latched values as integers (30_encoding R92), the windows of
40_command R134, the classes of commands, and StartChecks (60_exceptions R293).
-/

namespace Sys2Proof.Machine

/-! ### Latched operands (10_state R40, 30_encoding R92) -/

/-- L.W -/
def Latch.w (l : Latch) : Nat := l.ops.width.toNat
/-- L.H -/
def Latch.h (l : Latch) : Nat := l.ops.height.toNat
/-- L.COUNT -/
def Latch.count (l : Latch) : Nat := l.ops.count.toNat
/-- L.SRC -/
def Latch.src (l : Latch) : Nat := l.ops.srcAddr.toNat
/-- L.SRCLEN -/
def Latch.srclen (l : Latch) : Nat := l.ops.srcLen.toNat
/-- L.DST -/
def Latch.dst (l : Latch) : Nat := l.ops.dstAddr.toNat
/-- L.DSTLIM -/
def Latch.dstlim (l : Latch) : Nat := l.ops.dstLimit.toNat
/-- L.QT[0..63], in index order. -/
def Latch.qt (l : Latch) : List Nat := l.ops.qtable.toList.map BitVec.toNat

/-- What the latch takes at the acceptance of word `v` (40_command R131). -/
def Latch.take (v : Word) (o : Operands) : Latch := { word := CmdWord.ofWord v, ops := o }

/-! ### Dimensions (00_scope R18, 40_command R134) -/

/-- `floor(n/2)`: the chroma width or height (00_scope R18). -/
def halfDim (n : Nat) : Nat := n / 2

/-- `tiles(w, h) = ceil8(w)·ceil8(h)` (43_tiler R185). -/
def tiles (w h : Nat) : Nat := ceil8 w * ceil8 h

/-- The number of blocks of a `w` by `h` image: all Y blocks and the blocks of two chroma planes (00_scope R18). -/
def imageBlocks (w h : Nat) : Nat := tiles w h + 2 * tiles (halfDim w) (halfDim h)

/-- `Ncoef(W, H)` (00_scope R18). -/
def ncoef (w h : Nat) : Nat := imageBlocks w h * 64

/-! ### Classes of commands -/

/-- The dimensioned commands (40_command R135). -/
def isDimensioned : Instr → Bool
  | .colorFwd | .subsample | .tile | .compress | .colorInv | .upsample | .untile => true
  | .nop | .fdct | .quant | .huffEnc | .idct | .dequant | .huffDec | .decompress => false

/-- The commands that use the table L.QT (60_exceptions R293). -/
def usesTable : Instr → Bool
  | .quant | .dequant | .compress => true
  | .nop | .colorFwd | .subsample | .tile | .fdct | .huffEnc | .colorInv | .upsample | .untile
  | .idct | .huffDec | .decompress => false

/-- The four block commands, which may run in place (60_exceptions R293). -/
def mayRunInPlace : Instr → Bool
  | .fdct | .idct | .quant | .dequant => true
  | .nop | .colorFwd | .subsample | .tile | .huffEnc | .compress | .colorInv | .upsample | .untile
  | .huffDec | .decompress => false

/-- The decoders, whose body errors leave the destination window unspecified (60_exceptions R296). -/
def isDecoder : Instr → Bool
  | .huffDec | .decompress => true
  | .nop | .colorFwd | .subsample | .tile | .fdct | .quant | .huffEnc | .compress | .colorInv
  | .upsample | .untile | .idct | .dequant => false

/-! ### Windows (40_command R134) -/

/-- srcLen, in bytes (40_command R134). -/
def srcLen (i : Instr) (l : Latch) : Nat :=
  match i with
  | .nop => 0
  | .colorFwd => 3 * (l.w * l.h)
  | .subsample => l.w * l.h
  | .tile => l.w * l.h
  | .fdct => 256 * l.count
  | .quant => 256 * l.count
  | .huffEnc => 4 * l.count
  | .compress => 3 * (l.w * l.h)
  | .colorInv => 3 * (l.w * l.h)
  | .upsample => halfDim l.w * halfDim l.h
  | .untile => 256 * tiles l.w l.h
  | .idct => 256 * l.count
  | .dequant => 256 * l.count
  | .huffDec => l.srclen
  | .decompress => l.srclen

/-- dstLen, in bytes (40_command R134). -/
def dstLen (i : Instr) (l : Latch) : Nat :=
  match i with
  | .nop => 0
  | .colorFwd => 3 * (l.w * l.h)
  | .subsample => halfDim l.w * halfDim l.h
  | .tile => 256 * tiles l.w l.h
  | .fdct => 256 * l.count
  | .quant => 256 * l.count
  | .huffEnc => l.dstlim
  | .compress => l.dstlim
  | .colorInv => 3 * (l.w * l.h)
  | .upsample => l.w * l.h
  | .untile => l.w * l.h
  | .idct => 256 * l.count
  | .dequant => 256 * l.count
  | .huffDec => 4 * l.count
  | .decompress => l.dstlim

/-- Address `x` lies in the window of `n` bytes at `a` (00_scope R17). -/
def inWindow (a n x : Nat) : Bool := decide (a ≤ x) && decide (x < a + n)

/-- Two windows share a byte (60_exceptions R293). -/
def windowsMeet (a n b m : Nat) : Bool :=
  decide (0 < n) && (decide (0 < m) && (decide (a < b + m) && decide (b < a + n)))

/-- A nonempty window extends past MEM_SIZE (60_exceptions R293, 20_memory R73). -/
def outOfRange (memSize a n : Nat) : Bool := decide (0 < n) && decide (memSize < a + n)

/-! ### StartChecks (60_exceptions R292, R293) -/

/-- BAD_DIMENSION, then CAPACITY, of a dimensioned command (60_exceptions R293). -/
def dimensionCheck (p : Params) (i : Instr) (l : Latch) : Option Err :=
  if isDimensioned i then
    if l.w = 0 ∨ l.h = 0 then some .badDimension
    else if p.maxPixels < l.w * l.h then some .capacity
    else none
  else none

/-- QTABLE_ZERO of a table user (60_exceptions R293, 45_quant R220). -/
def tableCheck (i : Instr) (l : Latch) : Option Err :=
  if usesTable i && l.qt.contains 0 then some .qtableZero else none

/-- ADDRESS_RANGE, source first (60_exceptions R293). -/
def rangeCheck (p : Params) (i : Instr) (l : Latch) : Option Err :=
  if outOfRange p.memSize l.src (srcLen i l) then some .addressRange
  else if outOfRange p.memSize l.dst (dstLen i l) then some .addressRange
  else none

/-- OVERLAP, outside the in-place exemption (60_exceptions R293). -/
def overlapCheck (i : Instr) (l : Latch) : Option Err :=
  if windowsMeet l.src (srcLen i l) l.dst (dstLen i l) && !(mayRunInPlace i && l.src == l.dst) then some .overlap
  else none

/-- StartChecks of a word that names command `i`: the first check that fails, in the order of 60_exceptions R293.
ILLEGAL_CMD, which comes before them, is the decoder's refusal (`execIllegal`). -/
def startChecks (p : Params) (i : Instr) (l : Latch) : Option Err :=
  (dimensionCheck p i l).or ((tableCheck i l).or ((rangeCheck p i l).or (overlapCheck i l)))

end Sys2Proof.Machine
end

