-- ==== Sys2Proof/Machine/Ops.lean ====
section
/-!
DEFINITION. The shared operations on memory and registers: one-byte and window accesses, acceptance
(40_command R131), completion, which stands in for taking an exception (40_command R137, 60_exceptions R297),
the host's acknowledgement, which stands in for the return (60_exceptions R298), and reset (70_reset R320, R321).
-/

namespace Sys2Proof.Machine

/-! ### Buffer memory (20_memory R60, R63, R65) -/

/-- The byte at address `a`, if any write has set it (20_memory R65). -/
def byteAt : Memory → Nat → Option Byte
  | [], _ => none
  | (x, b) :: m, a => if x = a then some b else byteAt m a

/-- The canonical form: addresses strictly rising.
An unlisted address holds no value, so no entry can equal what an unlisted address reads as (log 8). -/
abbrev Memory.wf (m : Memory) : Prop := m.Pairwise (fun c d => c.1 < d.1)

/-- Bytes at rising addresses from `a`. -/
def cellsFrom : Nat → List Byte → Memory
  | _, [] => []
  | a, b :: bs => (a, b) :: cellsFrom (a + 1) bs

/-- `MemWriteBytes(a, bs)` (00_scope R10, 20_memory R63). -/
def storeBytes (m : Memory) (a : Nat) (bs : List Byte) : Memory :=
  if bs.isEmpty then m
  else m.filter (fun c => decide (c.1 < a)) ++
    (cellsFrom a bs ++ m.filter (fun c => decide (a + bs.length ≤ c.1)))

/-- How a command body ends other than by success. -/
inductive Stop where
  /-- `raise E` (60_exceptions R291). -/
  | raise (e : Err)
  /-- UNINIT_READ (93_implementation_defined U1). -/
  | uninit
deriving DecidableEq, Repr

/-- `MemRead(a, 1)` by the engine: a byte nothing has written is UNINIT_READ (20_memory R65). -/
def engineRead (m : Memory) (a : Nat) : Except Stop Byte :=
  match byteAt m a with
  | some b => .ok b
  | none => .error .uninit

/-- The engine's bytes at the listed addresses, in order. -/
def engineReads (m : Memory) : List Nat → Except Stop (List Byte)
  | [] => .ok []
  | a :: as => do
    let b ← engineRead m a
    let bs ← engineReads m as
    pure (b :: bs)

/-- `MemReadBytes(a, n)` by the engine (00_scope R10). -/
def readWindow (m : Memory) (a n : Nat) : Except Stop (List Byte) := engineReads m (List.range' a n)

/-! ### Free values (93_implementation_defined U3, U5; logs 9, 12, 13) -/

/-- `n` free bytes, the first one number `k`. -/
def freeBytes (k n : Nat) : List Byte := (List.range n).map (fun j => Config.freeByte (k + j))

/-- `n` bytes from address `a` take unspecified values. -/
def scramble (a n : Nat) (s : State) : State :=
  { s with mem := storeBytes s.mem a (freeBytes s.draws n), draws := s.draws + n }

/-- Every byte of the destination window of command `i` takes an unspecified value
(60_exceptions R296, 70_reset R321); a window past MEM_SIZE has only the bytes below it (log 13). -/
def scrambleDst (i : Instr) (s : State) : State :=
  scramble s.latch.dst (min (dstLen i s.latch) (s.params.memSize - s.latch.dst)) s

/-! ### Acceptance (40_command R131, R132) -/

/-- The host's CMD write of `v` is accepted: one atomic step (40_command R131). -/
def accept (v : Word) (s : State) : State :=
  { s with cmd := v, latch := Latch.take v s.ops, status := s.status.accepted, resultLen := 0 }

/-- A CMD write while BUSY = 1 is dropped (40_command R132). -/
def dropCommand (s : State) : State := { s with status := s.status.overrunSet }

/-- The command in flight, if BUSY = 1 and the latched word names one (40_command R130). -/
def inFlight (s : State) : Option Instr :=
  if s.status.busy then (decode s.latch.word.toWord).toOption else none

/-! ### Completion: the event that stands in for trap entry (40_command R137, 60_exceptions R297) -/

/-- What a successful body hands over: the bytes written from L.DST, and the dimensions of DECOMPRESS. -/
structure Success where
  out  : List Byte
  dims : Option (Word × Word)
deriving DecidableEq, Repr

/-- A body whose only result is bytes. -/
def Success.bytes (out : List Byte) : Success := { out := out, dims := none }

/-- RESULT_LEN for `n` bytes (10_state R35, 40_command R136).
R136 says it always fits 32 bits; where it does not, the value is free (log 17). -/
def resultLenOf (n : Nat) : Word := if n < 2 ^ 32 then BitVec.ofNat 32 n else Config.longResultLen n

/-- WIDTH and HEIGHT after a completion: written by a successful DECOMPRESS alone (47_pipeline R281). -/
def Operands.withDims (d : Option (Word × Word)) (o : Operands) : Operands :=
  match d with
  | none => o
  | some (w, h) => { o with width := w, height := h }

/-- Completion with success (40_command R137). -/
def completeSuccess (r : Success) (s : State) : State :=
  { s with mem := storeBytes s.mem s.latch.dst r.out, resultLen := resultLenOf r.out.length,
           ops := s.ops.withDims r.dims, status := s.status.succeeded, donePend := true }

/-- Completion with error `e`; the destination window is the caller's (40_command R137, 60_exceptions R291). -/
def completeFailure (e : Err) (s : State) : State :=
  { s with resultLen := 0, status := s.status.failed e, donePend := true }

/-- The destination window after a body error: unspecified for the decoders, unchanged otherwise (60_exceptions R296). -/
def afterBodyError (i : Instr) (s : State) : State := if isDecoder i then scrambleDst i s else s

/-- The host's acknowledgement of a completion by a write of `v` to IRQ_STATUS (60_exceptions R298, 10_state R30). -/
def acknowledge (v : Word) (s : State) : State := { s with donePend := donePendWritten v s.donePend }

/-- A command body: a function of the parameters, the latch and memory (40_command R133). -/
abbrev Body := Params → Latch → Memory → Except Stop Success

/-- `Exec(L)` and the completion step of command `i` (40_command R133, R137).
BUSY is not read here: `step` runs a command only while BUSY = 1 (log 23). -/
def runCommand (i : Instr) (body : Body) (s : State) : Host.Outcome State Fault Refusal :=
  match startChecks s.params i s.latch with
  | some e => .next (completeFailure e s)
  | none =>
    match body s.params s.latch s.mem with
    | .ok r => .next (completeSuccess r s)
    | .error (.raise e) => .next (completeFailure e (afterBodyError i s))
    | .error .uninit => .fault .uninitRead

/-- An illegal word completes with ILLEGAL_CMD and has no other effect (30_encoding R95, 60_exceptions R293). -/
def execIllegal (s : State) : Host.Outcome State Fault Refusal := .next (completeFailure .illegalCmd s)

/-! ### Reset (70_reset R320 to R323) -/

/-- Steps 2 to 4 of the reset step: every register at its reset value, the latch dropped (70_reset R320). -/
def resetRegisters (s : State) : State :=
  { s with cmd := 0, status := Status.reset, irqEn := false, donePend := false, ops := Operands.reset,
           resultLen := 0, latch := Latch.reset }

/-- The destination window of the command a reset aborts takes unspecified values (70_reset R321). -/
def abortCommand (s : State) : State :=
  match inFlight s with
  | some i => scrambleDst i s
  | none => s

/-- Hardware reset and soft reset: one atomic step, which differs from power-on only in memory (70_reset R320, R321). -/
def resetStep (s : State) : State := resetRegisters (abortCommand s)

/-- Power-on reset: as above, and no byte of memory holds a value (70_reset R320, R321). -/
def powerOnReset (s : State) : State :=
  { resetRegisters s with mem := [], epoch := s.epoch + 1 }

end Sys2Proof.Machine
end

