-- ==== Sys2Proof/Machine/Color.lean ====
section
/-!
DEFINITION. The color-space converter: COLOR_FWD and COLOR_INV (41_color R150 to R154).
-/

namespace Sys2Proof.Machine

open F64 (ofBits add sub mul roundHA)

/-! ### Constants (41_color R150) -/

/-- 0.299 -/
def c0299 : F64 := ofBits 0x3FD322D0E5604189
/-- 0.587 -/
def c0587 : F64 := ofBits 0x3FE2C8B439581062
/-- 0.114 -/
def c0114 : F64 := ofBits 0x3FBD2F1A9FBE76C9
/-- 0.168736 -/
def c0168736 : F64 := ofBits 0x3FC5992428D434A0
/-- 0.331264 -/
def c0331264 : F64 := ofBits 0x3FD5336DEB95E5B0
/-- 0.5 -/
def c05 : F64 := ofBits 0x3FE0000000000000
/-- 0.418688 -/
def c0418688 : F64 := ofBits 0x3FDACBC8C0CE91C9
/-- 0.081312 -/
def c0081312 : F64 := ofBits 0x3FB4D0DCFCC5B8DC
/-- 128 -/
def c128 : F64 := ofBits 0x4060000000000000
/-- 1.402 -/
def c1402 : F64 := ofBits 0x3FF66E978D4FDF3B
/-- 0.344136 -/
def c0344136 : F64 := ofBits 0x3FD6065300581494
/-- 0.714136 -/
def c0714136 : F64 := ofBits 0x3FE6DA33BD9CAE21
/-- 1.772 -/
def c1772 : F64 := ofBits 0x3FFC5A1CAC083127

/-! ### Pixels (41_color R151, R153) -/

/-- A u8 converted exactly to binary64 (00_scope R12). -/
def byteF64 (b : Byte) : F64 := F64.ofInt (b.toNat : Int)

/-- `Clamp(RoundHA(v), 0, 255)` (41_color R151). -/
def channel (v : F64) : Byte := byteOfInt (clamp (roundHA v) 0 255)

/-- y of 41_color R151. -/
def lumaOf (r g b : Byte) : F64 :=
  add (add (mul c0299 (byteF64 r)) (mul c0587 (byteF64 g))) (mul c0114 (byteF64 b))

/-- cb of 41_color R151. -/
def cbOf (r g b : Byte) : F64 :=
  add (sub (sub c128 (mul c0168736 (byteF64 r))) (mul c0331264 (byteF64 g))) (mul c05 (byteF64 b))

/-- cr of 41_color R151. -/
def crOf (r g b : Byte) : F64 :=
  sub (sub (add c128 (mul c05 (byteF64 r))) (mul c0418688 (byteF64 g))) (mul c0081312 (byteF64 b))

/-- `ColorFwdPx(R, G, B)` = (Y, Cb, Cr) (41_color R151). -/
def colorFwdPx (r g b : Byte) : Byte × Byte × Byte :=
  (channel (lumaOf r g b), channel (cbOf r g b), channel (crOf r g b))

/-- r of 41_color R153. -/
def redOf (y cr : Byte) : F64 := add (byteF64 y) (mul c1402 (sub (byteF64 cr) c128))

/-- g of 41_color R153. -/
def greenOf (y cb cr : Byte) : F64 :=
  sub (sub (byteF64 y) (mul c0344136 (sub (byteF64 cb) c128))) (mul c0714136 (sub (byteF64 cr) c128))

/-- b of 41_color R153. -/
def blueOf (y cb : Byte) : F64 := add (byteF64 y) (mul c1772 (sub (byteF64 cb) c128))

/-- `ColorInvPx(Y, Cb, Cr)` = (R, G, B) (41_color R153). -/
def colorInvPx (y cb cr : Byte) : Byte × Byte × Byte :=
  (channel (redOf y cr), channel (greenOf y cb cr), channel (blueOf y cb))

/-! ### Images and planar triples (20_memory R66, R70) -/

/-- The pixels of an Image (20_memory R66). -/
def pixelsOf : List Byte → List (Byte × Byte × Byte)
  | r :: g :: b :: rest => (r, g, b) :: pixelsOf rest
  | _ => []

/-- The three planes of an Image, converted: Y, Cb, Cr (41_color R151, R152). -/
def colorFwdPlanes (img : List Byte) : List Byte × List Byte × List Byte :=
  let px := (pixelsOf img).map (fun p => colorFwdPx p.1 p.2.1 p.2.2)
  (px.map (fun p => p.1), px.map (fun p => p.2.1), px.map (fun p => p.2.2))

/-- The planar triple of an Image (41_color R152, 20_memory R70). -/
def colorFwd (img : List Byte) : List Byte :=
  let t := colorFwdPlanes img
  t.1 ++ (t.2.1 ++ t.2.2)

/-- The Image of three planes of equal size (41_color R154, 47_pipeline R274). -/
def colorInvPlanes (ys cbs crs : List Byte) : List Byte :=
  (ys.zip (cbs.zip crs)).flatMap fun p =>
    let q := colorInvPx p.1 p.2.1 p.2.2
    [q.1, q.2.1, q.2.2]

/-- The Image of a planar triple of planes of `n` samples (41_color R154). -/
def colorInv (n : Nat) (triple : List Byte) : List Byte :=
  colorInvPlanes (triple.take n) ((triple.drop n).take n) (triple.drop (2 * n))

/-! ### Commands -/

/-- `Body[0x01]` (41_color R152). -/
def bodyColorFwd : Body := fun _ l m => do
  let img ← readWindow m l.src (3 * (l.w * l.h))
  pure (Success.bytes (colorFwd img))

/-- `Body[0x11]` (41_color R154). -/
def bodyColorInv : Body := fun _ l m => do
  let triple ← readWindow m l.src (3 * (l.w * l.h))
  pure (Success.bytes (colorInv (l.w * l.h) triple))

/-- COLOR_FWD (41_color R152). -/
def execColorFwd (s : State) : Host.Outcome State Fault Refusal := runCommand .colorFwd bodyColorFwd s

/-- COLOR_INV (41_color R154). -/
def execColorInv (s : State) : Host.Outcome State Fault Refusal := runCommand .colorInv bodyColorInv s

end Sys2Proof.Machine
end

