-- ==== Sys2Proof/Machine/Entropy.lean ====
section
/-!
DEFINITION. The Huffman entropy encoder and decoder: HUFF_ENC and HUFF_DEC (46_entropy R235 to R260,
30_encoding R115 to R121).
-/

namespace Sys2Proof.Machine

/-! ### The tree (46_entropy R236 to R240) -/

/-- A leaf holds one i32 value; an internal node has a zero-branch and a one-branch (46_entropy R237). -/
inductive HTree where
  | leaf (v : Word)
  | node (lft rgt : HTree)
deriving DecidableEq, Repr

/-- A node of the pool: weight w and sequence number q (46_entropy R237). -/
structure PoolNode where
  w : Nat
  q : Nat
  t : HTree
deriving DecidableEq, Repr

/-- One more occurrence of `v` in a frequency table kept in ascending signed order (46_entropy R236, R238). -/
def countValue (v : Word) : List (Word × Nat) → List (Word × Nat)
  | [] => [(v, 1)]
  | (u, n) :: rest =>
    if v = u then (u, n + 1) :: rest
    else if v.toInt < u.toInt then (v, 1) :: (u, n) :: rest
    else (u, n) :: countValue v rest

/-- The frequency table: the distinct values of `s` in ascending signed order, each with its count
(46_entropy R236, R238). -/
def freqTable (s : List Word) : List (Word × Nat) := s.foldl (fun t v => countValue v t) []

/-- The order of extraction: (w, q), compared lexicographically (46_entropy R239). -/
def PoolNode.before (a b : PoolNode) : Bool := decide (a.w < b.w) || (a.w == b.w && decide (a.q < b.q))

/-- A node put into a pool kept in the order of extraction. -/
def insertNode (x : PoolNode) : List PoolNode → List PoolNode
  | [] => [x]
  | y :: ys => if x.before y then x :: y :: ys else y :: insertNode x ys

/-- The n leaves, the k-th smallest value with q = k and w = freq(v) (46_entropy R238). -/
def initialPool (freqs : List (Word × Nat)) : List PoolNode :=
  freqs.zipIdx.foldl (fun pool p => insertNode { w := p.1.2, q := p.2, t := .leaf p.1.1 } pool) []

/-- The loop of `Build`: the two least nodes are merged, the first one extracted becoming the zero-branch, until one
node is left; `fuel` bounds the merges (46_entropy R239). -/
def mergePool : Nat → Nat → List PoolNode → Option HTree
  | _, _, [] => none
  | _, _, [a] => some a.t
  | 0, _, _ :: _ :: _ => none
  | fuel + 1, next, a :: b :: rest =>
    mergePool fuel (next + 1) (insertNode { w := a.w + b.w, q := next, t := .node a.t b.t } rest)

/-- `Build(s)`; an empty sequence has no tree (46_entropy R239, R240). -/
def buildTree (s : List Word) : Option HTree :=
  let freqs := freqTable s
  mergePool freqs.length freqs.length (initialPool freqs)

/-! ### The codebook (46_entropy R241, R242) -/

/-- The leaves of a tree with their paths, zero-branch first (46_entropy R241). -/
def HTree.paths : HTree → List (Word × Bits)
  | .leaf v => [(v, [])]
  | .node l r => (l.paths.map fun p => (p.1, false :: p.2)) ++ (r.paths.map fun p => (p.1, true :: p.2))

/-- CB: the paths, and one bit 0 for the value of a tree that is a single leaf (46_entropy R241, R242). -/
def HTree.codebook : HTree → List (Word × Bits)
  | .leaf v => [(v, [false])]
  | .node l r => (HTree.node l r).paths

/-- `CB(s_0) ++ CB(s_1) ++ ...`, or none if a value has no entry (46_entropy R243, R247). -/
def encodeValues (cb : List (Word × Bits)) : List Word → Option Bits
  | [] => some []
  | v :: vs =>
    match cb.lookup v, encodeValues cb vs with
    | some c, some cs => some (c ++ cs)
    | _, _ => none

/-! ### The encoder (46_entropy R243, 30_encoding R115, R116) -/

/-- `SerTree(T)`, preorder (30_encoding R115). -/
def HTree.ser : HTree → Bits
  | .leaf v => true :: bits32 v
  | .node l r => false :: (l.ser ++ r.ser)

/-- `bytes(pad64(s))`: a section of a container (30_encoding R115, R116). -/
def section64 (s : Bits) : List Byte := bytesOfBits (pad64 s)

/-- `HuffEnc(s)`: nothing for an empty sequence, else the tree section and the stream section (46_entropy R243).
None stands for a value without a codebook entry, which cannot happen (46_entropy R247; log 24). -/
def huffEnc (s : List Word) : Option (List Byte) :=
  if s.isEmpty then some []
  else
    match buildTree s with
    | none => none
    | some t => (encodeValues t.codebook s).map fun codes => section64 t.ser ++ section64 codes

/-- The encoder's checks on a sequence and a destination capacity, `hdr` standing before its output:
CAPACITY for too many distinct values, then for an output longer than the capacity, before anything is written
(46_entropy R245, R246, R250, 47_pipeline R272). -/
def encodeInto (p : Params) (limit : Nat) (hdr : List Byte) (s : List Word) : Except Stop Success :=
  if p.maxSymbols < (freqTable s).length then .error (.raise .capacity)
  else
    match huffEnc s with
    | none => .error (.raise .codecInvariant)
    | some bs =>
      if limit < (hdr ++ bs).length then .error (.raise .capacity)
      else .ok (Success.bytes (hdr ++ bs))

/-! ### The decoder (46_entropy R251 to R257, 30_encoding R118, R121) -/

/-- A decoder's input: `len` bytes of memory from address `base`. -/
structure BitSource where
  mem  : Memory
  base : Nat
  len  : Nat

/-- `ReadBit()` at bit position `k`: bit `7 - (k mod 8)` of the byte at `base + (k div 8)`, or FORMAT_TRUNCATED past
the end (30_encoding R118, 46_entropy R255). -/
def readBit (src : BitSource) (k : Nat) : Except Stop Bool :=
  if 8 * src.len ≤ k then .error (.raise .formatTruncated)
  else do
    let b ← engineRead src.mem (src.base + k / 8)
    pure (b.getMsbD (k % 8))

/-- `n` bits from position `k`, most significant first, onto `v` (46_entropy R251). -/
def readBits (src : BitSource) : Nat → Nat → Nat → Except Stop Nat
  | 0, _, v => .ok v
  | n + 1, k, v => do
    let b ← readBit src k
    readBits src n (k + 1) (2 * v + b.toNat)

/-- `ParseTree()` from bit position `k` with `m` nodes parsed so far: the tree, the bit position and the node count
after it (46_entropy R251). A node beyond `limit` is FORMAT_TREE before its tag is read (46_entropy R252).
`fuel` bounds the depth; with `fuel` at least `limit` it runs out only where the limit has (log 25). -/
def parseTree (src : BitSource) (limit : Nat) : Nat → Nat → Nat → Except Stop (HTree × Nat × Nat)
  | 0, _, _ => .error (.raise .formatTree)
  | fuel + 1, k, m =>
    if limit < m + 1 then .error (.raise .formatTree)
    else do
      let tag ← readBit src k
      if tag then
        let v ← readBits src 32 (k + 1) 0
        pure (.leaf (BitVec.ofNat 32 v), k + 33, m + 1)
      else
        let l ← parseTree src limit fuel (k + 1) (m + 1)
        let r ← parseTree src limit fuel l.2.1 l.2.2
        pure (.node l.1 r.1, r.2.1, r.2.2)

/-- From a node to a leaf, one bit per branch: the leaf's value and the bit position after it (46_entropy R253). -/
def walkTree (src : BitSource) : HTree → Nat → Except Stop (Word × Nat)
  | .leaf v, k => .ok (v, k)
  | .node l r, k => do
    let b ← readBit src k
    if b then walkTree src r (k + 1) else walkTree src l (k + 1)

/-- One value of the stream: under a single leaf the bit 0, or FORMAT_CODE; else a walk from the root
(46_entropy R253, R254). -/
def decodeValue (src : BitSource) (t : HTree) (k : Nat) : Except Stop (Word × Nat) :=
  match t with
  | .leaf v => do
    let b ← readBit src k
    if b then .error (.raise .formatCode) else pure (v, k + 1)
  | .node l r => walkTree src (.node l r) k

/-- `DecodeStream(T, count)` from bit position `k` (46_entropy R253). -/
def decodeStream (src : BitSource) (t : HTree) : Nat → Nat → Except Stop (List Word)
  | 0, _ => .ok []
  | n + 1, k => do
    let x ← decodeValue src t k
    let xs ← decodeStream src t n x.2
    pure (x.1 :: xs)

/-- The bit position where the stream section starts after a tree of `t` bits (30_encoding R118). -/
def streamStart (t : Nat) : Nat := 64 * ((t + 63) / 64)

/-- `2·MAX_SYMBOLS - 1`, the most nodes a tree may have (46_entropy R252). -/
def nodeLimit (p : Params) : Nat := 2 * p.maxSymbols - 1

/-- `HuffDec(bytes, count)`: no bit is read when count = 0 (46_entropy R257). -/
def huffDec (p : Params) (src : BitSource) (count : Nat) : Except Stop (List Word) :=
  if count = 0 then .ok []
  else do
    let t ← parseTree src (nodeLimit p) (nodeLimit p) 0 0
    decodeStream src t.1 count (streamStart t.2.1)

/-! ### Commands -/

/-- `Body[0x06]` (46_entropy R250). -/
def bodyHuffEnc : Body := fun p l m => do
  let bs ← readWindow m l.src (4 * l.count)
  if l.count = 0 then pure (Success.bytes [])
  else encodeInto p l.dstlim [] (bytesToWords bs)

/-- `Body[0x16]` (46_entropy R260). -/
def bodyHuffDec : Body := fun p l m => do
  let out ← huffDec p { mem := m, base := l.src, len := l.srclen } l.count
  pure (Success.bytes (wordsToBytes out))

/-- HUFF_ENC (46_entropy R250). -/
def execHuffEnc (s : State) : Host.Outcome State Fault Refusal := runCommand .huffEnc bodyHuffEnc s

/-- HUFF_DEC (46_entropy R260). -/
def execHuffDec (s : State) : Host.Outcome State Fault Refusal := runCommand .huffDec bodyHuffDec s

end Sys2Proof.Machine
end

