-- ==== Sys2Proof/Machine/Transform.lean ====
section
/-!
DEFINITION. The DCT/IDCT pipeline: FDCT and IDCT (44_transform R200 to R206), and the shape all four block
commands share.
-/

namespace Sys2Proof.Machine

open F64 (ofBits neg add mul)

/-! ### Constants (44_transform R201, R202) -/

/-- c_0 = cos(0π/16) (44_transform R201). -/
def cos0 : F64 := ofBits 0x3FF0000000000000
/-- c_1 = cos(1π/16) (44_transform R201). -/
def cos1 : F64 := ofBits 0x3FEF6297CFF75CB0
/-- c_2 = cos(2π/16) (44_transform R201). -/
def cos2 : F64 := ofBits 0x3FED906BCF328D46
/-- c_3 = cos(3π/16) (44_transform R201). -/
def cos3 : F64 := ofBits 0x3FEA9B66290EA1A3
/-- c_4 = cos(4π/16) (44_transform R201). -/
def cos4 : F64 := ofBits 0x3FE6A09E667F3BCD
/-- c_5 = cos(5π/16) (44_transform R201). -/
def cos5 : F64 := ofBits 0x3FE1C73B39AE68C8
/-- c_6 = cos(6π/16) (44_transform R201). -/
def cos6 : F64 := ofBits 0x3FD87DE2A6AEA963
/-- c_7 = cos(7π/16) (44_transform R201). -/
def cos7 : F64 := ofBits 0x3FC8F8B83C69A60B

/-- -c_1: the pattern with the sign bit set (44_transform R201). -/
def ncos1 : F64 := neg cos1
/-- -c_2: the pattern with the sign bit set (44_transform R201). -/
def ncos2 : F64 := neg cos2
/-- -c_3: the pattern with the sign bit set (44_transform R201). -/
def ncos3 : F64 := neg cos3
/-- -c_4: the pattern with the sign bit set (44_transform R201). -/
def ncos4 : F64 := neg cos4
/-- -c_5: the pattern with the sign bit set (44_transform R201). -/
def ncos5 : F64 := neg cos5
/-- -c_6: the pattern with the sign bit set (44_transform R201). -/
def ncos6 : F64 := neg cos6
/-- -c_7: the pattern with the sign bit set (44_transform R201). -/
def ncos7 : F64 := neg cos7

/-- The table of 44_transform R201: row u, column t. -/
def kTable : List (List F64) :=
  [ [ cos0,  cos0,  cos0,  cos0,  cos0,  cos0,  cos0,  cos0],
    [ cos1,  cos3,  cos5,  cos7, ncos7, ncos5, ncos3, ncos1],
    [ cos2,  cos6, ncos6, ncos2, ncos2, ncos6,  cos6,  cos2],
    [ cos3, ncos7, ncos1, ncos5,  cos5,  cos1,  cos7, ncos3],
    [ cos4, ncos4, ncos4,  cos4,  cos4, ncos4, ncos4,  cos4],
    [ cos5, ncos1,  cos7,  cos3, ncos3, ncos7,  cos1, ncos5],
    [ cos6, ncos2,  cos2, ncos6, ncos6,  cos2, ncos2,  cos6],
    [ cos7, ncos5,  cos3, ncos1,  cos1, ncos3,  cos5, ncos7] ]

/-- `K[u][t]` (44_transform R201). -/
def kAt (u t : Nat) : F64 := (kTable.getD u []).getD t F64.zero

/-- `C(0) = 1/√2` (44_transform R200, R201). -/
def cFirst : F64 := ofBits 0x3FE6A09E667F3BCD

/-- `C(k) = 1` for k > 0 (44_transform R200). -/
def cRest : F64 := ofBits 0x3FF0000000000000

/-- `(0.25 ⊗ C(u)) ⊗ C(v)` for given C(u) and C(v) (44_transform R202). -/
def nOf (cu cv : F64) : F64 := mul (mul (ofBits 0x3FD0000000000000) cu) cv

/-- N(0, 0) (44_transform R202). -/
def n00 : F64 := nOf cFirst cFirst
/-- N(0, v) for v > 0 (44_transform R202). -/
def n01 : F64 := nOf cFirst cRest
/-- N(u, 0) for u > 0 (44_transform R202). -/
def n10 : F64 := nOf cRest cFirst
/-- N(u, v) for u, v > 0 (44_transform R202). -/
def n11 : F64 := nOf cRest cRest

/-- `N(u, v) = (0.25 ⊗ C(u)) ⊗ C(v)` (44_transform R202). -/
def nAt (u v : Nat) : F64 :=
  match u, v with
  | 0, 0 => n00
  | 0, _ + 1 => n01
  | _ + 1, 0 => n10
  | _ + 1, _ + 1 => n11

/-! ### Block functions (44_transform R203, R206)

Element `8·x + y` is row x, column y (44_transform R200), so index order is x outer, y inner. -/

/-- `F(u, v)` of the forward transform (44_transform R203). -/
def fdctAt (f : Block) (u v : Nat) : Int :=
  let s := f.zipIdx.foldl
    (fun s p => add s (mul (mul (F64.ofInt p.1) (kAt u (p.2 / 8))) (kAt v (p.2 % 8)))) F64.zero
  sat32 (F64.roundHA (mul (nAt u v) s))

/-- `Fdct(f)` (44_transform R203). -/
def fdct (f : Block) : Block := (List.range 64).map fun k => fdctAt f (k / 8) (k % 8)

/-- `f(x, y)` of the inverse transform (44_transform R206). -/
def idctAt (c : Block) (x y : Nat) : Int :=
  let s := c.zipIdx.foldl
    (fun s p => add s
      (mul (mul (mul (nAt (p.2 / 8) (p.2 % 8)) (F64.ofInt p.1)) (kAt (p.2 / 8) x)) (kAt (p.2 % 8) y))) F64.zero
  sat32 (F64.roundHA s)

/-- `Idct(F)` (44_transform R206). -/
def idct (c : Block) : Block := (List.range 64).map fun k => idctAt c (k / 8) (k % 8)

/-! ### Commands -/

/-- The blocks of a block array (20_memory R68). -/
def blocksOfBytes (n : Nat) (bs : List Byte) : List Block := chunks64 n ((bytesToWords bs).map sext32)

/-- A block array (20_memory R68). -/
def bytesOfBlocks (bks : List Block) : List Byte := wordsToBytes (bks.flatten.map twos32)

/-- The body of a block command: every block of the source window, by itself, through `f`
(44_transform R204, R205, 45_quant R221, R223). -/
def blockBody (f : Latch → Block → Block) : Body := fun _ l m => do
  let bs ← readWindow m l.src (256 * l.count)
  pure (Success.bytes (bytesOfBlocks ((blocksOfBytes l.count bs).map (f l))))

/-- `Body[0x04]` (44_transform R204). -/
def bodyFdct : Body := blockBody fun _ => fdct

/-- `Body[0x14]` (44_transform R205). -/
def bodyIdct : Body := blockBody fun _ => idct

/-- FDCT (44_transform R204). -/
def execFdct (s : State) : Host.Outcome State Fault Refusal := runCommand .fdct bodyFdct s

/-- IDCT (44_transform R205). -/
def execIdct (s : State) : Host.Outcome State Fault Refusal := runCommand .idct bodyIdct s

end Sys2Proof.Machine
end

