-- ==== Sys2Proof/Machine/Quant.lean ====
section
/-!
DEFINITION. The quantizer and dequantizer: QUANT and DEQUANT (45_quant R220 to R224).
-/

namespace Sys2Proof.Machine

/-- `Quant(b, t)` (45_quant R222). -/
def quant (b : Int) (t : Nat) : Int := divRoundHA b t

/-- `Dequant(b, t)` (45_quant R224). -/
def dequant (b : Int) (t : Nat) : Int := sat32 (b * t)

/-- Every element of a block by its own divisor (45_quant R221). -/
def quantBlock (qt : List Nat) (b : Block) : Block := List.zipWith quant b qt

/-- Every element of a block by its own multiplier (45_quant R223). -/
def dequantBlock (qt : List Nat) (b : Block) : Block := List.zipWith dequant b qt

/-- `Body[0x05]` (45_quant R221). -/
def bodyQuant : Body := blockBody fun l => quantBlock l.qt

/-- `Body[0x15]` (45_quant R223). -/
def bodyDequant : Body := blockBody fun l => dequantBlock l.qt

/-- QUANT (45_quant R221). -/
def execQuant (s : State) : Host.Outcome State Fault Refusal := runCommand .quant bodyQuant s

/-- DEQUANT (45_quant R223). -/
def execDequant (s : State) : Host.Outcome State Fault Refusal := runCommand .dequant bodyDequant s

end Sys2Proof.Machine
end

