-- ==== Sys2Proof/Machine/Subsample.lean ====
section
/-!
DEFINITION. The chroma subsampler: SUBSAMPLE and UPSAMPLE (42_subsample R171 to R175).
Both only move samples, so each is given by the index in the input plane of every output sample, in order.
-/

namespace Sys2Proof.Machine

/-- `S(i, j) = P(2i, 2j)`: for each sample of the subsampled plane, its index in the `w` by `h` plane
(42_subsample R172). -/
def subsampleIndices (w h : Nat) : List Nat :=
  (List.range (halfDim h)).flatMap fun j => (List.range (halfDim w)).map fun i => 2 * j * w + 2 * i

/-- The chroma plane of a `w` by `h` image has no sample (42_subsample R174). -/
def chromaEmpty (w h : Nat) : Bool := halfDim w == 0 || halfDim h == 0

/-- `P(x, y) = S(min(x div 2, cW-1), min(y div 2, cH-1))`: for each sample of the full plane, its index in the
subsampled plane (42_subsample R174). -/
def upsampleIndices (w h : Nat) : List Nat :=
  (List.range h).flatMap fun y => (List.range w).map fun x =>
    min (y / 2) (halfDim h - 1) * halfDim w + min (x / 2) (halfDim w - 1)

/-- `Subsample(P, W, H)` (42_subsample R172). -/
def subsample (plane : List Byte) (w h : Nat) : List Byte :=
  (subsampleIndices w h).map fun k => plane.getD k 0

/-- `Upsample(S, W, H)`: an empty chroma plane becomes a plane of 128 (42_subsample R174).
DESIGN CHOICE: where R176 says that `Upsample(Subsample(P, W, H), W, H)` is P exactly when W and H are even (and P is
constant on 2×2 squares), this and `subsample` follow R172 and R174, which give P back for some odd sizes too (log 28). -/
def upsample (plane : List Byte) (w h : Nat) : List Byte :=
  if chromaEmpty w h then List.replicate (w * h) 128
  else (upsampleIndices w h).map fun k => plane.getD k 0

/-- `Body[0x02]`: only the samples at even coordinates are read (42_subsample R173). -/
def bodySubsample : Body := fun _ l m => do
  let out ← engineReads m ((subsampleIndices l.w l.h).map (l.src + ·))
  pure (Success.bytes out)

/-- `Body[0x12]` (42_subsample R175). -/
def bodyUpsample : Body := fun _ l m =>
  if chromaEmpty l.w l.h then .ok (Success.bytes (List.replicate (l.w * l.h) 128))
  else do
    let out ← engineReads m ((upsampleIndices l.w l.h).map (l.src + ·))
    pure (Success.bytes out)

/-- SUBSAMPLE (42_subsample R173). -/
def execSubsample (s : State) : Host.Outcome State Fault Refusal := runCommand .subsample bodySubsample s

/-- UPSAMPLE (42_subsample R175). -/
def execUpsample (s : State) : Host.Outcome State Fault Refusal := runCommand .upsample bodyUpsample s

end Sys2Proof.Machine
end

