-- ==== Sys2Proof/Machine/Tiler.lean ====
section
/-!
DEFINITION. The block tiler: TILE and UNTILE (43_tiler R185 to R189).
-/

namespace Sys2Proof.Machine

/-- For each element of each block, in order: the index of its sample in the `w` by `h` plane, or none where the
tile extends past the plane (43_tiler R186). -/
def tileIndices (w h : Nat) : List (Option Nat) :=
  (List.range (ceil8 h)).flatMap fun ty => (List.range (ceil8 w)).flatMap fun tx =>
    (List.range 8).flatMap fun r => (List.range 8).map fun c =>
      let x := 8 * tx + c
      let y := 8 * ty + r
      if x < w ∧ y < h then some (y * w + x) else none

/-- For each sample of the `w` by `h` plane, in order: the index of its element in the block array,
`64·k + 8·(y mod 8) + (x mod 8)` with `k = (y div 8)·ceil8(w) + (x div 8)` (43_tiler R188). -/
def untileIndices (w h : Nat) : List Nat :=
  (List.range h).flatMap fun y => (List.range w).map fun x =>
    64 * (y / 8 * ceil8 w + x / 8) + (8 * (y % 8) + x % 8)

/-- `Tile(P, w, h)`, the elements of all blocks in order: a sample, or 0 in an uncovered cell (43_tiler R186). -/
def tile (plane : List Byte) (w h : Nat) : List Int :=
  (tileIndices w h).map fun k =>
    match k with
    | some j => ((plane.getD j 0).toNat : Int)
    | none => 0

/-- `Clamp(e, 0, 255)`: a block element as a plane byte (43_tiler R188). -/
def sampleOf (e : Int) : Byte := byteOfInt (clamp e 0 255)

/-- `Untile(B, w, h)` on the elements of all blocks in order (43_tiler R188). -/
def untile (els : List Int) (w h : Nat) : List Byte :=
  (untileIndices w h).map fun k => sampleOf (els.getD k 0)

/-- One element of TILE: the sample is read from memory, an uncovered cell reads nothing (43_tiler R187). -/
def tileElement (m : Memory) (src : Nat) (k : Option Nat) : Except Stop Int :=
  match k with
  | some j => do
    let b ← engineRead m (src + j)
    pure (b.toNat : Int)
  | none => .ok 0

/-- The elements of TILE in order (43_tiler R187). -/
def tileElements (m : Memory) (src : Nat) : List (Option Nat) → Except Stop (List Int)
  | [] => .ok []
  | k :: ks => do
    let e ← tileElement m src k
    let es ← tileElements m src ks
    pure (e :: es)

/-- `Body[0x03]` (43_tiler R187). -/
def bodyTile : Body := fun _ l m => do
  let es ← tileElements m l.src (tileIndices l.w l.h)
  pure (Success.bytes (wordsToBytes (es.map twos32)))

/-- The samples of UNTILE in order; the elements outside the plane are not read (43_tiler R189). -/
def untileSamples (m : Memory) (src : Nat) : List Nat → Except Stop (List Byte)
  | [] => .ok []
  | k :: ks => do
    let bs ← readWindow m (src + 4 * k) 4
    let out ← untileSamples m src ks
    pure (sampleOf (sext32 (BitVec.ofNat 32 (beValue bs))) :: out)

/-- `Body[0x13]` (43_tiler R189). -/
def bodyUntile : Body := fun _ l m => do
  let out ← untileSamples m l.src (untileIndices l.w l.h)
  pure (Success.bytes out)

/-- TILE (43_tiler R187). -/
def execTile (s : State) : Host.Outcome State Fault Refusal := runCommand .tile bodyTile s

/-- UNTILE (43_tiler R189). -/
def execUntile (s : State) : Host.Outcome State Fault Refusal := runCommand .untile bodyUntile s

end Sys2Proof.Machine
end

