-- ==== Sys2Proof/Machine/Pipeline.lean ====
section
/-!
DEFINITION. The pipeline compositions COMPRESS and DECOMPRESS (47_pipeline R270 to R281) and the container header
(30_encoding R110 to R114).
-/

namespace Sys2Proof.Machine

/-! ### Compression (47_pipeline R271) -/

/-- The blocks of a plane, none for an empty one (47_pipeline R271). -/
def planeBlocks (plane : List Byte) (w h : Nat) : List Block :=
  if 1 ≤ w ∧ 1 ≤ h then chunks64 (tiles w h) (tile plane w h) else []

/-- The blocks of an Image before the transform: all Y, then all Cb, then all Cr (47_pipeline R271, 30_encoding R120). -/
def imageToBlocks (img : List Byte) (w h : Nat) : List Block :=
  let t := colorFwdPlanes img
  planeBlocks t.1 w h ++
    (planeBlocks (subsample t.2.1 w h) (halfDim w) (halfDim h) ++
     planeBlocks (subsample t.2.2 w h) (halfDim w) (halfDim h))

/-- The coefficient sequence of `Compress(img, W, H, QT)` (47_pipeline R271). -/
def coefficients (img : List Byte) (w h : Nat) (qt : List Nat) : List Word :=
  ((imageToBlocks img w h).flatMap fun f => quantBlock qt (fdct f)).map twos32

/-- The 138-byte header (30_encoding R111, 47_pipeline R271). -/
def headerBytes (w h : Nat) (qt : List Nat) : List Byte :=
  beBytes 4 w ++ (beBytes 4 h ++ ([1, 0] ++ qt.flatMap (beBytes 2)))

/-- `Body[0x07]` (47_pipeline R272). -/
def bodyCompress : Body := fun p l m => do
  let img ← readWindow m l.src (3 * (l.w * l.h))
  encodeInto p l.dstlim (headerBytes l.w l.h l.qt) (coefficients img l.w l.h l.qt)

/-! ### Decompression (47_pipeline R273, R274) -/

/-- The fields of a container header (30_encoding R111). -/
structure Header where
  width  : Word
  height : Word
  ss     : Byte
  qf     : Byte
  qt     : List Nat
deriving DecidableEq, Repr

/-- HEADER_BYTES: 4 + 4 + 1 + 1 + 128 (30_encoding R111). -/
def headerLen : Nat := 138

/-- 16-bit big-endian values (30_encoding R114). -/
def bytesToHalves : List Byte → List Nat
  | b0 :: b1 :: rest => beValue [b0, b1] :: bytesToHalves rest
  | _ => []

/-- The fields of a header's 138 bytes (30_encoding R111). -/
def Header.ofBytes (bs : List Byte) : Header :=
  { width := BitVec.ofNat 32 (beValue (bs.take 4)), height := BitVec.ofNat 32 (beValue ((bs.drop 4).take 4)),
    ss := bs.getD 8 0, qf := bs.getD 9 0, qt := bytesToHalves (bs.drop 10) }

/-- W of a header, in pixels. -/
def Header.w (hd : Header) : Nat := hd.width.toNat

/-- H of a header, in pixels. -/
def Header.h (hd : Header) : Nat := hd.height.toNat

/-- Step 2 of the header checks: the header names no image this block can decode (47_pipeline R273). -/
def Header.illegal (hd : Header) : Bool :=
  hd.ss != 1 || (hd.qf != 0 || (hd.qt.contains 0 || (hd.w == 0 || hd.h == 0)))

/-- Step 3 of the header checks: too large for the block or for the destination (47_pipeline R273). -/
def Header.tooLarge (p : Params) (limit : Nat) (hd : Header) : Bool :=
  decide (p.maxPixels < hd.w * hd.h) || decide (limit < 3 * (hd.w * hd.h))

/-- The header of the container at the latched source, checked in the order of 47_pipeline R273. -/
def readHeader (p : Params) (l : Latch) (m : Memory) : Except Stop Header :=
  if l.srclen < headerLen then .error (.raise .formatTruncated)
  else do
    let bs ← readWindow m l.src headerLen
    let hd := Header.ofBytes bs
    if hd.illegal then .error (.raise .formatHeader)
    else if hd.tooLarge p l.dstlim then .error (.raise .capacity)
    else pure hd

/-- The block of a decoded coefficient group: dequantized, then inverse transformed (47_pipeline R274). -/
def decodeBlock (qt : List Nat) (vs : List Int) : Block := idct (dequantBlock qt vs)

/-- The Image of a decoded coefficient sequence (47_pipeline R274). -/
def imageOfCoefficients (hd : Header) (seq : List Word) : List Byte :=
  let cw := halfDim hd.w
  let ch := halfDim hd.h
  let nY := 64 * tiles hd.w hd.h
  let nC := 64 * tiles cw ch
  let els := ((chunks64 (imageBlocks hd.w hd.h) (seq.map sext32)).map (decodeBlock hd.qt)).flatten
  let yp := untile (els.take nY) hd.w hd.h
  let cbp := untile ((els.drop nY).take nC) cw ch
  let crp := untile (els.drop (nY + nC)) cw ch
  colorInvPlanes yp (upsample cbp hd.w hd.h) (upsample crp hd.w hd.h)

/-- `Body[0x17]` (47_pipeline R276). -/
def bodyDecompress : Body := fun p l m => do
  let hd ← readHeader p l m
  let seq ← huffDec p { mem := m, base := l.src + headerLen, len := l.srclen - headerLen } (ncoef hd.w hd.h)
  pure { out := imageOfCoefficients hd seq, dims := some (hd.width, hd.height) }

/-! ### Commands -/

/-- COMPRESS (47_pipeline R272). -/
def execCompress (s : State) : Host.Outcome State Fault Refusal := runCommand .compress bodyCompress s

/-- DECOMPRESS (47_pipeline R276). -/
def execDecompress (s : State) : Host.Outcome State Fault Refusal := runCommand .decompress bodyDecompress s

end Sys2Proof.Machine
end

