-- ==== Sys2Proof/Machine/System.lean ====
section
/-!
DEFINITION. The system command: NOP (40_command R140, 60_exceptions R301).
-/

namespace Sys2Proof.Machine

/-- `Body[0x00](L) = success, resultLen = 0` (40_command R140). -/
def bodyNop : Body := fun _ _ _ => .ok (Success.bytes [])

/-- NOP (40_command R140). -/
def execNop (s : State) : Host.Outcome State Fault Refusal := runCommand .nop bodyNop s

end Sys2Proof.Machine
end

