-- ==== Sys2Proof/Machine/Dispatch.lean ====
section
/-!
DEFINITION. One arm per command of the opcode map (30_encoding R93), each a direct call of its meaning:
`Exec(L)` and the completion step of that command on the latch (40_command R133, R137).
-/

namespace Sys2Proof.Machine

def exec (i : Instr) (s : State) : Host.Outcome State Fault Refusal :=
  match i with
  | .nop => Sys2Proof.Machine.execNop s
  | .colorFwd => Sys2Proof.Machine.execColorFwd s
  | .subsample => Sys2Proof.Machine.execSubsample s
  | .tile => Sys2Proof.Machine.execTile s
  | .fdct => Sys2Proof.Machine.execFdct s
  | .quant => Sys2Proof.Machine.execQuant s
  | .huffEnc => Sys2Proof.Machine.execHuffEnc s
  | .compress => Sys2Proof.Machine.execCompress s
  | .colorInv => Sys2Proof.Machine.execColorInv s
  | .upsample => Sys2Proof.Machine.execUpsample s
  | .untile => Sys2Proof.Machine.execUntile s
  | .idct => Sys2Proof.Machine.execIdct s
  | .dequant => Sys2Proof.Machine.execDequant s
  | .huffDec => Sys2Proof.Machine.execHuffDec s
  | .decompress => Sys2Proof.Machine.execDecompress s

end Sys2Proof.Machine
end

