-- ==== Sys2Proof/Machine/HostAccess.lean ====
section
/-!
DEFINITION. What the host and the platform can do to the block: register accesses (10_state R20 to R39),
buffer-memory accesses (20_memory R61, R80 to R82), the host's own address map (20_memory R62), and resets.
-/

namespace Sys2Proof.Machine

/-! ### Register space (10_state R20, R38, R39) -/

/-- The registers of 10_state R20. -/
inductive Reg where
  | id | cmd | status | ctrl | irqStatus | width | height | count | srcAddr | srcLen | dstAddr | dstLimit
  | resultLen | memTop | maxPix | maxSym
  | qtable (i : Fin 64)
  | reserved
deriving DecidableEq, Repr

/-- The register at a byte offset that is a multiple of 4 (10_state R20). -/
def regAt (off : Nat) : Reg :=
  match off with
  | 0x000 => .id
  | 0x004 => .cmd
  | 0x008 => .status
  | 0x00C => .ctrl
  | 0x010 => .irqStatus
  | 0x014 => .width
  | 0x018 => .height
  | 0x01C => .count
  | 0x020 => .srcAddr
  | 0x024 => .srcLen
  | 0x028 => .dstAddr
  | 0x02C => .dstLimit
  | 0x030 => .resultLen
  | 0x034 => .memTop
  | 0x038 => .maxPix
  | 0x03C => .maxSym
  | _ => if h : 0x100 ≤ off ∧ off < 0x200 then .qtable ⟨(off - 0x100) / 4, by omega⟩ else .reserved

/-- What a register reads as (10_state R21 to R38). -/
def readReg (s : State) : Reg → Word
  | .id => 0x43434231
  | .cmd => s.cmd
  | .status => s.status.word
  | .ctrl => ctrlWord s.irqEn
  | .irqStatus => irqStatusWord s.donePend
  | .width => s.ops.width
  | .height => s.ops.height
  | .count => s.ops.count
  | .srcAddr => s.ops.srcAddr
  | .srcLen => s.ops.srcLen
  | .dstAddr => s.ops.dstAddr
  | .dstLimit => s.ops.dstLimit
  | .resultLen => s.resultLen
  | .memTop => BitVec.ofNat 32 (s.params.memSize - 1)
  | .maxPix => BitVec.ofNat 32 s.params.maxPixels
  | .maxSym => BitVec.ofNat 32 s.params.maxSymbols
  | .qtable i => s.ops.qtable[i].setWidth 32
  | .reserved => 0

/-- A host write to CMD: accepted while idle, dropped while busy (10_state R22). -/
def writeCmd (v : Word) (s : State) : State := if s.status.busy then dropCommand s else accept v s

/-- A host write to CTRL: bit 1 is the soft reset, which discards the other bits; else bit 0 sets IRQ_EN
(10_state R29, 70_reset R322). -/
def writeCtrl (v : Word) (s : State) : State :=
  if v.getLsbD 1 then resetStep s else { s with irqEn := v.getLsbD 0 }

/-- A host write to an operand register (10_state R31 to R34, R46). -/
def writeOps (f : Operands → Operands) (s : State) : State := { s with ops := f s.ops }

/-- A host write of `v` to a register; writes to read-only and reserved registers are ignored (10_state R21 to R38). -/
def writeReg (r : Reg) (v : Word) (s : State) : State :=
  match r with
  | .cmd => writeCmd v s
  | .status => { s with status := s.status.written v }
  | .ctrl => writeCtrl v s
  | .irqStatus => acknowledge v s
  | .width => writeOps (fun o => { o with width := v }) s
  | .height => writeOps (fun o => { o with height := v }) s
  | .count => writeOps (fun o => { o with count := v }) s
  | .srcAddr => writeOps (fun o => { o with srcAddr := v }) s
  | .srcLen => writeOps (fun o => { o with srcLen := v }) s
  | .dstAddr => writeOps (fun o => { o with dstAddr := v }) s
  | .dstLimit => writeOps (fun o => { o with dstLimit := v }) s
  | .qtable i => writeOps (fun o => { o with qtable := o.qtable.set i (v.setWidth 16) }) s
  | .id => s
  | .resultLen => s
  | .memTop => s
  | .maxPix => s
  | .maxSym => s
  | .reserved => s

/-- The bus's answer to a host access. -/
def answer (d : Word) (s : State) : State := { s with response := { data := d, busError := false } }

/-- A bus error response: no effect on the block, and a read returns 0 (10_state R39, 20_memory R61). -/
def busError (s : State) : State := { s with response := { data := 0, busError := true } }

/-- An access to register space is 32 bits wide at a multiple of 4 below 4096 (10_state R20, R39). -/
def regAccessLegal (off n : Nat) : Bool := decide (n = 4) && (decide (off % 4 = 0) && decide (off < 4096))

/-- The host reads register space (10_state R39). -/
def hostRegRead (off n : Nat) (s : State) : State :=
  if regAccessLegal off n then answer (readReg s (regAt off)) s else busError s

/-- The host writes register space (10_state R39). -/
def hostRegWrite (off n : Nat) (v : Word) (s : State) : State :=
  if regAccessLegal off n then answer 0 (writeReg (regAt off) v s) else busError s

/-! ### Buffer memory (20_memory R61, R80 to R82) -/

/-- An access to buffer memory is 1, 2 or 4 bytes with `a + n ≤ MEM_SIZE` (20_memory R61). -/
def memAccessLegal (p : Params) (a n : Nat) : Bool :=
  (decide (n = 1) || (decide (n = 2) || decide (n = 4))) && decide (a + n ≤ p.memSize)

/-- Address `x` is in the destination window of the command in flight (20_memory R80, R82). -/
def inLiveDst (s : State) (x : Nat) : Bool :=
  match inFlight s with
  | some i => inWindow s.latch.dst (dstLen i s.latch) x
  | none => false

/-- Address `x` is in the source window of the command in flight (20_memory R82). -/
def inLiveSrc (s : State) (x : Nat) : Bool :=
  match inFlight s with
  | some i => inWindow s.latch.src (srcLen i s.latch) x
  | none => false

/-- The byte the host reads at address `x`, `k` being the number of the free byte drawn for it:
a free byte in the destination window of the command in flight (20_memory R80 (d), U4; log 11), the byte last
written, or the unspecified contents since power-on (20_memory R65, U6; log 10). -/
def hostByte (s : State) (k x : Nat) : Byte :=
  if inLiveDst s x then Config.freeByte k
  else (byteAt s.mem x).getD (Config.powerOnByte s.epoch x)

/-- The bytes the host reads at `a .. a+n-1` (20_memory R63). -/
def hostBytes (s : State) (a n : Nat) : List Byte :=
  (List.range n).map fun j => hostByte s (s.draws + j) (a + j)

/-- HostRead(a, n) (20_memory R61). -/
def hostMemRead (a n : Nat) (s : State) : State :=
  if memAccessLegal s.params a n then
    answer (BitVec.ofNat 32 (beValue (hostBytes s a n))) { s with draws := s.draws + n }
  else busError s

/-- A host write that touches a window of the command in flight is a race (20_memory R82). -/
def racesWith (s : State) (a n : Nat) : Bool :=
  (List.range' a n).any fun x => inLiveSrc s x || inLiveDst s x

/-- HostWrite(a, n, v): the low n bytes of v, big-endian (20_memory R61, R63). -/
def hostMemWrite (a n : Nat) (v : Word) (s : State) : Host.Outcome State Fault Refusal :=
  if memAccessLegal s.params a n then
    if racesWith s a n then .fault .hostRace
    else .next (answer 0 { s with mem := storeBytes s.mem a (beBytes n v.toNat) })
  else .next (busError s)

/-! ### The host's own address map (20_memory R62) -/

/-- Where a host address leads. -/
inductive Route where
  | register (off : Nat)
  | buffer (a : Nat)
  /-- Not an address of this block: another device's business. -/
  | elsewhere
deriving DecidableEq, Repr

/-- Register space is 4096 bytes from REG_BASE, buffer address `a` is host address MEM_BASE + a (20_memory R62).
DESIGN CHOICE: where a platform lets the two meet, register space answers, and every other address from MEM_BASE up is
taken for buffer memory, also past the last 32-bit buffer address of 20_memory R60, where the bus error of R61 answers;
only an address below MEM_BASE and outside register space is another device's (log 26). -/
def route (p : Params) (addr : Nat) : Route :=
  if p.regBase ≤ addr ∧ addr < p.regBase + 4096 then .register (addr - p.regBase)
  else if p.memBase ≤ addr then .buffer (addr - p.memBase)
  else .elsewhere

/-- The host reads at an address of its own map (20_memory R62). -/
def hostBusRead (addr n : Nat) (s : State) : State :=
  match route s.params addr with
  | .register off => hostRegRead off n s
  | .buffer a => hostMemRead a n s
  | .elsewhere => s

/-- The host writes at an address of its own map (20_memory R62). -/
def hostBusWrite (addr n : Nat) (v : Word) (s : State) : Host.Outcome State Fault Refusal :=
  match route s.params addr with
  | .register off => .next (hostRegWrite off n v s)
  | .buffer a => hostMemWrite a n v s
  | .elsewhere => .next s

/-! ### One event of the host or the platform (60_exceptions R299) -/

/-- Every event but the engine's completion, which is `step`'s to run. -/
def hostEvent (e : Event) (s : State) : Host.Outcome State Fault Refusal :=
  match e with
  | .regWrite off n v => .next (hostRegWrite off n v s)
  | .regRead off n => .next (hostRegRead off n s)
  | .memWrite a n v => hostMemWrite a n v s
  | .memRead a n => .next (hostMemRead a n s)
  | .busWrite addr n v => hostBusWrite addr n v s
  | .busRead addr n => .next (hostBusRead addr n s)
  | .complete => .next s
  | .hardReset => .next (resetStep s)
  | .powerOn => .next (powerOnReset s)

end Sys2Proof.Machine
end

