-- ==== Sys2Proof/Machine/Step.lean ====
section
/-!
DEFINITION. One step of the machine: the next event of `State.inputs`, or, when none is left, the engine's
completion of the command in flight (60_exceptions R299, 70_reset R334; log 1).
The block fetches no instructions (20_memory R85): the command a completion runs is the word in the latch.
-/

namespace Sys2Proof.Machine

/-- The engine's one step (70_reset R334): the latched word is decoded and its command runs and completes; an illegal
word completes with ILLEGAL_CMD (60_exceptions R293). -/
def complete (s : State) : Host.Outcome State Fault Refusal :=
  match decode s.latch.word.toWord with
  | .ok i => exec i s
  | .error _ => execIllegal s

/-- The engine's turn: enabled while BUSY = 1 (40_command R138); an idle engine does nothing (60_exceptions R308). -/
def engineTurn (s : State) : Host.Outcome State Fault Refusal :=
  if s.status.busy then complete s else .next s

/-- One event (60_exceptions R299). -/
def runEvent (e : Event) (s : State) : Host.Outcome State Fault Refusal :=
  match e with
  | .complete => engineTurn s
  | e => hostEvent e s

/-- One step of the machine. -/
def step (s : State) : Host.Outcome State Fault Refusal :=
  match s.inputs with
  | [] => engineTurn s
  | e :: rest => runEvent e { s with inputs := rest }

/-- The acceptance of the word in the low `nbits` bits of `w`, the engine's completion coming next:
the latch is where `step` finds the command it runs (log 2). -/
def State.withFetchWord (s : State) (nbits w : Nat) : State :=
  { accept (BitVec.ofNat 32 (w % 2 ^ nbits)) s with inputs := .complete :: s.inputs }

end Sys2Proof.Machine
end

