-- ==== Sys2Proof/Machine/HostProgram.lean ====
section
/-!
DEFINITION. Host programs as lists of events: the notation of 30_encoding R96, the safe command sequence of
70_reset R328 and the boot sequence of 70_reset R326.
-/

namespace Sys2Proof.Machine

/-- The byte offset of a register (10_state R20); a reserved offset stands for `.reserved`. -/
def Reg.offset : Reg → Nat
  | .id => 0x000
  | .cmd => 0x004
  | .status => 0x008
  | .ctrl => 0x00C
  | .irqStatus => 0x010
  | .width => 0x014
  | .height => 0x018
  | .count => 0x01C
  | .srcAddr => 0x020
  | .srcLen => 0x024
  | .dstAddr => 0x028
  | .dstLimit => 0x02C
  | .resultLen => 0x030
  | .memTop => 0x034
  | .maxPix => 0x038
  | .maxSym => 0x03C
  | .qtable i => 0x100 + 4 * i.val
  | .reserved => 0x040

/-- `wr REG, v` (30_encoding R96). -/
def wr (r : Reg) (v : Word) : List Event := [.regWrite r.offset 4 v]

/-- `rd REG` (30_encoding R96). -/
def rd (r : Reg) : List Event := [.regRead r.offset 4]

/-- `mw.b a, b0 b1 ...` (30_encoding R96). -/
def mwb (a : Nat) (bs : List Byte) : List Event :=
  bs.zipIdx.map fun p => .memWrite (a + p.2) 1 (p.1.setWidth 32)

/-- `mw.w a, v0 v1 ...` (30_encoding R96). -/
def mww (a : Nat) (vs : List Word) : List Event := vs.zipIdx.map fun p => .memWrite (a + 4 * p.2) 4 p.1

/-- `mr a, n` (30_encoding R96), byte by byte. -/
def mr (a n : Nat) : List Event := (List.range n).map fun j => .memRead (a + j) 1

/-- `cmd MNEMONIC` (30_encoding R96). -/
def cmd (i : Instr) : List Event := wr .cmd (encode i)

/-- `wait` (30_encoding R96), in a schedule whose completion comes after `polls` reads of STATUS that saw BUSY = 1. -/
def waitAfter (polls : Nat) : List Event := (List.replicate polls (rd .status)).flatten ++ (.complete :: rd .status)

/-- `wr QTABLE[i], v i` for i = 0..63 (30_encoding R96, 70_reset R326 step 2). -/
def loadTable (v : Fin 64 → Word) : List Event := (List.finRange 64).flatMap fun i => wr (.qtable i) (v i)

/-- `qt v` (30_encoding R96). -/
def qt (v : Word) : List Event := loadTable fun _ => v

/-- Steps 2 and 4 to 6 of the safe sequence: operand writes, the CMD write, the wait, the reads (70_reset R328). -/
def issue (operands : List Event) (i : Instr) (polls : Nat) : List Event :=
  operands ++ (cmd i ++ (waitAfter polls ++ (rd .status ++ rd .resultLen)))

/-- The boot sequence, for a host that takes the interrupt if `irq` and whose canonical table is `qtCanon`, which the spec
leaves OPEN and has a model take as an argument; its range is `Config.qtCanonLegal` (70_reset R326).
DESIGN CHOICE: it makes the four reads the rule allows, and a host that polls writes CTRL = 0 (log 21). -/
def boot (irq : Bool) (qtCanon : Vector Half 64) : List Event :=
  rd .id ++ (rd .memTop ++ (rd .maxPix ++ (rd .maxSym ++
    (loadTable (fun i => qtCanon[i].setWidth 32) ++
      (wr .ctrl (if irq then 1 else 0) ++ (wr .status 8 ++ wr .irqStatus 1))))))

end Sys2Proof.Machine
end

