-- ==== Sys2Proof/Safety.lean ====
section
/-!
DEFINITION. What counts as a safe state and a safe run, in the terms the statements use.
-/

namespace Sys2Proof.Machine

/-- A step of a program that conforms: neither of the spec's two model faults (93_implementation_defined U1, U2). -/
def SafeStep (s : State) : Prop := ∀ f, step s ≠ .fault f

/-- Every byte of the window of `n` bytes at `a` holds a value (20_memory R65). -/
def Written (m : Memory) (a n : Nat) : Prop := ∀ j, j < n → (byteAt m (a + j)).isSome

/-- Memory lists no address past MEM_SIZE (20_memory R60). -/
def MemoryInRange (s : State) : Prop := ∀ c ∈ s.mem, c.1 < s.params.memSize

/-- `MemRead(a, 4)` as a 32-bit value, if all four bytes hold a value (20_memory R63). -/
def wordAt (m : Memory) (a : Nat) : Option Word :=
  match byteAt m a, byteAt m (a + 1), byteAt m (a + 2), byteAt m (a + 3) with
  | some b0, some b1, some b2, some b3 => some (BitVec.ofNat 32 (beValue [b0, b1, b2, b3]))
  | _, _, _, _ => none

/-- The bytes from address `a` are `bs`. -/
def BytesAt (m : Memory) (a : Nat) (bs : List Byte) : Prop := ∀ j b, bs[j]? = some b → byteAt m (a + j) = some b

/-- Bit `k` of the section that starts at address `a` is `b`: bit `7 - (k mod 8)` of the byte at `a + (k div 8)`
(30_encoding R118). -/
def BitAt (m : Memory) (a k : Nat) (b : Bool) : Prop :=
  ∃ x, byteAt m (a + k / 8) = some x ∧ x.getLsbD (7 - k % 8) = b

/-! ### The pipeline in terms of the stage functions, sample by sample (47_pipeline R271, R274, R279) -/

/-- The tiles of the `w` by `h` plane of samples `smp x y`, in tile order, 0 past the plane (43_tiler R186). -/
def planeTiles (smp : Nat → Nat → Byte) (w h : Nat) : List Block :=
  (List.range (ceil8 w * ceil8 h)).map fun k => (List.range 64).map fun e =>
    let x := 8 * (k % ceil8 w) + e % 8
    let y := 8 * (k / ceil8 w) + e / 8
    if x < w ∧ y < h then ((smp x y).toNat : Int) else 0

/-- The coefficient sequence of the `w` by `h` Image with bytes `img`: all Y tiles, then all Cb tiles, then all Cr tiles,
the chroma samples those at even coordinates, every tile transformed and every coefficient divided by its own table entry
(47_pipeline R271, 30_encoding R120). -/
def compressSequence (img : Nat → Byte) (w h : Nat) (qt : List Nat) : List Word :=
  let px (x y : Nat) := colorFwdPx (img (3 * (y * w + x))) (img (3 * (y * w + x) + 1)) (img (3 * (y * w + x) + 2))
  (planeTiles (fun x y => (px x y).1) w h ++
    (planeTiles (fun i j => (px (2 * i) (2 * j)).2.1) (w / 2) (h / 2) ++
     planeTiles (fun i j => (px (2 * i) (2 * j)).2.2) (w / 2) (h / 2))).flatMap fun f =>
      (List.range 64).map fun e => BitVec.ofInt 32 (divRoundHA ((fdct f).getD e 0) (qt.getD e 0))

/-- Element `e` of decoded block `k`: the coefficients of the block multiplied by their table entries, saturated, and
inverse transformed (47_pipeline R274). -/
def decodedElement (seq : List Word) (qt : List Nat) (k e : Nat) : Int :=
  (idct ((List.range 64).map fun n =>
    min 2147483647 (max (-2147483648) ((seq.getD (64 * k + n) 0).toInt * (qt.getD n 0 : Int))))).getD e 0

/-- Sample `(x, y)` of the plane of width `w` whose blocks start at block `k` (43_tiler R188). -/
def decodedSample (seq : List Word) (qt : List Nat) (k w x y : Nat) : Byte :=
  BitVec.ofInt 8 (min 255 (max 0 (decodedElement seq qt (k + (y / 8 * ceil8 w + x / 8)) (8 * (y % 8) + x % 8))))

/-- Sample `(x, y)` of the full plane of the chroma plane whose blocks start at block `k` (42_subsample R174). -/
def decodedChroma (seq : List Word) (qt : List Nat) (k w h x y : Nat) : Byte :=
  if w / 2 = 0 ∨ h / 2 = 0 then 128
  else decodedSample seq qt k (w / 2) (min (x / 2) (w / 2 - 1)) (min (y / 2) (h / 2 - 1))

/-- Pixel `(x, y)` of the decoded `w` by `h` Image: Y from the first tiles(w, h) blocks, Cb from the next
tiles(cW, cH) blocks, Cr from the last (47_pipeline R274). -/
def decodedPixel (seq : List Word) (qt : List Nat) (w h x y : Nat) : Byte × Byte × Byte :=
  colorInvPx (decodedSample seq qt 0 w x y) (decodedChroma seq qt (tiles w h) w h x y)
    (decodedChroma seq qt (tiles w h + tiles (w / 2) (h / 2)) w h x y)

/-! ### Start checks and completion -/

/-- Every check of StartChecks passes, in the words of 60_exceptions R293. -/
structure StartChecksPass (p : Params) (i : Instr) (l : Latch) : Prop where
  dimensions : isDimensioned i = true → l.w ≠ 0 ∧ l.h ≠ 0
  pixels : isDimensioned i = true → l.w * l.h ≤ p.maxPixels
  table : usesTable i = true → ∀ t ∈ l.qt, t ≠ 0
  sourceRange : srcLen i l = 0 ∨ l.src + srcLen i l ≤ p.memSize
  destRange : dstLen i l = 0 ∨ l.dst + dstLen i l ≤ p.memSize
  noOverlap : srcLen i l = 0 ∨ dstLen i l = 0 ∨ l.dst + dstLen i l ≤ l.src ∨ l.src + srcLen i l ≤ l.dst ∨
    (mayRunInPlace i = true ∧ l.src = l.dst)

/-- `t` is `s` after a command that succeeded and wrote `n` bytes from L.DST: the completion fields of 40_command R137,
and nothing else changed but the operand registers, about which this says nothing, and those `n` bytes. -/
structure SucceededFrom (s t : State) (n : Nat) : Prop where
  status : t.status = { busy := false, done := true, error := false, overrun := s.status.overrun, errcode := 0 }
  donePend : t.donePend = true
  resultLen : n < 2 ^ 32 → t.resultLen = BitVec.ofNat 32 n
  cmd : t.cmd = s.cmd
  irqEn : t.irqEn = s.irqEn
  latch : t.latch = s.latch
  params : t.params = s.params
  response : t.response = s.response
  inputs : t.inputs = s.inputs
  draws : t.draws = s.draws
  epoch : t.epoch = s.epoch
  outside : ∀ a, a < s.latch.dst ∨ s.latch.dst + n ≤ a → byteAt t.mem a = byteAt s.mem a

/-- `t` is `s` after a command that ended with error `e`: the completion fields of 40_command R137, and nothing else
changed but memory and the free bytes drawn for it, about which this says nothing. -/
structure FailedFrom (s t : State) (e : Err) : Prop where
  status : t.status = { busy := false, done := true, error := true, overrun := s.status.overrun, errcode := e.code }
  donePend : t.donePend = true
  resultLen : t.resultLen = 0
  cmd : t.cmd = s.cmd
  irqEn : t.irqEn = s.irqEn
  ops : t.ops = s.ops
  latch : t.latch = s.latch
  params : t.params = s.params
  response : t.response = s.response
  inputs : t.inputs = s.inputs
  epoch : t.epoch = s.epoch

/-- The completion fields agree with each other (10_state R24 to R28, R35, 70_reset R331):
BUSY and DONE never hold together, ERROR says that ERRCODE is not 0, only a completed command has an error or a result
length, a failed one has no result length, ERRCODE is a code a block may report (60_exceptions R290), and while BUSY = 1
the latch holds the word CMD reads. -/
structure StatusConsistent (s : State) : Prop where
  busyNotDone : s.status.busy = true → s.status.done = false
  errorIffCode : s.status.error = true ↔ s.status.errcode ≠ 0
  notDoneNoError : s.status.done = false → s.status.error = false
  notDoneNoLength : s.status.done = false → s.resultLen = 0
  errorNoLength : s.status.error = true → s.resultLen = 0
  legalCode : s.status.errcode.toNat ≤ 0x0A
  busyLatch : s.status.busy = true → s.latch.word = CmdWord.ofWord s.cmd

end Sys2Proof.Machine
end

