-- ==== Sys2Proof/Certificates/Slice0/Obligations.lean ====
section
/-!
DEFINITION. The statements for the provers. They come from the numbered rules of spec/; a statement about all states is
a statement about every choice of the OPEN parameters, which the state carries.
-/

open Sys2Proof Sys2Proof.Machine

/-! ### Command words (30_encoding) -/

/-- The opcode map of R93, both ways: a word is decoded to a command exactly when it is that command's row. -/
def Obligations.OpcodeMapSelectsByWholeWord : Prop :=
  ∀ (w : Word) (i : Instr), decode w = .ok i ↔
    (w, i) ∈ [ (0x00000000, Instr.nop), (0x00000001, Instr.colorFwd), (0x00000002, Instr.subsample),
      (0x00000003, Instr.tile), (0x00000004, Instr.fdct), (0x00000005, Instr.quant), (0x00000006, Instr.huffEnc),
      (0x00000007, Instr.compress), (0x00000011, Instr.colorInv), (0x00000012, Instr.upsample),
      (0x00000013, Instr.untile), (0x00000014, Instr.idct), (0x00000015, Instr.dequant), (0x00000016, Instr.huffDec),
      (0x00000017, Instr.decompress) ]

/-- Decode and encode agree on all commands and on all words. -/
def Obligations.DecodeEncodeAgree : Prop :=
  (∀ i : Instr, i.wellFormed = true → decode (encode i) = .ok i) ∧
  (∀ (w : Word) (i : Instr), decode w = .ok i → w = encode i)

/-- Every other word is rejected, and by the name of what is wrong with it (R95); the names are the model's. -/
def Obligations.OtherWordsAreRejectedByName : Prop :=
  ∀ w : Word,
    (w.extractLsb' 8 24 ≠ 0 → decode w = .error .reservedNotZero) ∧
    (w.extractLsb' 8 24 = 0 →
      (0x08 ≤ (w.extractLsb' 0 8).toNat ∧ (w.extractLsb' 0 8).toNat ≤ 0x10) ∨ 0x18 ≤ (w.extractLsb' 0 8).toNat →
      decode w = .error .opcodeUnassigned)

/-- Words written out from R93 decode to their commands (a sanity statement). -/
def Obligations.SampleWordsDecode : Prop :=
  decodeTableWord 32 0x00000000 = some .nop ∧ decodeTableWord 32 0x00000007 = some .compress ∧
  decodeTableWord 32 0x00000016 = some .huffDec ∧ decodeTableWord 32 0x00000010 = none ∧
  decodeTableWord 32 0x00000100 = none

/-! ### Lifecycle (40_command) -/

/-- A step of a busy block whose latched word names a command runs that command, when the engine moves next. -/
def Obligations.StepRunsTheLatchedCommand : Prop :=
  ∀ (s : State) (i : Instr), s.status.busy = true → decode s.latch.word.toWord = .ok i →
    (s.inputs = [] → step s = exec i s) ∧
    (∀ rest, s.inputs = .complete :: rest → step s = exec i { s with inputs := rest })

/-- Acceptance (R131). -/
def Obligations.CmdWriteWhileIdleIsAccepted : Prop :=
  ∀ (s : State) (v : Word) (rest : List Event), s.inputs = .regWrite 0x004 4 v :: rest → s.status.busy = false →
    ∃ t, step s = .next t ∧ t.cmd = v ∧
      t.latch = { word := { rsvd := v.extractLsb' 8 24, opcode := v.extractLsb' 0 8 }, ops := s.ops } ∧
      t.status = { busy := true, done := false, error := false, overrun := s.status.overrun, errcode := 0 } ∧
      t.resultLen = 0 ∧ t.donePend = s.donePend ∧ t.irqEn = s.irqEn ∧ t.ops = s.ops ∧ t.mem = s.mem ∧
      t.params = s.params ∧ t.draws = s.draws ∧ t.epoch = s.epoch ∧ t.inputs = rest

/-- A CMD write while BUSY = 1 (R132). The host's bus sees an ordinary write. -/
def Obligations.CmdWriteWhileBusyIsDropped : Prop :=
  ∀ (s : State) (v : Word) (rest : List Event), s.inputs = .regWrite 0x004 4 v :: rest → s.status.busy = true →
    step s = .next { s with inputs := rest, response := { data := 0, busError := false },
                            status := { s.status with overrun := true } }

/-- An illegal word (R95) completes with ILLEGAL_CMD, code 0x01, and changes only the completion fields. -/
def Obligations.IllegalWordCompletesWithIllegalCmd : Prop :=
  ∀ s : State, s.status.busy = true → s.inputs = [] →
    s.latch.word.rsvd ≠ 0 ∨ (0x08 ≤ s.latch.word.opcode.toNat ∧ s.latch.word.opcode.toNat ≤ 0x10) ∨
      0x18 ≤ s.latch.word.opcode.toNat →
    step s = .next { s with resultLen := 0, donePend := true,
                            status := { busy := false, done := true, error := true, overrun := s.status.overrun,
                                        errcode := 0x01 } }

/-- Every command writes BUSY, DONE, ERROR, ERRCODE and DONE_PEND in the same way (R45, R137). -/
def Obligations.EveryCommandWritesCompletionFields : Prop :=
  ∀ (i : Instr) (s t : State), exec i s = .next t →
    t.status.busy = false ∧ t.status.done = true ∧ t.donePend = true ∧ t.status.overrun = s.status.overrun ∧
    ((t.status.error = false ∧ t.status.errcode = 0) ∨
     (t.status.error = true ∧ t.status.errcode ≠ 0 ∧ t.resultLen = 0))

/-- The frame of every command over the registers: only WIDTH and HEIGHT of a successful DECOMPRESS change beside the
completion fields (R137, R139, R281). -/
def Obligations.CommandsLeaveOtherRegistersUnchanged : Prop :=
  ∀ (i : Instr) (s t : State), exec i s = .next t →
    t.cmd = s.cmd ∧ t.irqEn = s.irqEn ∧ t.latch = s.latch ∧ t.params = s.params ∧ t.response = s.response ∧
    t.inputs = s.inputs ∧ t.epoch = s.epoch ∧
    t.ops.count = s.ops.count ∧ t.ops.srcAddr = s.ops.srcAddr ∧ t.ops.srcLen = s.ops.srcLen ∧
    t.ops.dstAddr = s.ops.dstAddr ∧ t.ops.dstLimit = s.ops.dstLimit ∧ t.ops.qtable = s.ops.qtable ∧
    (i ≠ .decompress ∨ t.status.error = true → t.ops = s.ops)

/-- The frame of every command over memory: the engine writes only the destination window (R64, R134). -/
def Obligations.EngineWritesOnlyTheDestinationWindow : Prop :=
  ∀ (i : Instr) (s t : State), exec i s = .next t →
    ∀ a, a < s.latch.dst ∨ s.latch.dst + dstLen i s.latch ≤ a → byteAt t.mem a = byteAt s.mem a

/-- The destination window after a failed command (R296): memory is unchanged after a start-check error, ILLEGAL_CMD
among them, and after the body error CAPACITY of an encoder; after a body error of a decoder every byte of the window is
a free byte, which the model draws and stores (its choice, logs 9 and 12), and no other byte changes; no other command has
a body error. -/
def Obligations.DestinationAfterFailure : Prop :=
  (∀ s t : State, s.status.busy = true → s.inputs = [] → (∀ i, decode s.latch.word.toWord ≠ .ok i) →
    step s = .next t → t.status.errcode = 0x01 ∧ t.mem = s.mem) ∧
  (∀ (i : Instr) (s t : State), exec i s = .next t → t.status.error = true →
    (¬ StartChecksPass s.params i s.latch → t.mem = s.mem) ∧
    (StartChecksPass s.params i s.latch →
      ((i = .huffEnc ∨ i = .compress) ∧ t.status.errcode = 0x06 ∧ t.mem = s.mem) ∨
      ((i = .huffDec ∨ i = .decompress) ∧
        ∀ x, byteAt t.mem x =
          if s.latch.dst ≤ x ∧ x < s.latch.dst + dstLen i s.latch
          then some (Config.freeByte (s.draws + (x - s.latch.dst))) else byteAt s.mem x)))

/-! ### Start checks (60_exceptions R292, R293) -/

/-- StartChecks reports the first failing check, in the order of R293, and no memory access decides it. -/
def Obligations.FirstFailingStartCheckIsReported : Prop :=
  ∀ (i : Instr) (s : State) (p : Params) (l : Latch), p = s.params → l = s.latch →
    let dimBad := isDimensioned i = true ∧ (l.w = 0 ∨ l.h = 0)
    let tooMany := isDimensioned i = true ∧ p.maxPixels < l.w * l.h
    let tableBad := usesTable i = true ∧ (0 : Nat) ∈ l.qt
    let rangeBad := (0 < srcLen i l ∧ p.memSize < l.src + srcLen i l) ∨ (0 < dstLen i l ∧ p.memSize < l.dst + dstLen i l)
    let overlapBad := 0 < srcLen i l ∧ 0 < dstLen i l ∧ l.src < l.dst + dstLen i l ∧ l.dst < l.src + srcLen i l ∧
      ¬ (mayRunInPlace i = true ∧ l.src = l.dst)
    let ends (e : Err) := ∃ t, exec i s = .next t ∧ FailedFrom s t e ∧ t.mem = s.mem ∧ t.draws = s.draws
    (dimBad → ends .badDimension) ∧
    (¬ dimBad → tooMany → ends .capacity) ∧
    (¬ dimBad → ¬ tooMany → tableBad → ends .qtableZero) ∧
    (¬ dimBad → ¬ tooMany → ¬ tableBad → rangeBad → ends .addressRange) ∧
    (¬ dimBad → ¬ tooMany → ¬ tableBad → ¬ rangeBad → overlapBad → ends .overlap)

/-! ### What each command computes -/

/-- NOP completes from every state and changes the completion fields alone (R140). -/
def Obligations.NopSucceedsFromEveryState : Prop :=
  ∀ s : State, exec .nop s = .next
    { s with resultLen := 0, donePend := true,
             status := { busy := false, done := true, error := false, overrun := s.status.overrun, errcode := 0 } }

/-- COLOR_FWD writes the planar triple of the Image, pixel by pixel (R151, R152). -/
def Obligations.ColorFwdWritesPlanarTriple : Prop :=
  ∀ (s : State) (img : Nat → Byte), StartChecksPass s.params .colorFwd s.latch →
    (∀ j, j < 3 * (s.latch.w * s.latch.h) → byteAt s.mem (s.latch.src + j) = some (img j)) →
    ∃ t, exec .colorFwd s = .next t ∧ SucceededFrom s t (3 * (s.latch.w * s.latch.h)) ∧ t.ops = s.ops ∧
      ∀ p, p < s.latch.w * s.latch.h →
        let c := colorFwdPx (img (3 * p)) (img (3 * p + 1)) (img (3 * p + 2))
        byteAt t.mem (s.latch.dst + p) = some c.1 ∧
        byteAt t.mem (s.latch.dst + (s.latch.w * s.latch.h + p)) = some c.2.1 ∧
        byteAt t.mem (s.latch.dst + (2 * (s.latch.w * s.latch.h) + p)) = some c.2.2

/-- COLOR_INV writes the Image of the planar triple, pixel by pixel (R153, R154). -/
def Obligations.ColorInvWritesImage : Prop :=
  ∀ (s : State) (y cb cr : Nat → Byte), StartChecksPass s.params .colorInv s.latch →
    (∀ p, p < s.latch.w * s.latch.h →
      byteAt s.mem (s.latch.src + p) = some (y p) ∧
      byteAt s.mem (s.latch.src + (s.latch.w * s.latch.h + p)) = some (cb p) ∧
      byteAt s.mem (s.latch.src + (2 * (s.latch.w * s.latch.h) + p)) = some (cr p)) →
    ∃ t, exec .colorInv s = .next t ∧ SucceededFrom s t (3 * (s.latch.w * s.latch.h)) ∧ t.ops = s.ops ∧
      ∀ p, p < s.latch.w * s.latch.h →
        let c := colorInvPx (y p) (cb p) (cr p)
        byteAt t.mem (s.latch.dst + 3 * p) = some c.1 ∧
        byteAt t.mem (s.latch.dst + (3 * p + 1)) = some c.2.1 ∧
        byteAt t.mem (s.latch.dst + (3 * p + 2)) = some c.2.2

/-- SUBSAMPLE copies the samples at even coordinates, and needs only those to hold a value (R172, R173). -/
def Obligations.SubsampleCopiesEvenSamples : Prop :=
  ∀ (s : State) (smp : Nat → Nat → Byte), StartChecksPass s.params .subsample s.latch →
    (∀ i j, i < s.latch.w / 2 → j < s.latch.h / 2 →
      byteAt s.mem (s.latch.src + (2 * j * s.latch.w + 2 * i)) = some (smp i j)) →
    ∃ t, exec .subsample s = .next t ∧ SucceededFrom s t ((s.latch.w / 2) * (s.latch.h / 2)) ∧ t.ops = s.ops ∧
      ∀ i j, i < s.latch.w / 2 → j < s.latch.h / 2 →
        byteAt t.mem (s.latch.dst + (j * (s.latch.w / 2) + i)) = some (smp i j)

/-- UPSAMPLE replicates the nearest sample, and fills the plane with 128 where there is none (R174, R175). -/
def Obligations.UpsampleReplicatesNearestSample : Prop :=
  ∀ (s : State) (smp : Nat → Nat → Byte), StartChecksPass s.params .upsample s.latch →
    (∀ i j, i < s.latch.w / 2 → j < s.latch.h / 2 →
      byteAt s.mem (s.latch.src + (j * (s.latch.w / 2) + i)) = some (smp i j)) →
    ∃ t, exec .upsample s = .next t ∧ SucceededFrom s t (s.latch.w * s.latch.h) ∧ t.ops = s.ops ∧
      ∀ x y, x < s.latch.w → y < s.latch.h →
        byteAt t.mem (s.latch.dst + (y * s.latch.w + x)) =
          some (if s.latch.w / 2 = 0 ∨ s.latch.h / 2 = 0 then 128
                else smp (min (x / 2) (s.latch.w / 2 - 1)) (min (y / 2) (s.latch.h / 2 - 1)))

/-- TILE writes each tile's samples zero-extended to i32, and 0 in every cell past the plane (R186, R187). -/
def Obligations.TileWritesZeroPaddedBlocks : Prop :=
  ∀ (s : State) (smp : Nat → Nat → Byte), StartChecksPass s.params .tile s.latch →
    (∀ x y, x < s.latch.w → y < s.latch.h →
      byteAt s.mem (s.latch.src + (y * s.latch.w + x)) = some (smp x y)) →
    ∃ t, exec .tile s = .next t ∧ SucceededFrom s t (256 * tiles s.latch.w s.latch.h) ∧ t.ops = s.ops ∧
      ∀ tx ty r c, tx < ceil8 s.latch.w → ty < ceil8 s.latch.h → r < 8 → c < 8 →
        wordAt t.mem (s.latch.dst + (256 * (ty * ceil8 s.latch.w + tx) + 4 * (8 * r + c))) =
          some (if 8 * tx + c < s.latch.w ∧ 8 * ty + r < s.latch.h
                then (smp (8 * tx + c) (8 * ty + r)).setWidth 32 else 0)

/-- UNTILE clamps the element of each sample to 0..255, and needs only those elements to hold a value (R188, R189). -/
def Obligations.UntileClampsElements : Prop :=
  ∀ (s : State) (el : Nat → Nat → Word), StartChecksPass s.params .untile s.latch →
    (∀ x y, x < s.latch.w → y < s.latch.h →
      wordAt s.mem (s.latch.src +
        (256 * (y / 8 * ceil8 s.latch.w + x / 8) + 4 * (8 * (y % 8) + x % 8))) = some (el x y)) →
    ∃ t, exec .untile s = .next t ∧ SucceededFrom s t (s.latch.w * s.latch.h) ∧ t.ops = s.ops ∧
      ∀ x y, x < s.latch.w → y < s.latch.h →
        byteAt t.mem (s.latch.dst + (y * s.latch.w + x)) =
          some (BitVec.ofInt 8 (min 255 (max 0 (el x y).toInt)))

/-- FDCT and IDCT transform every block of the source by itself, also in place (R203 to R206). -/
def Obligations.TransformsActBlockByBlock : Prop :=
  ∀ (s : State) (el : Nat → Nat → Word) (i : Instr) (f : Block → Block),
    (i = .fdct ∧ f = fdct) ∨ (i = .idct ∧ f = idct) → StartChecksPass s.params i s.latch →
    (∀ k e, k < s.latch.count → e < 64 → wordAt s.mem (s.latch.src + (256 * k + 4 * e)) = some (el k e)) →
    ∃ t, exec i s = .next t ∧ SucceededFrom s t (256 * s.latch.count) ∧ t.ops = s.ops ∧
      ∀ k e, k < s.latch.count → e < 64 →
        wordAt t.mem (s.latch.dst + (256 * k + 4 * e)) =
          some (BitVec.ofInt 32 ((f ((List.range 64).map fun n => (el k n).toInt)).getD e 0))

/-- QUANT divides and DEQUANT multiplies every element by the latched table entry of its index (R221 to R224). -/
def Obligations.QuantizersUseLatchedTable : Prop :=
  ∀ (s : State) (el : Nat → Nat → Word) (i : Instr) (f : Int → Nat → Int),
    (i = .quant ∧ f = fun (b : Int) (t : Nat) => divRoundHA b t) ∨
      (i = .dequant ∧ f = fun (b : Int) (t : Nat) => min 2147483647 (max (-2147483648) (b * (t : Int)))) →
    StartChecksPass s.params i s.latch →
    (∀ k e, k < s.latch.count → e < 64 → wordAt s.mem (s.latch.src + (256 * k + 4 * e)) = some (el k e)) →
    ∃ t, exec i s = .next t ∧ SucceededFrom s t (256 * s.latch.count) ∧ t.ops = s.ops ∧
      ∀ (k : Nat) (e : Fin 64), k < s.latch.count →
        wordAt t.mem (s.latch.dst + (256 * k + 4 * e.val)) =
          some (BitVec.ofInt 32 (f (el k e).toInt (s.latch.ops.qtable[e].toNat)))

/-- HUFF_ENC writes the encoding of its values when it fits, and reports CAPACITY with memory unchanged when the values
are too many or the output too long (R243, R245, R246, R250). -/
def Obligations.HuffEncWritesEncodingOrReportsCapacity : Prop :=
  ∀ (s : State) (v : Nat → Word) (out : List Byte), StartChecksPass s.params .huffEnc s.latch →
    (∀ j, j < s.latch.count → wordAt s.mem (s.latch.src + 4 * j) = some (v j)) →
    let vals := (List.range s.latch.count).map v
    huffEnc vals = some out →
    (vals.dedup.length ≤ s.params.maxSymbols → out.length ≤ s.latch.dstlim →
      ∃ t, exec .huffEnc s = .next t ∧ SucceededFrom s t out.length ∧ t.ops = s.ops ∧ BytesAt t.mem s.latch.dst out) ∧
    (s.params.maxSymbols < vals.dedup.length ∨ s.latch.dstlim < out.length →
      ∃ t, exec .huffEnc s = .next t ∧ FailedFrom s t .capacity ∧ t.mem = s.mem)

/-- HUFF_DEC gives back what HUFF_ENC encoded: the round trip of R261 as the machine runs it. The input may be longer
than the encoding. -/
def Obligations.HuffDecInvertsHuffEnc : Prop :=
  ∀ (s : State) (vals : List Word) (out : List Byte), StartChecksPass s.params .huffDec s.latch →
    vals.length = s.latch.count → vals.dedup.length ≤ s.params.maxSymbols → huffEnc vals = some out →
    out.length ≤ s.latch.srclen → BytesAt s.mem s.latch.src out →
    ∃ t, exec .huffDec s = .next t ∧ SucceededFrom s t (4 * s.latch.count) ∧ t.ops = s.ops ∧
      ∀ j w, vals[j]? = some w → wordAt t.mem (s.latch.dst + 4 * j) = some w

/-- COMPRESS writes the 138-byte header and the encoding of the Image's coefficient sequence when they fit, and reports
CAPACITY with memory unchanged when its values are too many or the container too long. The sequence is given by the stage
functions, plane by plane, block by block, element by element (R111, R120, R271, R272, R279). -/
def Obligations.CompressWritesContainer : Prop :=
  ∀ (s : State) (img : Nat → Byte) (body : List Byte), StartChecksPass s.params .compress s.latch →
    (∀ j, j < 3 * (s.latch.w * s.latch.h) → byteAt s.mem (s.latch.src + j) = some (img j)) →
    let seq := compressSequence img s.latch.w s.latch.h s.latch.qt
    let header := beBytes 4 s.latch.w ++ (beBytes 4 s.latch.h ++ ([1, 0] ++ s.latch.qt.flatMap (beBytes 2)))
    huffEnc seq = some body →
    (seq.dedup.length ≤ s.params.maxSymbols → 138 + body.length ≤ s.latch.dstlim →
      ∃ t, exec .compress s = .next t ∧ SucceededFrom s t (138 + body.length) ∧ t.ops = s.ops ∧
        BytesAt t.mem s.latch.dst (header ++ body)) ∧
    (s.params.maxSymbols < seq.dedup.length ∨ s.latch.dstlim < 138 + body.length →
      ∃ t, exec .compress s = .next t ∧ FailedFrom s t .capacity ∧ t.mem = s.mem)

/-- DECOMPRESS of a container whose header is legal and whose body encodes as many coefficients as the header asks for
writes the Image, pixel by pixel as the stage functions give it, and the dimensions (R273, R274, R276, R279, R281). -/
def Obligations.DecompressWritesImageAndDimensions : Prop :=
  ∀ (s : State) (w h : Nat) (qt : List Nat) (seq : List Word) (body : List Byte),
    StartChecksPass s.params .decompress s.latch →
    1 ≤ w → w < 2 ^ 32 → 1 ≤ h → h < 2 ^ 32 → w * h ≤ s.params.maxPixels → 3 * (w * h) ≤ s.latch.dstlim →
    qt.length = 64 → (∀ q ∈ qt, 1 ≤ q ∧ q ≤ 65535) →
    seq.length = 64 * (tiles w h + 2 * tiles (w / 2) (h / 2)) → seq.dedup.length ≤ s.params.maxSymbols →
    huffEnc seq = some body → 138 + body.length ≤ s.latch.srclen →
    BytesAt s.mem s.latch.src
      ((beBytes 4 w ++ (beBytes 4 h ++ ([1, 0] ++ qt.flatMap (beBytes 2)))) ++ body) →
    ∃ t, exec .decompress s = .next t ∧ SucceededFrom s t (3 * (w * h)) ∧
      t.ops = { s.ops with width := BitVec.ofNat 32 w, height := BitVec.ofNat 32 h } ∧
      ∀ x y, x < w → y < h →
        let c := decodedPixel seq qt w h x y
        byteAt t.mem (s.latch.dst + 3 * (y * w + x)) = some c.1 ∧
        byteAt t.mem (s.latch.dst + (3 * (y * w + x) + 1)) = some c.2.1 ∧
        byteAt t.mem (s.latch.dst + (3 * (y * w + x) + 2)) = some c.2.2

/-! ### Decoder errors (46_entropy, 47_pipeline) -/

/-- The header checks of DECOMPRESS in their order (R273). -/
def Obligations.HeaderChecksInOrder : Prop :=
  ∀ s : State, StartChecksPass s.params .decompress s.latch →
    let ends (e : Err) := ∃ t, exec .decompress s = .next t ∧ FailedFrom s t e
    (s.latch.srclen < 138 → ends .formatTruncated) ∧
    ∀ hdr : List Byte, 138 ≤ s.latch.srclen → hdr.length = 138 → BytesAt s.mem s.latch.src hdr →
      let w := beValue (hdr.take 4)
      let h := beValue ((hdr.drop 4).take 4)
      let entry (i : Nat) := beValue ((hdr.drop (10 + 2 * i)).take 2)
      let illegal := hdr.getD 8 0 ≠ 1 ∨ hdr.getD 9 0 ≠ 0 ∨ (∃ i, i < 64 ∧ entry i = 0) ∨ w = 0 ∨ h = 0
      let tooLarge := s.params.maxPixels < w * h ∨ s.latch.dstlim < 3 * (w * h)
      (illegal → ends .formatHeader) ∧ (¬ illegal → tooLarge → ends .capacity)

/-- A tag stream whose first 2·MAX_SYMBOLS - 1 bits are 0 is refused with FORMAT_TREE, whatever bits follow (R252). -/
def Obligations.ZeroTagStreamHitsNodeLimit : Prop :=
  ∀ s : State, StartChecksPass s.params .huffDec s.latch → 1 ≤ s.params.maxSymbols → s.latch.count ≠ 0 →
    2 * s.params.maxSymbols - 1 ≤ 8 * s.latch.srclen →
    (∀ k, k < 2 * s.params.maxSymbols - 1 → BitAt s.mem s.latch.src k false) →
    ∃ t, exec .huffDec s = .next t ∧ FailedFrom s t .formatTree

/-- Under a single-leaf tree a code bit 1 after `n` codes 0, `n` below COUNT, is FORMAT_CODE; the padding between the
33 tree bits and the stream may hold anything (R253, R254). -/
def Obligations.OneBitUnderSingleLeafIsFormatCode : Prop :=
  ∀ (s : State) (v : Word) (n : Nat), StartChecksPass s.params .huffDec s.latch → 1 ≤ s.params.maxSymbols →
    n < s.latch.count → 64 + n < 8 * s.latch.srclen →
    (∀ k, k < 33 → BitAt s.mem s.latch.src k ((true :: bits32 v).getD k false)) →
    (∀ k, k < n → BitAt s.mem s.latch.src (64 + k) false) → BitAt s.mem s.latch.src (64 + n) true →
    ∃ t, exec .huffDec s = .next t ∧ FailedFrom s t .formatCode

/-! ### Progress, and the fault UNINIT_READ (20_memory R65) -/

/-- A command whose source window is written never stops: it completes, with success or with an error, and so does a busy
block left alone, whatever the accepted word (R138, R334). -/
def Obligations.WrittenSourceAlwaysCompletes : Prop :=
  (∀ (i : Instr) (s : State), Written s.mem s.latch.src (srcLen i s.latch) → ∃ t, exec i s = .next t) ∧
  (∀ s : State, s.status.busy = true → s.inputs = [] →
    (∀ i, decode s.latch.word.toWord = .ok i → Written s.mem s.latch.src (srcLen i s.latch)) →
    ∃ t, step s = .next t ∧ t.status.busy = false ∧ t.status.done = true ∧ t.donePend = true)

/-- A command whose body reads every byte of its source window stops with UNINIT_READ when one of them holds no value
(R65). Which bytes a body reads is read off its pseudocode (log 15): these ten read the whole window, UPSAMPLE where it is
not empty, as it is here since a byte of it is unwritten. -/
def Obligations.UnwrittenSourceByteStops : Prop :=
  ∀ (i : Instr) (s : State),
    i ∈ [Instr.colorFwd, .tile, .fdct, .quant, .huffEnc, .compress, .colorInv, .upsample, .idct, .dequant] →
    StartChecksPass s.params i s.latch → ¬ Written s.mem s.latch.src (srcLen i s.latch) →
    exec i s = .fault .uninitRead

/-! ### A command depends on its latch and its source window alone (40_command R133) -/

/-- Two blocks with the same parameters, latch and source bytes give the same result: the same fault, the same error, or
the same output. -/
def Obligations.ResultDependsOnLatchAndSourceAlone : Prop :=
  ∀ (i : Instr) (s s' : State), s'.params = s.params → s'.latch = s.latch →
    (∀ a, s.latch.src ≤ a → a < s.latch.src + srcLen i s.latch → byteAt s'.mem a = byteAt s.mem a) →
    (∀ f, exec i s = .fault f → exec i s' = .fault f) ∧
    (∀ t, exec i s = .next t → ∃ t', exec i s' = .next t' ∧ t'.status.error = t.status.error ∧
      t'.status.errcode = t.status.errcode ∧ t'.resultLen = t.resultLen ∧
      (t.status.error = false → ∀ j, j < dstLen i s.latch → j < t.resultLen.toNat →
        byteAt t'.mem (s.latch.dst + j) = byteAt t.mem (s.latch.dst + j)) ∧
      (i = .decompress → t.status.error = false →
        t'.ops.width = t.ops.width ∧ t'.ops.height = t.ops.height))

/-- A host write to an operand register while BUSY = 1 does not affect the running command; only the completion write of
WIDTH and HEIGHT by DECOMPRESS touches the register (R46). -/
def Obligations.OperandWritesDoNotAffectRunningCommand : Prop :=
  ∀ (i : Instr) (s t : State) (o : Operands), exec i s = .next t →
    ∃ t', exec i { s with ops := o } = .next t' ∧ t'.mem = t.mem ∧ t'.status = t.status ∧
      t'.resultLen = t.resultLen ∧ t'.donePend = t.donePend ∧
      (i ≠ .decompress ∨ t.status.error = true → t'.ops = o) ∧
      (i = .decompress → t.status.error = false →
        t'.ops = { o with width := t.ops.width, height := t.ops.height })

/-- No rule reads the latch of an idle block (R40): a step of a block that differs only in its latch differs only in it. -/
def Obligations.IdleStepDoesNotReadLatch : Prop :=
  ∀ (s : State) (l : Latch), s.status.busy = false →
    ∃ t, (step s = .next t ∧ (step { s with latch := l } = .next t ∨ step { s with latch := l } = .next { t with latch := l }))

/-! ### Stage functions -/

/-- `DivRoundHA(n, d)` is the nearest integer to n/d, halves away from zero (R14). -/
def Obligations.DivRoundIsNearestHalfAway : Prop :=
  ∀ (n : Int) (d : Nat), 1 ≤ d →
    let q := divRoundHA n d
    2 * (q * d - n).natAbs ≤ d ∧ (2 * (q * d - n).natAbs = d → n.natAbs < (q * d).natAbs) ∧ 0 ≤ q * n

/-- Rounding to nearest, ties to even (R12): the kept part of a significand. -/
def Obligations.RoundingIsNearestTiesToEven : Prop :=
  ∀ n k : Nat,
    let q := F64.shiftRNE n k
    2 * ((q * 2 ^ k : Nat) - (n : Int)).natAbs ≤ 2 ^ k ∧
    (2 * ((q * 2 ^ k : Nat) - (n : Int)).natAbs = 2 ^ k → k ≠ 0 → q % 2 = 0)

/-- The quantizer's error is at most half a divisor, and it undoes the dequantizer where nothing saturates (R225). -/
def Obligations.QuantizationErrorBounded : Prop :=
  (∀ (b : Int) (t : Nat), -2147483648 ≤ b → b ≤ 2147483647 → 1 ≤ t → t ≤ 65535 →
    b.natAbs + t ≤ 2147483647 → (dequant (quant b t) t - b).natAbs ≤ t / 2) ∧
  (∀ (q : Int) (t : Nat), 1 ≤ t → t ≤ 65535 → (q * t).natAbs ≤ 2147483647 → quant (dequant q t) t = q) ∧
  (∀ b : Int, -2147483648 ≤ b → b ≤ 2147483647 → quant b 1 = b ∧ dequant b 1 = b)

/-- Upsampling, then subsampling, is the identity (R176), and so is tiling, then reassembly (R190). -/
def Obligations.SamplerAndTilerUndoThemselves : Prop :=
  (∀ (w h : Nat) (plane : List Byte), 1 ≤ w → 1 ≤ h → plane.length = (w / 2) * (h / 2) →
    subsample (upsample plane w h) w h = plane) ∧
  (∀ (w h : Nat) (plane : List Byte), 1 ≤ w → 1 ≤ h → plane.length = w * h → untile (tile plane w h) w h = plane)

/-- The color converter is exact on grey pixels (R155). -/
def Obligations.GreyPixelsAreExact : Prop :=
  ∀ v : Byte, colorFwdPx v v v = (v, 128, 128) ∧ colorInvPx v 128 128 = (v, v, v)

/-! ### The entropy coder (46_entropy) -/

/-- Every nonempty sequence has a tree whose codebook has an entry for each of its values, so encoding never fails
(R241, R247). -/
def Obligations.EncoderNeverMissesAnEntry : Prop :=
  ∀ s : List Word, ∃ out, huffEnc s = some out

/-- The output length is 0 for no values, else the formula of R246. -/
def Obligations.EncodedLengthFormula : Prop :=
  ∀ (s : List Word) (out : List Byte), huffEnc s = some out →
    (s = [] → out = []) ∧
    (∀ t codes, buildTree s = some t → encodeValues t.codebook s = some codes →
      out.length = 8 * ((34 * s.dedup.length - 1 + 63) / 64) + 8 * ((codes.length + 63) / 64) ∧
      codes.length = (s.map fun v => ((t.codebook.lookup v).getD []).length).sum)

/-- The tree depends only on how often each value occurs, not on the order of the sequence (R238). -/
def Obligations.TreeDependsOnMultisetOnly : Prop :=
  ∀ s s' : List Word, s.Perm s' → buildTree s = buildTree s'

/-- With two or more distinct values no code is a prefix of another, and the code lengths fill the code space (R262). -/
def Obligations.CodebookIsPrefixFreeAndComplete : Prop :=
  ∀ (s : List Word) (t : HTree), buildTree s = some t → 2 ≤ s.dedup.length →
    (t.codebook.Pairwise fun p q => ¬ p.2 <+: q.2 ∧ ¬ q.2 <+: p.2) ∧
    (∀ v, v ∈ s ↔ ∃ c, (v, c) ∈ t.codebook) ∧
    (t.codebook.map fun p => (1 / 2 : ℚ) ^ p.2.length).sum = 1

/-! ### Invariants of every step -/

/-- The state after reset meets the invariants below, no byte of memory holds a value, IRQ is 0, and a host read of any
register answers its reset value (R20, R47, R65). The parameters, which MEMTOP, MAXPIX and MAXSYM read back, are the
model's choice (log 3). -/
def Obligations.ResetStateMeetsInvariants : Prop :=
  Memory.wf State.reset.mem ∧ MemoryInRange State.reset ∧ StatusConsistent State.reset ∧
  State.reset.params.legal = true ∧ State.reset.irq = false ∧ (∀ a, byteAt State.reset.mem a = none) ∧
  ∀ off, off % 4 = 0 → off < 4096 →
    let d : Word :=
      if off = 0x000 then 0x43434231
      else if off = 0x034 then BitVec.ofNat 32 (State.reset.params.memSize - 1)
      else if off = 0x038 then BitVec.ofNat 32 State.reset.params.maxPixels
      else if off = 0x03C then BitVec.ofNat 32 State.reset.params.maxSymbols
      else if 0x100 ≤ off ∧ off < 0x200 then 1
      else 0
    step { State.reset with inputs := [.regRead off 4] } =
      .next { State.reset with response := { data := d, busError := false } }

/-- Every step keeps memory in its canonical form. -/
def Obligations.StepKeepsMemoryCanonical : Prop :=
  ∀ s t : State, Memory.wf s.mem → step s = .next t → Memory.wf t.mem

/-- Every step keeps every listed byte below MEM_SIZE (R60, R73). -/
def Obligations.StepKeepsMemoryInRange : Prop :=
  ∀ s t : State, MemoryInRange s → step s = .next t → MemoryInRange t

/-- Every step keeps the status fields consistent (R24 to R28, R35, R290, R331). -/
def Obligations.StepKeepsStatusConsistent : Prop :=
  ∀ s t : State, StatusConsistent s → step s = .next t → StatusConsistent t

/-- BUSY is set by acceptance alone and cleared by completion and reset alone (R24). -/
def Obligations.BusyChangesOnlyAsR24Says : Prop :=
  ∀ s t : State, step s = .next t →
    (s.status.busy = false → t.status.busy = true →
      ∃ v rest, (s.inputs = .regWrite 0x004 4 v :: rest ∨
        ∃ a, route s.params a = .register 0x004 ∧ s.inputs = .busWrite a 4 v :: rest)) ∧
    (s.status.busy = true → t.status.busy = false →
      s.inputs = [] ∨ ∃ e rest, s.inputs = e :: rest ∧
        (e = .complete ∨ e = .hardReset ∨ e = .powerOn ∨
         ∃ v, v.getLsbD 1 = true ∧
          (e = .regWrite 0x00C 4 v ∨ ∃ a, route s.params a = .register 0x00C ∧ e = .busWrite a 4 v)))

/-- OVERRUN is set by a dropped CMD write alone, and cleared by a STATUS write with bit 3 = 1 and by reset alone; a STATUS
write clears it exactly when its bit 3 is 1 and changes nothing else (R23, R27). -/
def Obligations.OverrunIsStickyAsR27Says : Prop :=
  (∀ s t : State, step s = .next t →
    (s.status.overrun = false → t.status.overrun = true → s.status.busy = true ∧
      ∃ v rest, (s.inputs = .regWrite 0x004 4 v :: rest ∨
        ∃ a, route s.params a = .register 0x004 ∧ s.inputs = .busWrite a 4 v :: rest)) ∧
    (s.status.overrun = true → t.status.overrun = false →
      ∃ e rest, s.inputs = e :: rest ∧
        (e = .hardReset ∨ e = .powerOn ∨
         ∃ v off, (off = 0x008 ∧ v.getLsbD 3 = true ∨ off = 0x00C ∧ v.getLsbD 1 = true) ∧
          (e = .regWrite off 4 v ∨ ∃ a, route s.params a = .register off ∧ e = .busWrite a 4 v)))) ∧
  (∀ (s : State) (v : Word) (rest : List Event), s.inputs = .regWrite 0x008 4 v :: rest →
    step s = .next { s with inputs := rest, response := { data := 0, busError := false },
                            status := { s.status with overrun := if v.getLsbD 3 then false else s.status.overrun } })

/-! ### Interrupt, registers, host accesses -/

/-- A CTRL write with bit 1 = 0 sets IRQ_EN from bit 0, and with it IRQ, at once, busy or not, and changes nothing else;
a completion raises IRQ exactly when IRQ_EN = 1, the acknowledgement clears it, and a completion that comes at the same
time as a clear wins (R29, R30, R42, R298); that the same time is the schedule with the clear first is the model's reading
(log 19). -/
def Obligations.InterruptFollowsCompletionAndAcknowledgement : Prop :=
  (∀ (s : State) (v : Word) (rest : List Event), s.inputs = .regWrite 0x00C 4 v :: rest → v.getLsbD 1 = false →
    ∃ t, step s = .next t ∧
      t = { s with inputs := rest, response := { data := 0, busError := false }, irqEn := v.getLsbD 0 } ∧
      t.irq = (v.getLsbD 0 && s.donePend)) ∧
  (∀ (i : Instr) (s t : State), exec i s = .next t → t.irq = s.irqEn) ∧
  (∀ (s : State) (v : Word) (rest : List Event), s.inputs = .regWrite 0x010 4 v :: rest →
    ∃ t, step s = .next t ∧ t.donePend = (s.donePend && !v.getLsbD 0) ∧ (v.getLsbD 0 = true → t.irq = false) ∧
      t.status = s.status ∧ t.mem = s.mem ∧ t.ops = s.ops) ∧
  (∀ (s t u : State) (v : Word), s.status.busy = true → s.inputs = [.regWrite 0x010 4 v, .complete] →
    step s = .next t → step t = .next u → u.donePend = true)

/-- At the offsets of R20 an operand register takes every value written to it and a table entry its low 16 bits, busy or
not, nothing else changes, and a read gives it back (R31 to R34, R36, R46). -/
def Obligations.OperandRegistersReadBack : Prop :=
  ∀ (s : State) (off : Nat) (v : Word) (o : Operands) (rest : List Event),
    (off = 0x014 ∧ o = { s.ops with width := v }) ∨ (off = 0x018 ∧ o = { s.ops with height := v }) ∨
      (off = 0x01C ∧ o = { s.ops with count := v }) ∨ (off = 0x020 ∧ o = { s.ops with srcAddr := v }) ∨
      (off = 0x024 ∧ o = { s.ops with srcLen := v }) ∨ (off = 0x028 ∧ o = { s.ops with dstAddr := v }) ∨
      (off = 0x02C ∧ o = { s.ops with dstLimit := v }) ∨
      (∃ i : Fin 64, off = 0x100 + 4 * i.val ∧
        o = { s.ops with qtable := s.ops.qtable.set i (BitVec.ofNat 16 (v.toNat % 2 ^ 16)) }) →
    s.inputs = .regWrite off 4 v :: .regRead off 4 :: rest →
    let d : Word := if 0x100 ≤ off then BitVec.ofNat 32 (v.toNat % 2 ^ 16) else v
    ∃ t, step s = .next t ∧
      t = { s with ops := o, inputs := .regRead off 4 :: rest, response := { data := 0, busError := false } } ∧
      step t = .next { s with ops := o, inputs := rest, response := { data := d, busError := false } }

/-- A read of a register answers what the register map says, STATUS bit by bit, and changes nothing (R20 to R23, R29 to
R38); read-only and reserved locations ignore writes (R21, R35, R37, R38). -/
def Obligations.ReadOnlyRegistersIgnoreWrites : Prop :=
  (∀ (s : State) (off : Nat) (rest : List Event), s.inputs = .regRead off 4 :: rest → off % 4 = 0 → off < 4096 →
    ∃ d : Word, step s = .next { s with inputs := rest, response := { data := d, busError := false } } ∧
      (off = 0x000 → d = 0x43434231) ∧
      (off = 0x004 → d = s.cmd) ∧
      (off = 0x008 → d.getLsbD 0 = s.status.busy ∧ d.getLsbD 1 = s.status.done ∧ d.getLsbD 2 = s.status.error ∧
        d.getLsbD 3 = s.status.overrun ∧ d.extractLsb' 4 4 = 0 ∧ d.extractLsb' 8 8 = s.status.errcode ∧
        d.extractLsb' 16 16 = 0) ∧
      (off = 0x00C → d = if s.irqEn then 1 else 0) ∧
      (off = 0x010 → d = if s.donePend then 1 else 0) ∧
      (off = 0x014 → d = s.ops.width) ∧ (off = 0x018 → d = s.ops.height) ∧ (off = 0x01C → d = s.ops.count) ∧
      (off = 0x020 → d = s.ops.srcAddr) ∧ (off = 0x024 → d = s.ops.srcLen) ∧ (off = 0x028 → d = s.ops.dstAddr) ∧
      (off = 0x02C → d = s.ops.dstLimit) ∧
      (off = 0x030 → d = s.resultLen) ∧
      (off = 0x034 → d = BitVec.ofNat 32 (s.params.memSize - 1)) ∧
      (off = 0x038 → d = BitVec.ofNat 32 s.params.maxPixels) ∧
      (off = 0x03C → d = BitVec.ofNat 32 s.params.maxSymbols) ∧
      (∀ i : Fin 64, off = 0x100 + 4 * i.val → d = BitVec.ofNat 32 s.ops.qtable[i].toNat) ∧
      ((0x040 ≤ off ∧ off < 0x100) ∨ 0x200 ≤ off → d = 0)) ∧
  (∀ (s : State) (off : Nat) (v : Word) (rest : List Event), s.inputs = .regWrite off 4 v :: rest →
    off % 4 = 0 → off < 4096 →
    off = 0x000 ∨ (0x030 ≤ off ∧ off < 0x100) ∨ 0x200 ≤ off →
    step s = .next { s with inputs := rest, response := { data := 0, busError := false } })

/-- A register access that is not 32 bits at an aligned offset (R39), and a buffer access past MEM_SIZE or of another width
(R61), get a bus error and have no effect; a read returns 0. That an offset of 4096 or more and a buffer access of another
width are answered so is the model's reading (log 18). -/
def Obligations.BadAccessHasNoEffect : Prop :=
  ∀ (s : State) (a n : Nat) (v : Word) (rest : List Event),
    ((s.inputs = .regWrite a n v :: rest ∨ s.inputs = .regRead a n :: rest) ∧
      (n ≠ 4 ∨ a % 4 ≠ 0 ∨ 4096 ≤ a)) ∨
    ((s.inputs = .memWrite a n v :: rest ∨ s.inputs = .memRead a n :: rest) ∧
      ((n ≠ 1 ∧ n ≠ 2 ∧ n ≠ 4) ∨ s.params.memSize < a + n)) →
    step s = .next { s with inputs := rest, response := { data := 0, busError := true } }

/-- A host write while idle stores the low n bytes big-endian and nothing else, and a host read of the same or of fewer
bytes sees the big-endian bytes; busy or not, a legal host read changes nothing, and a legal host write that is answered
changes no register and no other byte (R61, R63, R64). The bus response, the list of events and the count of free bytes
drawn are the model's own fields (logs 1, 7, 9). -/
def Obligations.HostWriteThenReadIsBigEndian : Prop :=
  (∀ (s : State) (a n k m : Nat) (v : Word) (rest : List Event), s.status.busy = false →
    n = 1 ∨ n = 2 ∨ n = 4 → m = 1 ∨ m = 2 ∨ m = 4 → k + m ≤ n → a + n ≤ s.params.memSize →
    s.inputs = .memWrite a n v :: .memRead (a + k) m :: rest →
    ∃ t u, step s = .next t ∧ step t = .next u ∧
      t = { s with mem := t.mem, inputs := .memRead (a + k) m :: rest, response := { data := 0, busError := false } } ∧
      (∀ x, x < a ∨ a + n ≤ x → byteAt t.mem x = byteAt s.mem x) ∧
      (∀ j, j < n → byteAt t.mem (a + j) = (beBytes n v.toNat)[j]?) ∧
      u = { t with inputs := rest, draws := u.draws,
                   response := { data := BitVec.ofNat 32 (v.toNat / 256 ^ (n - k - m) % 256 ^ m), busError := false } }) ∧
  (∀ (s : State) (a n : Nat) (rest : List Event), n = 1 ∨ n = 2 ∨ n = 4 → a + n ≤ s.params.memSize →
    s.inputs = .memRead a n :: rest →
    ∃ t, step s = .next t ∧
      t = { s with inputs := rest, draws := t.draws, response := { data := t.response.data, busError := false } }) ∧
  (∀ (s t : State) (a n : Nat) (v : Word) (rest : List Event), n = 1 ∨ n = 2 ∨ n = 4 → a + n ≤ s.params.memSize →
    s.inputs = .memWrite a n v :: rest → step s = .next t →
    t = { s with mem := t.mem, inputs := rest, response := { data := 0, busError := false } } ∧
    (∀ x, x < a ∨ a + n ≤ x → byteAt t.mem x = byteAt s.mem x) ∧
    (∀ j, j < n → byteAt t.mem (a + j) = (beBytes n v.toNat)[j]?))

/-- A host write into a window of the command in flight is HOST_RACE (R82). -/
def Obligations.HostWriteIntoLiveWindowIsRace : Prop :=
  ∀ (s : State) (i : Instr) (a n x : Nat) (v : Word) (rest : List Event), s.status.busy = true →
    decode s.latch.word.toWord = .ok i → s.inputs = .memWrite a n v :: rest →
    n = 1 ∨ n = 2 ∨ n = 4 → a + n ≤ s.params.memSize → a ≤ x → x < a + n →
    (s.latch.src ≤ x ∧ x < s.latch.src + srcLen i s.latch) ∨ (s.latch.dst ≤ x ∧ x < s.latch.dst + dstLen i s.latch) →
    step s = .fault .hostRace

/-- A host write outside both windows of the running command and the command do not affect each other (R81): with the
write before the completion, the command gives the same result and the written bytes are the host's. -/
def Obligations.HostWriteOutsideWindowsIsIndependent : Prop :=
  ∀ (s t : State) (i : Instr) (a n : Nat) (v : Word), s.status.busy = true → decode s.latch.word.toWord = .ok i →
    n = 1 ∨ n = 2 ∨ n = 4 → a + n ≤ s.params.memSize →
    (∀ x, a ≤ x → x < a + n →
      ¬ (s.latch.src ≤ x ∧ x < s.latch.src + srcLen i s.latch) ∧
      ¬ (s.latch.dst ≤ x ∧ x < s.latch.dst + dstLen i s.latch)) →
    step { s with inputs := [.complete] } = .next t →
    ∃ u u', step { s with inputs := [.memWrite a n v, .complete] } = .next u ∧ step u = .next u' ∧
      u'.status = t.status ∧ u'.resultLen = t.resultLen ∧ u'.ops = t.ops ∧ u'.donePend = t.donePend ∧
      (∀ x, x < a ∨ a + n ≤ x → byteAt u'.mem x = byteAt t.mem x) ∧
      (∀ j, j < n → byteAt u'.mem (a + j) = (beBytes n v.toNat)[j]?)

/-- A host access at MEM_BASE + a is the buffer access at a, and at REG_BASE + off the register access at off (R62).
That register space answers where a platform lets the two spaces meet, and that the first holds of every a, also past the
32-bit buffer addresses, are the model's choices (log 26). -/
def Obligations.HostAddressesReachBothSpaces : Prop :=
  ∀ (s : State) (n : Nat) (v : Word) (rest : List Event),
    (∀ a, ¬ (s.params.regBase ≤ s.params.memBase + a ∧ s.params.memBase + a < s.params.regBase + 4096) →
      step { s with inputs := .busWrite (s.params.memBase + a) n v :: rest } =
        step { s with inputs := .memWrite a n v :: rest } ∧
      step { s with inputs := .busRead (s.params.memBase + a) n :: rest } =
        step { s with inputs := .memRead a n :: rest }) ∧
    (∀ off, off < 4096 →
      step { s with inputs := .busWrite (s.params.regBase + off) n v :: rest } =
        step { s with inputs := .regWrite off n v :: rest } ∧
      step { s with inputs := .busRead (s.params.regBase + off) n :: rest } =
        step { s with inputs := .regRead off n :: rest })

/-! ### Reset (70_reset) -/

/-- Hardware reset, and the soft reset a CTRL write with bit 1 performs, busy or not (R320 to R322): every register takes
its reset value, memory is kept, except that the destination window of an aborted command takes free bytes. That the
window is cut at MEM_SIZE, and that an aborted illegal word leaves memory unchanged, is the model's reading (log 13). -/
def Obligations.ResetStepResetsRegistersAndKeepsMemory : Prop :=
  ∀ (s : State) (e : Event) (rest : List Event), s.inputs = e :: rest →
    e = .hardReset ∨ (∃ v : Word, v.getLsbD 1 = true ∧ e = .regWrite 0x00C 4 v) →
    ∃ t, step s = .next t ∧ t.cmd = 0 ∧
      t.status = { busy := false, done := false, error := false, overrun := false, errcode := 0 } ∧
      t.irqEn = false ∧ t.donePend = false ∧ t.irq = false ∧ t.resultLen = 0 ∧
      t.ops = { width := 0, height := 0, count := 0, srcAddr := 0, srcLen := 0, dstAddr := 0, dstLimit := 0,
                qtable := Vector.replicate 64 1 } ∧
      t.params = s.params ∧ t.inputs = rest ∧ t.epoch = s.epoch ∧
      (s.status.busy = false → t.mem = s.mem) ∧
      (s.status.busy = true → (∀ i, decode s.latch.word.toWord ≠ .ok i) → t.mem = s.mem) ∧
      (∀ i, s.status.busy = true → decode s.latch.word.toWord = .ok i →
        ∀ x, byteAt t.mem x =
          if s.latch.dst ≤ x ∧ x < s.latch.dst + dstLen i s.latch ∧ x < s.params.memSize
          then some (Config.freeByte (s.draws + (x - s.latch.dst))) else byteAt s.mem x)

/-- After power-on no byte holds a value and every register has its reset value (R47, R65, R320, R321). -/
def Obligations.PowerOnForgetsEverything : Prop :=
  ∀ (s : State) (rest : List Event), s.inputs = .powerOn :: rest →
    ∃ t, step s = .next t ∧ t.cmd = 0 ∧ t.status = Status.reset ∧ t.irqEn = false ∧ t.donePend = false ∧
      t.ops = Operands.reset ∧ t.resultLen = 0 ∧ t.params = s.params ∧ (∀ a, byteAt t.mem a = none) ∧ t.inputs = rest

/-- The first command after any reset (R324): a dimensioned command fails with BAD_DIMENSION and DECOMPRESS with
FORMAT_TRUNCATED; NOP, a block command and the entropy coders succeed with nothing to do. -/
def Obligations.FirstCommandAfterReset : Prop :=
  ∀ (s : State) (i : Instr), s.ops = Operands.reset → s.status.busy = false →
    s.inputs = [.regWrite 0x004 4 (encode i), .complete] →
    ∃ t u, step s = .next t ∧ step t = .next u ∧ u.mem = s.mem ∧ u.resultLen = 0 ∧ u.ops = s.ops ∧
      u.status = { busy := false, done := true, error := isDimensioned i || i == .decompress,
                   overrun := s.status.overrun,
                   errcode := if isDimensioned i then 0x02 else if i = .decompress then 0x07 else 0x00 }
end

