-- ==== Sys2Proof/Laws/State.lean ====
section
/-!
SUPPORT. What each update of the state does to each field: one lemma per field per update, by rfl.
-/

namespace Sys2Proof.Machine

/-! ### accept -/

@[simp] theorem accept_params (v : Word) (s : State) : (accept v s).params = s.params := rfl
@[simp] theorem accept_cmd (v : Word) (s : State) : (accept v s).cmd = v := rfl
@[simp] theorem accept_status (v : Word) (s : State) : (accept v s).status = s.status.accepted := rfl
@[simp] theorem accept_irqEn (v : Word) (s : State) : (accept v s).irqEn = s.irqEn := rfl
@[simp] theorem accept_donePend (v : Word) (s : State) : (accept v s).donePend = s.donePend := rfl
@[simp] theorem accept_ops (v : Word) (s : State) : (accept v s).ops = s.ops := rfl
@[simp] theorem accept_resultLen (v : Word) (s : State) : (accept v s).resultLen = 0 := rfl
@[simp] theorem accept_latch (v : Word) (s : State) : (accept v s).latch = Latch.take v s.ops := rfl
@[simp] theorem accept_mem (v : Word) (s : State) : (accept v s).mem = s.mem := rfl
@[simp] theorem accept_response (v : Word) (s : State) : (accept v s).response = s.response := rfl
@[simp] theorem accept_inputs (v : Word) (s : State) : (accept v s).inputs = s.inputs := rfl
@[simp] theorem accept_draws (v : Word) (s : State) : (accept v s).draws = s.draws := rfl
@[simp] theorem accept_epoch (v : Word) (s : State) : (accept v s).epoch = s.epoch := rfl

/-! ### dropCommand -/

@[simp] theorem dropCommand_params (s : State) : (dropCommand s).params = s.params := rfl
@[simp] theorem dropCommand_cmd (s : State) : (dropCommand s).cmd = s.cmd := rfl
@[simp] theorem dropCommand_status (s : State) : (dropCommand s).status = s.status.overrunSet := rfl
@[simp] theorem dropCommand_irqEn (s : State) : (dropCommand s).irqEn = s.irqEn := rfl
@[simp] theorem dropCommand_donePend (s : State) : (dropCommand s).donePend = s.donePend := rfl
@[simp] theorem dropCommand_ops (s : State) : (dropCommand s).ops = s.ops := rfl
@[simp] theorem dropCommand_resultLen (s : State) : (dropCommand s).resultLen = s.resultLen := rfl
@[simp] theorem dropCommand_latch (s : State) : (dropCommand s).latch = s.latch := rfl
@[simp] theorem dropCommand_mem (s : State) : (dropCommand s).mem = s.mem := rfl
@[simp] theorem dropCommand_response (s : State) : (dropCommand s).response = s.response := rfl
@[simp] theorem dropCommand_inputs (s : State) : (dropCommand s).inputs = s.inputs := rfl
@[simp] theorem dropCommand_draws (s : State) : (dropCommand s).draws = s.draws := rfl
@[simp] theorem dropCommand_epoch (s : State) : (dropCommand s).epoch = s.epoch := rfl

/-! ### completeSuccess -/

@[simp] theorem completeSuccess_params (r : Success) (s : State) : (completeSuccess r s).params = s.params := rfl
@[simp] theorem completeSuccess_cmd (r : Success) (s : State) : (completeSuccess r s).cmd = s.cmd := rfl
@[simp] theorem completeSuccess_status (r : Success) (s : State) : (completeSuccess r s).status = s.status.succeeded := rfl
@[simp] theorem completeSuccess_irqEn (r : Success) (s : State) : (completeSuccess r s).irqEn = s.irqEn := rfl
@[simp] theorem completeSuccess_donePend (r : Success) (s : State) : (completeSuccess r s).donePend = true := rfl
@[simp] theorem completeSuccess_ops (r : Success) (s : State) : (completeSuccess r s).ops = s.ops.withDims r.dims := rfl
@[simp] theorem completeSuccess_resultLen (r : Success) (s : State) : (completeSuccess r s).resultLen = resultLenOf r.out.length := rfl
@[simp] theorem completeSuccess_latch (r : Success) (s : State) : (completeSuccess r s).latch = s.latch := rfl
@[simp] theorem completeSuccess_mem (r : Success) (s : State) : (completeSuccess r s).mem = storeBytes s.mem s.latch.dst r.out := rfl
@[simp] theorem completeSuccess_response (r : Success) (s : State) : (completeSuccess r s).response = s.response := rfl
@[simp] theorem completeSuccess_inputs (r : Success) (s : State) : (completeSuccess r s).inputs = s.inputs := rfl
@[simp] theorem completeSuccess_draws (r : Success) (s : State) : (completeSuccess r s).draws = s.draws := rfl
@[simp] theorem completeSuccess_epoch (r : Success) (s : State) : (completeSuccess r s).epoch = s.epoch := rfl

/-! ### completeFailure -/

@[simp] theorem completeFailure_params (e : Err) (s : State) : (completeFailure e s).params = s.params := rfl
@[simp] theorem completeFailure_cmd (e : Err) (s : State) : (completeFailure e s).cmd = s.cmd := rfl
@[simp] theorem completeFailure_status (e : Err) (s : State) : (completeFailure e s).status = s.status.failed e := rfl
@[simp] theorem completeFailure_irqEn (e : Err) (s : State) : (completeFailure e s).irqEn = s.irqEn := rfl
@[simp] theorem completeFailure_donePend (e : Err) (s : State) : (completeFailure e s).donePend = true := rfl
@[simp] theorem completeFailure_ops (e : Err) (s : State) : (completeFailure e s).ops = s.ops := rfl
@[simp] theorem completeFailure_resultLen (e : Err) (s : State) : (completeFailure e s).resultLen = 0 := rfl
@[simp] theorem completeFailure_latch (e : Err) (s : State) : (completeFailure e s).latch = s.latch := rfl
@[simp] theorem completeFailure_mem (e : Err) (s : State) : (completeFailure e s).mem = s.mem := rfl
@[simp] theorem completeFailure_response (e : Err) (s : State) : (completeFailure e s).response = s.response := rfl
@[simp] theorem completeFailure_inputs (e : Err) (s : State) : (completeFailure e s).inputs = s.inputs := rfl
@[simp] theorem completeFailure_draws (e : Err) (s : State) : (completeFailure e s).draws = s.draws := rfl
@[simp] theorem completeFailure_epoch (e : Err) (s : State) : (completeFailure e s).epoch = s.epoch := rfl

/-! ### acknowledge -/

@[simp] theorem acknowledge_params (v : Word) (s : State) : (acknowledge v s).params = s.params := rfl
@[simp] theorem acknowledge_cmd (v : Word) (s : State) : (acknowledge v s).cmd = s.cmd := rfl
@[simp] theorem acknowledge_status (v : Word) (s : State) : (acknowledge v s).status = s.status := rfl
@[simp] theorem acknowledge_irqEn (v : Word) (s : State) : (acknowledge v s).irqEn = s.irqEn := rfl
@[simp] theorem acknowledge_donePend (v : Word) (s : State) : (acknowledge v s).donePend = donePendWritten v s.donePend := rfl
@[simp] theorem acknowledge_ops (v : Word) (s : State) : (acknowledge v s).ops = s.ops := rfl
@[simp] theorem acknowledge_resultLen (v : Word) (s : State) : (acknowledge v s).resultLen = s.resultLen := rfl
@[simp] theorem acknowledge_latch (v : Word) (s : State) : (acknowledge v s).latch = s.latch := rfl
@[simp] theorem acknowledge_mem (v : Word) (s : State) : (acknowledge v s).mem = s.mem := rfl
@[simp] theorem acknowledge_response (v : Word) (s : State) : (acknowledge v s).response = s.response := rfl
@[simp] theorem acknowledge_inputs (v : Word) (s : State) : (acknowledge v s).inputs = s.inputs := rfl
@[simp] theorem acknowledge_draws (v : Word) (s : State) : (acknowledge v s).draws = s.draws := rfl
@[simp] theorem acknowledge_epoch (v : Word) (s : State) : (acknowledge v s).epoch = s.epoch := rfl

/-! ### scramble -/

@[simp] theorem scramble_params (a n : Nat) (s : State) : (scramble a n s).params = s.params := rfl
@[simp] theorem scramble_cmd (a n : Nat) (s : State) : (scramble a n s).cmd = s.cmd := rfl
@[simp] theorem scramble_status (a n : Nat) (s : State) : (scramble a n s).status = s.status := rfl
@[simp] theorem scramble_irqEn (a n : Nat) (s : State) : (scramble a n s).irqEn = s.irqEn := rfl
@[simp] theorem scramble_donePend (a n : Nat) (s : State) : (scramble a n s).donePend = s.donePend := rfl
@[simp] theorem scramble_ops (a n : Nat) (s : State) : (scramble a n s).ops = s.ops := rfl
@[simp] theorem scramble_resultLen (a n : Nat) (s : State) : (scramble a n s).resultLen = s.resultLen := rfl
@[simp] theorem scramble_latch (a n : Nat) (s : State) : (scramble a n s).latch = s.latch := rfl
@[simp] theorem scramble_mem (a n : Nat) (s : State) : (scramble a n s).mem = storeBytes s.mem a (freeBytes s.draws n) := rfl
@[simp] theorem scramble_response (a n : Nat) (s : State) : (scramble a n s).response = s.response := rfl
@[simp] theorem scramble_inputs (a n : Nat) (s : State) : (scramble a n s).inputs = s.inputs := rfl
@[simp] theorem scramble_draws (a n : Nat) (s : State) : (scramble a n s).draws = s.draws + n := rfl
@[simp] theorem scramble_epoch (a n : Nat) (s : State) : (scramble a n s).epoch = s.epoch := rfl

/-! ### scrambleDst -/

@[simp] theorem scrambleDst_params (i : Instr) (s : State) : (scrambleDst i s).params = s.params := rfl
@[simp] theorem scrambleDst_cmd (i : Instr) (s : State) : (scrambleDst i s).cmd = s.cmd := rfl
@[simp] theorem scrambleDst_status (i : Instr) (s : State) : (scrambleDst i s).status = s.status := rfl
@[simp] theorem scrambleDst_irqEn (i : Instr) (s : State) : (scrambleDst i s).irqEn = s.irqEn := rfl
@[simp] theorem scrambleDst_donePend (i : Instr) (s : State) : (scrambleDst i s).donePend = s.donePend := rfl
@[simp] theorem scrambleDst_ops (i : Instr) (s : State) : (scrambleDst i s).ops = s.ops := rfl
@[simp] theorem scrambleDst_resultLen (i : Instr) (s : State) : (scrambleDst i s).resultLen = s.resultLen := rfl
@[simp] theorem scrambleDst_latch (i : Instr) (s : State) : (scrambleDst i s).latch = s.latch := rfl
@[simp] theorem scrambleDst_mem (i : Instr) (s : State) : (scrambleDst i s).mem = storeBytes s.mem s.latch.dst (freeBytes s.draws (min (dstLen i s.latch) (s.params.memSize - s.latch.dst))) := rfl
@[simp] theorem scrambleDst_response (i : Instr) (s : State) : (scrambleDst i s).response = s.response := rfl
@[simp] theorem scrambleDst_inputs (i : Instr) (s : State) : (scrambleDst i s).inputs = s.inputs := rfl
@[simp] theorem scrambleDst_draws (i : Instr) (s : State) : (scrambleDst i s).draws = s.draws + min (dstLen i s.latch) (s.params.memSize - s.latch.dst) := rfl
@[simp] theorem scrambleDst_epoch (i : Instr) (s : State) : (scrambleDst i s).epoch = s.epoch := rfl

/-! ### resetRegisters -/

@[simp] theorem resetRegisters_params (s : State) : (resetRegisters s).params = s.params := rfl
@[simp] theorem resetRegisters_cmd (s : State) : (resetRegisters s).cmd = 0 := rfl
@[simp] theorem resetRegisters_status (s : State) : (resetRegisters s).status = Status.reset := rfl
@[simp] theorem resetRegisters_irqEn (s : State) : (resetRegisters s).irqEn = false := rfl
@[simp] theorem resetRegisters_donePend (s : State) : (resetRegisters s).donePend = false := rfl
@[simp] theorem resetRegisters_ops (s : State) : (resetRegisters s).ops = Operands.reset := rfl
@[simp] theorem resetRegisters_resultLen (s : State) : (resetRegisters s).resultLen = 0 := rfl
@[simp] theorem resetRegisters_latch (s : State) : (resetRegisters s).latch = Latch.reset := rfl
@[simp] theorem resetRegisters_mem (s : State) : (resetRegisters s).mem = s.mem := rfl
@[simp] theorem resetRegisters_response (s : State) : (resetRegisters s).response = s.response := rfl
@[simp] theorem resetRegisters_inputs (s : State) : (resetRegisters s).inputs = s.inputs := rfl
@[simp] theorem resetRegisters_draws (s : State) : (resetRegisters s).draws = s.draws := rfl
@[simp] theorem resetRegisters_epoch (s : State) : (resetRegisters s).epoch = s.epoch := rfl

/-! ### powerOnReset -/

@[simp] theorem powerOnReset_params (s : State) : (powerOnReset s).params = s.params := rfl
@[simp] theorem powerOnReset_cmd (s : State) : (powerOnReset s).cmd = 0 := rfl
@[simp] theorem powerOnReset_status (s : State) : (powerOnReset s).status = Status.reset := rfl
@[simp] theorem powerOnReset_irqEn (s : State) : (powerOnReset s).irqEn = false := rfl
@[simp] theorem powerOnReset_donePend (s : State) : (powerOnReset s).donePend = false := rfl
@[simp] theorem powerOnReset_ops (s : State) : (powerOnReset s).ops = Operands.reset := rfl
@[simp] theorem powerOnReset_resultLen (s : State) : (powerOnReset s).resultLen = 0 := rfl
@[simp] theorem powerOnReset_latch (s : State) : (powerOnReset s).latch = Latch.reset := rfl
@[simp] theorem powerOnReset_mem (s : State) : (powerOnReset s).mem = [] := rfl
@[simp] theorem powerOnReset_response (s : State) : (powerOnReset s).response = s.response := rfl
@[simp] theorem powerOnReset_inputs (s : State) : (powerOnReset s).inputs = s.inputs := rfl
@[simp] theorem powerOnReset_draws (s : State) : (powerOnReset s).draws = s.draws := rfl
@[simp] theorem powerOnReset_epoch (s : State) : (powerOnReset s).epoch = s.epoch + 1 := rfl

/-! ### writeOps -/

@[simp] theorem writeOps_params (f : Operands → Operands) (s : State) : (writeOps f s).params = s.params := rfl
@[simp] theorem writeOps_cmd (f : Operands → Operands) (s : State) : (writeOps f s).cmd = s.cmd := rfl
@[simp] theorem writeOps_status (f : Operands → Operands) (s : State) : (writeOps f s).status = s.status := rfl
@[simp] theorem writeOps_irqEn (f : Operands → Operands) (s : State) : (writeOps f s).irqEn = s.irqEn := rfl
@[simp] theorem writeOps_donePend (f : Operands → Operands) (s : State) : (writeOps f s).donePend = s.donePend := rfl
@[simp] theorem writeOps_ops (f : Operands → Operands) (s : State) : (writeOps f s).ops = f s.ops := rfl
@[simp] theorem writeOps_resultLen (f : Operands → Operands) (s : State) : (writeOps f s).resultLen = s.resultLen := rfl
@[simp] theorem writeOps_latch (f : Operands → Operands) (s : State) : (writeOps f s).latch = s.latch := rfl
@[simp] theorem writeOps_mem (f : Operands → Operands) (s : State) : (writeOps f s).mem = s.mem := rfl
@[simp] theorem writeOps_response (f : Operands → Operands) (s : State) : (writeOps f s).response = s.response := rfl
@[simp] theorem writeOps_inputs (f : Operands → Operands) (s : State) : (writeOps f s).inputs = s.inputs := rfl
@[simp] theorem writeOps_draws (f : Operands → Operands) (s : State) : (writeOps f s).draws = s.draws := rfl
@[simp] theorem writeOps_epoch (f : Operands → Operands) (s : State) : (writeOps f s).epoch = s.epoch := rfl

/-! ### answer -/

@[simp] theorem answer_params (d : Word) (s : State) : (answer d s).params = s.params := rfl
@[simp] theorem answer_cmd (d : Word) (s : State) : (answer d s).cmd = s.cmd := rfl
@[simp] theorem answer_status (d : Word) (s : State) : (answer d s).status = s.status := rfl
@[simp] theorem answer_irqEn (d : Word) (s : State) : (answer d s).irqEn = s.irqEn := rfl
@[simp] theorem answer_donePend (d : Word) (s : State) : (answer d s).donePend = s.donePend := rfl
@[simp] theorem answer_ops (d : Word) (s : State) : (answer d s).ops = s.ops := rfl
@[simp] theorem answer_resultLen (d : Word) (s : State) : (answer d s).resultLen = s.resultLen := rfl
@[simp] theorem answer_latch (d : Word) (s : State) : (answer d s).latch = s.latch := rfl
@[simp] theorem answer_mem (d : Word) (s : State) : (answer d s).mem = s.mem := rfl
@[simp] theorem answer_response (d : Word) (s : State) : (answer d s).response = { data := d, busError := false } := rfl
@[simp] theorem answer_inputs (d : Word) (s : State) : (answer d s).inputs = s.inputs := rfl
@[simp] theorem answer_draws (d : Word) (s : State) : (answer d s).draws = s.draws := rfl
@[simp] theorem answer_epoch (d : Word) (s : State) : (answer d s).epoch = s.epoch := rfl

/-! ### busError -/

@[simp] theorem busError_params (s : State) : (busError s).params = s.params := rfl
@[simp] theorem busError_cmd (s : State) : (busError s).cmd = s.cmd := rfl
@[simp] theorem busError_status (s : State) : (busError s).status = s.status := rfl
@[simp] theorem busError_irqEn (s : State) : (busError s).irqEn = s.irqEn := rfl
@[simp] theorem busError_donePend (s : State) : (busError s).donePend = s.donePend := rfl
@[simp] theorem busError_ops (s : State) : (busError s).ops = s.ops := rfl
@[simp] theorem busError_resultLen (s : State) : (busError s).resultLen = s.resultLen := rfl
@[simp] theorem busError_latch (s : State) : (busError s).latch = s.latch := rfl
@[simp] theorem busError_mem (s : State) : (busError s).mem = s.mem := rfl
@[simp] theorem busError_response (s : State) : (busError s).response = { data := 0, busError := true } := rfl
@[simp] theorem busError_inputs (s : State) : (busError s).inputs = s.inputs := rfl
@[simp] theorem busError_draws (s : State) : (busError s).draws = s.draws := rfl
@[simp] theorem busError_epoch (s : State) : (busError s).epoch = s.epoch := rfl

/-! ### Status.accepted -/

@[simp] theorem Status.accepted_busy (t : Status) : (t.accepted).busy = true := rfl
@[simp] theorem Status.accepted_done (t : Status) : (t.accepted).done = false := rfl
@[simp] theorem Status.accepted_error (t : Status) : (t.accepted).error = false := rfl
@[simp] theorem Status.accepted_overrun (t : Status) : (t.accepted).overrun = t.overrun := rfl
@[simp] theorem Status.accepted_errcode (t : Status) : (t.accepted).errcode = 0 := rfl

/-! ### Status.succeeded -/

@[simp] theorem Status.succeeded_busy (t : Status) : (t.succeeded).busy = false := rfl
@[simp] theorem Status.succeeded_done (t : Status) : (t.succeeded).done = true := rfl
@[simp] theorem Status.succeeded_error (t : Status) : (t.succeeded).error = false := rfl
@[simp] theorem Status.succeeded_overrun (t : Status) : (t.succeeded).overrun = t.overrun := rfl
@[simp] theorem Status.succeeded_errcode (t : Status) : (t.succeeded).errcode = 0 := rfl

/-! ### Status.failed -/

@[simp] theorem Status.failed_busy (e : Err) (t : Status) : (t.failed e).busy = false := rfl
@[simp] theorem Status.failed_done (e : Err) (t : Status) : (t.failed e).done = true := rfl
@[simp] theorem Status.failed_error (e : Err) (t : Status) : (t.failed e).error = true := rfl
@[simp] theorem Status.failed_overrun (e : Err) (t : Status) : (t.failed e).overrun = t.overrun := rfl
@[simp] theorem Status.failed_errcode (e : Err) (t : Status) : (t.failed e).errcode = e.code := rfl

/-! ### Status.overrunSet -/

@[simp] theorem Status.overrunSet_busy (t : Status) : (t.overrunSet).busy = t.busy := rfl
@[simp] theorem Status.overrunSet_done (t : Status) : (t.overrunSet).done = t.done := rfl
@[simp] theorem Status.overrunSet_error (t : Status) : (t.overrunSet).error = t.error := rfl
@[simp] theorem Status.overrunSet_overrun (t : Status) : (t.overrunSet).overrun = true := rfl
@[simp] theorem Status.overrunSet_errcode (t : Status) : (t.overrunSet).errcode = t.errcode := rfl

/-! ### Status.written -/

@[simp] theorem Status.written_busy (v : Word) (t : Status) : (t.written v).busy = t.busy := rfl
@[simp] theorem Status.written_done (v : Word) (t : Status) : (t.written v).done = t.done := rfl
@[simp] theorem Status.written_error (v : Word) (t : Status) : (t.written v).error = t.error := rfl
@[simp] theorem Status.written_overrun (v : Word) (t : Status) : (t.written v).overrun = (t.overrun && !v.getLsbD 3) := rfl
@[simp] theorem Status.written_errcode (v : Word) (t : Status) : (t.written v).errcode = t.errcode := rfl

/-! ### Operands.withDims -/

@[simp] theorem Operands.withDims_count (d : Option (Word × Word)) (o : Operands) : (o.withDims d).count = o.count := by
  cases d <;> rfl
@[simp] theorem Operands.withDims_srcAddr (d : Option (Word × Word)) (o : Operands) : (o.withDims d).srcAddr = o.srcAddr := by
  cases d <;> rfl
@[simp] theorem Operands.withDims_srcLen (d : Option (Word × Word)) (o : Operands) : (o.withDims d).srcLen = o.srcLen := by
  cases d <;> rfl
@[simp] theorem Operands.withDims_dstAddr (d : Option (Word × Word)) (o : Operands) : (o.withDims d).dstAddr = o.dstAddr := by
  cases d <;> rfl
@[simp] theorem Operands.withDims_dstLimit (d : Option (Word × Word)) (o : Operands) : (o.withDims d).dstLimit = o.dstLimit := by
  cases d <;> rfl
@[simp] theorem Operands.withDims_qtable (d : Option (Word × Word)) (o : Operands) : (o.withDims d).qtable = o.qtable := by
  cases d <;> rfl

@[simp] theorem Operands.withDims_none (o : Operands) : o.withDims none = o := rfl

@[simp] theorem Operands.withDims_some (w h : Word) (o : Operands) :
    o.withDims (some (w, h)) = { o with width := w, height := h } := rfl

@[simp] theorem Success.bytes_out (out : List Byte) : (Success.bytes out).out = out := rfl

@[simp] theorem Success.bytes_dims (out : List Byte) : (Success.bytes out).dims = none := rfl

/-- No error has code 0 (60_exceptions R290). -/
theorem Err.code_ne_zero (e : Err) : e.code ≠ 0 := by cases e <;> decide

end Sys2Proof.Machine
end

