-- ==== Sys2Proof/Laws/Memory.lean ====
section
/-!
SUPPORT. Laws of buffer memory: what a store does to every byte, that every memory operation keeps the canonical
form, and what the engine's reads answer.
-/

namespace Sys2Proof.Machine

/-! ### One byte after a store -/

@[simp] theorem byteAt_nil (a : Nat) : byteAt [] a = none := rfl

theorem byteAt_append (m m' : Memory) (a : Nat) : byteAt (m ++ m') a = (byteAt m a).or (byteAt m' a) := by
  induction m with
  | nil => simp
  | cons c m ih =>
    obtain ⟨x, b⟩ := c
    simp only [List.cons_append, byteAt]
    split <;> simp [ih]

theorem byteAt_filter (p : Nat → Bool) (m : Memory) (a : Nat) :
    byteAt (m.filter (fun c => p c.1)) a = if p a then byteAt m a else none := by
  induction m with
  | nil => simp
  | cons c m ih =>
    obtain ⟨x, b⟩ := c
    by_cases hx : p x <;> by_cases hxa : x = a <;> simp_all [byteAt]

theorem byteAt_cellsFrom (bs : List Byte) (a x : Nat) :
    byteAt (cellsFrom a bs) x = if a ≤ x then bs[x - a]? else none := by
  induction bs generalizing a with
  | nil => simp [cellsFrom]
  | cons b bs ih =>
    simp only [cellsFrom, byteAt, ih]
    by_cases h : a = x
    · simp [h]
    · by_cases h' : a ≤ x
      · have : x - a = (x - (a + 1)) + 1 := by omega
        rw [if_neg h, if_pos (by omega : a + 1 ≤ x), if_pos h', this, List.getElem?_cons_succ]
      · rw [if_neg h, if_neg (by omega : ¬ a + 1 ≤ x), if_neg h']

/-- A store sets the bytes of its window and leaves every other byte alone. -/
theorem byteAt_storeBytes (m : Memory) (a : Nat) (bs : List Byte) (x : Nat) :
    byteAt (storeBytes m a bs) x = if a ≤ x ∧ x < a + bs.length then bs[x - a]? else byteAt m x := by
  unfold storeBytes
  cases hb : bs.isEmpty
  · simp only [Bool.false_eq_true, if_false]
    rw [byteAt_append, byteAt_append, byteAt_cellsFrom,
      byteAt_filter (fun y => decide (y < a)), byteAt_filter (fun y => decide (a + bs.length ≤ y))]
    by_cases h1 : x < a
    · have h2 : ¬ a ≤ x := by omega
      have h3 : ¬ a + bs.length ≤ x := by omega
      simp [h1, h2, h3]
    · by_cases h2 : x < a + bs.length
      · have h3 : a ≤ x := by omega
        have h4 : x - a < bs.length := by omega
        simp [h1, h2, h3, List.getElem?_eq_getElem h4]
      · have h3 : a + bs.length ≤ x := by omega
        have h4 : a ≤ x := by omega
        have h5 : bs[x - a]? = none := List.getElem?_eq_none (by omega)
        simp [h1, h2, h3, h4, h5]
  · have : bs = [] := by simpa using hb
    subst this
    simp only [if_true, List.length_nil, Nat.add_zero]
    rw [if_neg (by omega)]

@[simp] theorem storeBytes_nil (m : Memory) (a : Nat) : storeBytes m a [] = m := rfl

theorem byteAt_storeBytes_outside {m : Memory} {a : Nat} {bs : List Byte} {x : Nat}
    (h : x < a ∨ a + bs.length ≤ x) : byteAt (storeBytes m a bs) x = byteAt m x := by
  rw [byteAt_storeBytes, if_neg (by omega)]

theorem byteAt_storeBytes_inside {m : Memory} {a : Nat} {bs : List Byte} {j : Nat} (h : j < bs.length) :
    byteAt (storeBytes m a bs) (a + j) = some bs[j] := by
  rw [byteAt_storeBytes, if_pos (by omega), Nat.add_sub_cancel_left, List.getElem?_eq_getElem h]

/-! ### The canonical form -/

theorem mem_cellsFrom {c : Host.Cell} {a : Nat} {bs : List Byte} (h : c ∈ cellsFrom a bs) :
    a ≤ c.1 ∧ c.1 < a + bs.length := by
  induction bs generalizing a with
  | nil => simp [cellsFrom] at h
  | cons b bs ih =>
    simp only [cellsFrom, List.mem_cons] at h
    rcases h with rfl | h
    · simp
    · have := ih h
      simp only [List.length_cons]
      omega

theorem cellsFrom_wf (a : Nat) (bs : List Byte) : Memory.wf (cellsFrom a bs) := by
  induction bs generalizing a with
  | nil => exact List.Pairwise.nil
  | cons b bs ih =>
    refine List.Pairwise.cons (fun c hc => ?_) (ih (a + 1))
    have := mem_cellsFrom hc
    show a < c.1
    omega

/-- Every cell of a store is an old cell or lies in its window. -/
theorem mem_storeBytes {m : Memory} {a : Nat} {bs : List Byte} {c : Host.Cell} (h : c ∈ storeBytes m a bs) :
    c ∈ m ∨ (a ≤ c.1 ∧ c.1 < a + bs.length) := by
  unfold storeBytes at h
  split at h
  · exact .inl h
  · simp only [List.mem_append, List.mem_filter] at h
    rcases h with h | h | h
    · exact .inl h.1
    · exact .inr (mem_cellsFrom h)
    · exact .inl h.1

/-- A store keeps the canonical form. -/
theorem storeBytes_wf {m : Memory} (h : Memory.wf m) (a : Nat) (bs : List Byte) :
    Memory.wf (storeBytes m a bs) := by
  unfold storeBytes
  split
  · exact h
  · have lo : ∀ c, c ∈ m.filter (fun c => decide (c.1 < a)) → c.1 < a := fun c hc => by
      simpa using (List.mem_filter.mp hc).2
    have hi : ∀ c, c ∈ m.filter (fun c => decide (a + bs.length ≤ c.1)) → a + bs.length ≤ c.1 := fun c hc => by
      simpa using (List.mem_filter.mp hc).2
    refine List.pairwise_append.mpr ⟨h.filter _, List.pairwise_append.mpr ⟨cellsFrom_wf a bs, h.filter _, ?_⟩, ?_⟩
    · intro c hc d hd
      have := mem_cellsFrom hc
      have := hi d hd
      omega
    · intro c hc d hd
      have := lo c hc
      rcases List.mem_append.mp hd with hd | hd
      · have := mem_cellsFrom hd
        omega
      · have := hi d hd
        omega

/-- The empty memory of power-on is canonical. -/
theorem empty_wf : Memory.wf [] := List.Pairwise.nil

/-! ### The engine's reads -/

theorem engineRead_ok {m : Memory} {a : Nat} {b : Byte} : engineRead m a = .ok b ↔ byteAt m a = some b := by
  unfold engineRead
  split <;> simp_all

/-- Reads answer the bytes of their addresses, in order. -/
theorem engineReads_ok {m : Memory} {as : List Nat} {bs : List Byte} :
    engineReads m as = .ok bs ↔ as.map (byteAt m) = bs.map some := by
  induction as generalizing bs with
  | nil => cases bs <;> simp [engineReads]
  | cons a as ih =>
    simp only [engineReads, List.map_cons]
    cases hr : byteAt m a with
    | none => cases bs <;> simp [engineRead, hr, Bind.bind, Except.bind]
    | some b =>
      have hrd : engineRead m a = .ok b := engineRead_ok.mpr hr
      cases hrs : engineReads m as with
      | error e =>
        simp only [hrd, Bind.bind, Except.bind]
        constructor
        · intro h; cases h
        · intro h
          cases bs with
          | nil => simp at h
          | cons c cs =>
            simp only [List.map_cons, List.cons.injEq] at h
            have := (ih (bs := cs)).mpr h.2
            rw [hrs] at this
            cases this
      | ok bs' =>
        have hbs' := ih.mp hrs
        simp only [hrd, Bind.bind, Except.bind, pure, Except.pure]
        constructor
        · intro h
          cases h
          simp [hbs']
        · intro h
          cases bs with
          | nil => simp at h
          | cons c cs =>
            simp only [List.map_cons, List.cons.injEq, Option.some.injEq] at h
            have h2 := h.2
            rw [hbs'] at h2
            have : bs' = cs := List.map_injective_iff.mpr (Option.some_injective _) h2
            rw [h.1, this]

/-- The only way reads fail is an unwritten byte (93_implementation_defined U1). -/
theorem engineReads_error {m : Memory} {as : List Nat} {e : Stop} (h : engineReads m as = .error e) :
    e = .uninit ∧ ∃ a ∈ as, byteAt m a = none := by
  induction as with
  | nil => simp [engineReads] at h
  | cons a as ih =>
    simp only [engineReads] at h
    cases hr : byteAt m a with
    | none =>
      simp [engineRead, hr, Bind.bind, Except.bind] at h
      exact ⟨h.symm, a, by simp, hr⟩
    | some b =>
      cases hrs : engineReads m as with
      | error e' =>
        simp [engineRead, hr, hrs, Bind.bind, Except.bind] at h
        subst h
        obtain ⟨h1, c, hc, h2⟩ := ih hrs
        exact ⟨h1, c, by simp [hc], h2⟩
      | ok bs => simp [engineRead, hr, hrs, Bind.bind, Except.bind, pure, Except.pure] at h

theorem engineReads_length {m : Memory} {as : List Nat} {bs : List Byte} (h : engineReads m as = .ok bs) :
    bs.length = as.length := by
  have := congrArg List.length (engineReads_ok.mp h)
  simpa using this.symm

/-- Reads that all find a byte succeed. -/
theorem engineReads_of_written {m : Memory} {as : List Nat} (h : ∀ a ∈ as, (byteAt m a).isSome) :
    ∃ bs, engineReads m as = .ok bs := by
  cases hr : engineReads m as with
  | ok bs => exact ⟨bs, rfl⟩
  | error e =>
    obtain ⟨_, a, ha, hn⟩ := engineReads_error hr
    have := h a ha
    simp [hn] at this

/-- Reads through a byte function that memory agrees with. -/
theorem engineReads_eq_map {m : Memory} {as : List Nat} {f : Nat → Byte} (h : ∀ a ∈ as, byteAt m a = some (f a)) :
    engineReads m as = .ok (as.map f) := by
  rw [engineReads_ok, List.map_map]
  exact List.map_congr_left fun a ha => h a ha

/-- Reads depend only on the bytes at their addresses. -/
theorem engineReads_congr {m m' : Memory} {as : List Nat} (h : ∀ a ∈ as, byteAt m a = byteAt m' a) :
    engineReads m as = engineReads m' as := by
  induction as with
  | nil => rfl
  | cons a as ih =>
    have h1 : engineRead m a = engineRead m' a := by simp [engineRead, h a (by simp)]
    have h2 := ih fun b hb => h b (by simp [hb])
    simp [engineReads, h1, h2]

/-- The window of `n` bytes at `a`, read through a byte function that memory agrees with. -/
theorem readWindow_eq_map {m : Memory} {a n : Nat} {f : Nat → Byte} (h : ∀ j, j < n → byteAt m (a + j) = some (f j)) :
    readWindow m a n = .ok ((List.range n).map f) := by
  have : List.range' a n = (List.range n).map (fun j => a + j) := by
    rw [List.range_eq_range', List.map_add_range']; simp
  rw [readWindow, this, engineReads_ok, List.map_map, List.map_map]
  exact List.map_congr_left fun j hj => h j (List.mem_range.mp hj)

theorem readWindow_length {m : Memory} {a n : Nat} {bs : List Byte} (h : readWindow m a n = .ok bs) :
    bs.length = n := by
  simpa using engineReads_length h

theorem readWindow_error {m : Memory} {a n : Nat} {e : Stop} (h : readWindow m a n = .error e) : e = .uninit :=
  (engineReads_error h).1

theorem readWindow_of_written {m : Memory} {a n : Nat} (h : Written m a n) : ∃ bs, readWindow m a n = .ok bs := by
  refine engineReads_of_written fun x hx => ?_
  obtain ⟨j, hj, rfl⟩ := List.mem_range'.mp hx
  simpa using h j hj

theorem readWindow_congr {m m' : Memory} {a n : Nat} (h : ∀ x, a ≤ x → x < a + n → byteAt m x = byteAt m' x) :
    readWindow m a n = readWindow m' a n := by
  refine engineReads_congr fun x hx => ?_
  obtain ⟨j, hj, rfl⟩ := List.mem_range'.mp hx
  exact h _ (by omega) (by omega)

end Sys2Proof.Machine
end

