-- ==== Sys2Proof/Laws/Decoder.lean ====
section
/-!
SUPPORT. What the entropy decoder can do: how it fails, and that it depends on its input bytes alone.
-/

namespace Sys2Proof.Machine

/-! ### How the decoder fails -/

/-- The errors of the decoder (46_entropy R257), and an unwritten byte of its input. -/
def DecoderStop (src : BitSource) (x : Stop) : Prop :=
  (x = .uninit ∧ ∃ j, j < src.len ∧ byteAt src.mem (src.base + j) = none) ∨
  x = .raise .formatTruncated ∨ x = .raise .formatTree ∨ x = .raise .formatCode

theorem engineRead_error {m : Memory} {a : Nat} {x : Stop} (h : engineRead m a = .error x) :
    x = .uninit ∧ byteAt m a = none := by
  unfold engineRead at h
  split at h
  · cases h
  · next hn => exact ⟨(Except.error.inj h).symm, hn⟩

theorem readBit_stop {src : BitSource} {k : Nat} {x : Stop} (h : readBit src k = .error x) : DecoderStop src x := by
  unfold readBit at h
  split_ifs at h with hk
  · cases h
    exact .inr (.inl rfl)
  · rcases bind_eq_error.mp h with h1 | ⟨b, _, h2⟩
    · obtain ⟨rfl, hn⟩ := engineRead_error h1
      exact .inl ⟨rfl, k / 8, by omega, hn⟩
    · cases h2

theorem readBits_stop {src : BitSource} {n k v : Nat} {x : Stop} (h : readBits src n k v = .error x) :
    DecoderStop src x := by
  induction n generalizing k v with
  | zero => cases h
  | succ n ih =>
    rcases bind_eq_error.mp h with h1 | ⟨b, _, h2⟩
    · exact readBit_stop h1
    · exact ih h2

theorem parseTree_stop {src : BitSource} {limit fuel k m : Nat} {x : Stop}
    (h : parseTree src limit fuel k m = .error x) : DecoderStop src x := by
  induction fuel generalizing k m with
  | zero => cases h; exact .inr (.inr (.inl rfl))
  | succ fuel ih =>
    unfold parseTree at h
    split_ifs at h with hm
    · cases h; exact .inr (.inr (.inl rfl))
    · rcases bind_eq_error.mp h with h1 | ⟨tag, _, h2⟩
      · exact readBit_stop h1
      · cases tag
        · rcases bind_eq_error.mp h2 with h3 | ⟨l, _, h4⟩
          · exact ih h3
          · rcases bind_eq_error.mp h4 with h5 | ⟨r, _, h6⟩
            · exact ih h5
            · cases h6
        · rcases bind_eq_error.mp h2 with h3 | ⟨v, _, h4⟩
          · exact readBits_stop h3
          · cases h4

theorem walkTree_stop {src : BitSource} {t : HTree} {k : Nat} {x : Stop} (h : walkTree src t k = .error x) :
    DecoderStop src x := by
  induction t generalizing k with
  | leaf v => cases h
  | node l r ihl ihr =>
    rcases bind_eq_error.mp h with h1 | ⟨b, _, h2⟩
    · exact readBit_stop h1
    · cases b
      · exact ihl h2
      · exact ihr h2

theorem decodeValue_stop {src : BitSource} {t : HTree} {k : Nat} {x : Stop} (h : decodeValue src t k = .error x) :
    DecoderStop src x := by
  cases t with
  | leaf v =>
    rcases bind_eq_error.mp h with h1 | ⟨b, _, h2⟩
    · exact readBit_stop h1
    · cases b
      · cases h2
      · cases h2; exact .inr (.inr (.inr rfl))
  | node l r => exact walkTree_stop h

theorem decodeStream_stop {src : BitSource} {t : HTree} {n k : Nat} {x : Stop}
    (h : decodeStream src t n k = .error x) : DecoderStop src x := by
  induction n generalizing k with
  | zero => cases h
  | succ n ih =>
    rcases bind_eq_error.mp h with h1 | ⟨y, _, h2⟩
    · exact decodeValue_stop h1
    · rcases bind_eq_error.mp h2 with h3 | ⟨ys, _, h4⟩
      · exact ih h3
      · cases h4

/-- How `huffDec` fails (46_entropy R257, R255). -/
theorem huffDec_stop {p : Params} {src : BitSource} {n : Nat} {x : Stop} (h : huffDec p src n = .error x) :
    DecoderStop src x := by
  unfold huffDec at h
  split_ifs at h
  rcases bind_eq_error.mp h with h1 | ⟨t, _, h2⟩
  · exact parseTree_stop h1
  · exact decodeStream_stop h2

/-- `huffDec` answers as many values as it was asked for (46_entropy R253). -/
theorem decodeStream_length {src : BitSource} {t : HTree} {n k : Nat} {vs : List Word}
    (h : decodeStream src t n k = .ok vs) : vs.length = n := by
  induction n generalizing k vs with
  | zero => cases h; rfl
  | succ n ih =>
    obtain ⟨y, _, h2⟩ := bind_eq_ok.mp h
    obtain ⟨ys, h3, h4⟩ := bind_eq_ok.mp h2
    cases h4
    simp [ih h3]

theorem huffDec_length {p : Params} {src : BitSource} {n : Nat} {vs : List Word} (h : huffDec p src n = .ok vs) :
    vs.length = n := by
  unfold huffDec at h
  split_ifs at h with h0
  · cases h; exact h0.symm
  · obtain ⟨t, _, h2⟩ := bind_eq_ok.mp h
    exact decodeStream_length h2

/-! ### The decoder depends on its input bytes alone -/

/-- Two inputs of equal length and equal bytes. -/
structure SameInput (a b : BitSource) : Prop where
  len : a.len = b.len
  bytes : ∀ j, j < a.len → byteAt a.mem (a.base + j) = byteAt b.mem (b.base + j)

theorem readBit_congr {a b : BitSource} (h : SameInput a b) (k : Nat) : readBit a k = readBit b k := by
  unfold readBit
  rw [← h.len]
  split_ifs with hk
  · rfl
  · simp only [engineRead, h.bytes (k / 8) (by omega)]

theorem readBits_congr {a b : BitSource} (h : SameInput a b) (n k v : Nat) : readBits a n k v = readBits b n k v := by
  induction n generalizing k v with
  | zero => rfl
  | succ n ih => simp only [readBits, readBit_congr h, ih]

theorem parseTree_congr {a b : BitSource} (h : SameInput a b) (limit fuel k m : Nat) :
    parseTree a limit fuel k m = parseTree b limit fuel k m := by
  induction fuel generalizing k m with
  | zero => rfl
  | succ fuel ih => simp only [parseTree, readBit_congr h, readBits_congr h, ih]

theorem walkTree_congr {a b : BitSource} (h : SameInput a b) (t : HTree) (k : Nat) :
    walkTree a t k = walkTree b t k := by
  induction t generalizing k with
  | leaf v => rfl
  | node l r ihl ihr => simp only [walkTree, readBit_congr h, ihl, ihr]

theorem decodeValue_congr {a b : BitSource} (h : SameInput a b) (t : HTree) (k : Nat) :
    decodeValue a t k = decodeValue b t k := by
  cases t with
  | leaf v => simp only [decodeValue, readBit_congr h]
  | node l r => exact walkTree_congr h _ k

theorem decodeStream_congr {a b : BitSource} (h : SameInput a b) (t : HTree) (n k : Nat) :
    decodeStream a t n k = decodeStream b t n k := by
  induction n generalizing k with
  | zero => rfl
  | succ n ih => simp only [decodeStream, decodeValue_congr h, ih]

theorem huffDec_congr {p : Params} {a b : BitSource} (h : SameInput a b) (n : Nat) : huffDec p a n = huffDec p b n := by
  unfold huffDec
  split_ifs
  · rfl
  · simp only [parseTree_congr h, decodeStream_congr h]

end Sys2Proof.Machine
end

