-- ==== Sys2Proof/Laws/Entropy.lean ====
section
/-!
SUPPORT. The frequency table, the Huffman tree and the codebook, and the decoder reading back what the encoder wrote.
-/

namespace Sys2Proof.Machine

/-! ### The frequency table (46_entropy R236, R238) -/

/-- Keys strictly rising, as signed integers. -/
abbrev Rising (t : List (Word × Nat)) : Prop := t.Pairwise fun a b => a.1.toInt < b.1.toInt

theorem mem_countValue_keys {u v : Word} {t : List (Word × Nat)} :
    u ∈ (countValue v t).map Prod.fst ↔ u = v ∨ u ∈ t.map Prod.fst := by
  induction t with
  | nil => simp [countValue]
  | cons p t ih =>
    obtain ⟨x, n⟩ := p
    unfold countValue
    split_ifs with h1 h2
    · subst h1; simp
    · simp
    · simp only [List.map_cons, List.mem_cons, ih]
      tauto

theorem countValue_rising {v : Word} {t : List (Word × Nat)} (h : Rising t) : Rising (countValue v t) := by
  induction t with
  | nil => simp [countValue, Rising]
  | cons p t ih =>
    obtain ⟨x, n⟩ := p
    obtain ⟨h1, h2⟩ := List.pairwise_cons.mp h
    unfold countValue
    split_ifs with hx hlt
    · exact List.pairwise_cons.mpr ⟨h1, h2⟩
    · refine List.pairwise_cons.mpr ⟨fun q hq => ?_, h⟩
      rcases List.mem_cons.mp hq with rfl | hq
      · exact hlt
      · exact lt_trans hlt (h1 q hq)
    · refine List.pairwise_cons.mpr ⟨fun q hq => ?_, ih h2⟩
      have hk : q.1 ∈ (countValue v t).map Prod.fst := List.mem_map_of_mem hq
      rcases mem_countValue_keys.mp hk with hv | hv
      · have hne : v.toInt ≠ x.toInt := fun e => hx (BitVec.toInt_inj.mp e)
        simp only [hv]
        omega
      · obtain ⟨q', hq', he⟩ := List.mem_map.mp hv
        have := h1 q' hq'
        simp only [he] at this
        exact this

theorem foldl_countValue_rising (s : List Word) {t : List (Word × Nat)} (h : Rising t) :
    Rising (s.foldl (fun t v => countValue v t) t) := by
  induction s generalizing t with
  | nil => exact h
  | cons v s ih => exact ih (countValue_rising h)

/-- The frequency table lists its values in strictly rising signed order. -/
theorem freqTable_rising (s : List Word) : Rising (freqTable s) := foldl_countValue_rising s List.Pairwise.nil

theorem mem_foldl_countValue_keys (s : List Word) {t : List (Word × Nat)} {u : Word} :
    u ∈ (s.foldl (fun t v => countValue v t) t).map Prod.fst ↔ u ∈ s ∨ u ∈ t.map Prod.fst := by
  induction s generalizing t with
  | nil => simp
  | cons v s ih =>
    rw [List.foldl_cons, ih, mem_countValue_keys, List.mem_cons]
    tauto

/-- The frequency table has exactly the values that occur. -/
theorem mem_freqTable_keys {s : List Word} {u : Word} : u ∈ (freqTable s).map Prod.fst ↔ u ∈ s := by
  rw [freqTable, mem_foldl_countValue_keys]
  simp

theorem Rising.nodup {t : List (Word × Nat)} (h : Rising t) : (t.map Prod.fst).Nodup := by
  rw [List.Nodup, List.pairwise_map]
  refine h.imp fun {a b} hab he => ?_
  rw [he] at hab
  exact lt_irrefl _ hab

/-- The frequency table has one entry per distinct value. -/
theorem freqTable_length (s : List Word) : (freqTable s).length = s.dedup.length := by
  have hp : ((freqTable s).map Prod.fst).Perm s.dedup := by
    rw [List.perm_ext_iff_of_nodup (freqTable_rising s).nodup (List.nodup_dedup s)]
    intro a
    rw [mem_freqTable_keys, List.mem_dedup]
  simpa using hp.length_eq

/-- One count more for `v`, no change elsewhere. -/
theorem mem_countValue {v u : Word} {n : Nat} {t : List (Word × Nat)} (h : Rising t) :
    (u, n) ∈ countValue v t ↔
      (u ≠ v ∧ (u, n) ∈ t) ∨ (u = v ∧ ((∃ k, (v, k) ∈ t ∧ n = k + 1) ∨ (v ∉ t.map Prod.fst ∧ n = 1))) := by
  induction t with
  | nil => simp [countValue]
  | cons p t ih =>
    obtain ⟨x, c⟩ := p
    obtain ⟨h1, h2⟩ := List.pairwise_cons.mp h
    have hnot : ∀ k, (x, k) ∉ t := fun k hk => absurd (h1 (x, k) hk) (lt_irrefl _)
    unfold countValue
    split_ifs with hx hlt
    · subst hx
      by_cases hu : u = v
      · subst hu
        constructor
        · intro hm
          rcases List.mem_cons.mp hm with he | he
          · exact .inr ⟨rfl, .inl ⟨c, by simp, (Prod.mk.inj he).2⟩⟩
          · exact absurd he (hnot _)
        · rintro (⟨h3, _⟩ | ⟨_, ⟨k, hk, rfl⟩ | ⟨h3, _⟩⟩)
          · exact absurd rfl h3
          · rcases List.mem_cons.mp hk with he | he
            · rw [(Prod.mk.inj he).2]; simp
            · exact absurd he (hnot _)
          · simp at h3
      · simp [hu]
    · have hv : v ∉ ((x, c) :: t).map Prod.fst := by
        intro hm
        rcases List.mem_cons.mp hm with he | he
        · exact hx he
        · obtain ⟨q, hq, he⟩ := List.mem_map.mp he
          have := h1 q hq
          simp only [he] at this
          omega
      have hv' : ∀ k, (v, k) ∉ (x, c) :: t := fun k hk => hv (List.mem_map_of_mem (f := Prod.fst) hk)
      by_cases hu : u = v
      · subst hu
        constructor
        · intro hm
          rcases List.mem_cons.mp hm with he | he
          · exact .inr ⟨rfl, .inr ⟨hv, (Prod.mk.inj he).2⟩⟩
          · exact absurd he (hv' _)
        · rintro (⟨h3, _⟩ | ⟨_, ⟨k, hk, _⟩ | ⟨_, rfl⟩⟩)
          · exact absurd rfl h3
          · exact absurd hk (hv' _)
          · simp
      · simp [hu]
    · rw [List.mem_cons, ih h2]
      by_cases hu : u = v
      · subst hu
        have hux : u ≠ x := hx
        simp only [Prod.mk.injEq, hux, false_and, false_or, ne_eq, not_true, List.mem_cons, List.map_cons, true_and]
      · simp [hu]

theorem freqTable_append (s : List Word) (v : Word) : freqTable (s ++ [v]) = countValue v (freqTable s) := by
  simp [freqTable]

/-- The frequency table maps each value that occurs to how often it occurs (46_entropy R236). -/
theorem mem_freqTable {s : List Word} {u : Word} {n : Nat} : (u, n) ∈ freqTable s ↔ u ∈ s ∧ n = s.count u := by
  induction s using List.reverseRecOn generalizing u n with
  | nil => simp [freqTable]
  | append_singleton s v ih =>
    rw [freqTable_append, mem_countValue (freqTable_rising s), mem_freqTable_keys]
    by_cases hu : u = v
    · subst hu
      simp only [ne_eq, not_true, false_and, false_or, true_and, ih, List.count_append, List.count_singleton_self,
        List.mem_append, List.mem_singleton, or_true]
      constructor
      · rintro (⟨k, ⟨_, rfl⟩, rfl⟩ | ⟨hm, rfl⟩)
        · rfl
        · simp [List.count_eq_zero_of_not_mem hm]
      · rintro rfl
        by_cases hm : u ∈ s
        · exact .inl ⟨_, ⟨hm, rfl⟩, rfl⟩
        · exact .inr ⟨hm, by simp [List.count_eq_zero_of_not_mem hm]⟩
    · have : List.count u [v] = 0 := List.count_eq_zero_of_not_mem (by simpa using hu)
      simp [hu, ih, List.count_append, this]

/-! ### The tree (46_entropy R239) -/

/-- The values of a tree's leaves, zero-branch first. -/
def HTree.leaves : HTree → List Word
  | .leaf v => [v]
  | .node l r => l.leaves ++ r.leaves

/-- How many nodes a tree has. -/
def HTree.nodes : HTree → Nat
  | .leaf _ => 1
  | .node l r => 1 + (l.nodes + r.nodes)

theorem HTree.leaves_pos (t : HTree) : 0 < t.leaves.length := by
  induction t with
  | leaf v => simp [leaves]
  | node l r ihl ihr => simp [leaves]; omega

/-- n leaves and n-1 internal nodes (46_entropy R239). -/
theorem HTree.nodes_eq (t : HTree) : t.nodes + 1 = 2 * t.leaves.length := by
  induction t with
  | leaf v => rfl
  | node l r ihl ihr => simp only [leaves, nodes, List.length_append]; omega

theorem insertNode_perm (x : PoolNode) (pool : List PoolNode) : (insertNode x pool).Perm (x :: pool) := by
  induction pool with
  | nil => exact List.Perm.refl _
  | cons y ys ih =>
    unfold insertNode
    split_ifs
    · exact List.Perm.refl _
    · exact (ih.cons y).trans (List.Perm.swap x y ys)

/-- The values in a pool. -/
def poolLeaves (pool : List PoolNode) : List Word := pool.flatMap fun n => n.t.leaves

theorem poolLeaves_insertNode (x : PoolNode) (pool : List PoolNode) :
    (poolLeaves (insertNode x pool)).Perm (x.t.leaves ++ poolLeaves pool) := by
  have := (insertNode_perm x pool).flatMap_right fun n => n.t.leaves
  simpa [poolLeaves] using this

theorem foldl_insertNode_perm (ps : List ((Word × Nat) × Nat)) (pool : List PoolNode) :
    (ps.foldl (fun pool p => insertNode { w := p.1.2, q := p.2, t := .leaf p.1.1 } pool) pool).Perm
      (ps.map (fun p => ({ w := p.1.2, q := p.2, t := .leaf p.1.1 } : PoolNode)) ++ pool) := by
  induction ps generalizing pool with
  | nil => exact List.Perm.refl _
  | cons p ps ih =>
    refine (ih _).trans ?_
    refine ((insertNode_perm _ pool).append_left _).trans ?_
    simp only [List.map_cons, List.cons_append]
    exact List.perm_middle

theorem initialPool_length (freqs : List (Word × Nat)) : (initialPool freqs).length = freqs.length := by
  have := (foldl_insertNode_perm freqs.zipIdx []).length_eq
  simpa [initialPool] using this

theorem initialPool_leaves (freqs : List (Word × Nat)) :
    (poolLeaves (initialPool freqs)).Perm (freqs.map Prod.fst) := by
  have h := (foldl_insertNode_perm freqs.zipIdx []).flatMap_right fun n => n.t.leaves
  refine h.trans (List.Perm.of_eq ?_)
  rw [List.append_nil, List.flatMap_map]
  have : ∀ ps : List ((Word × Nat) × Nat),
      ps.flatMap (fun p => HTree.leaves (.leaf p.1.1)) = (ps.map Prod.fst).map Prod.fst := by
    intro ps
    induction ps with
    | nil => rfl
    | cons p ps ih => rw [List.flatMap_cons, ih]; rfl
  rw [this, List.zipIdx_map_fst]

/-- Enough fuel merges a nonempty pool into one tree with the pool's leaves. -/
theorem mergePool_some {fuel next : Nat} {pool : List PoolNode} (h0 : pool ≠ []) (h : pool.length ≤ fuel + 1) :
    ∃ t, mergePool fuel next pool = some t ∧ t.leaves.Perm (poolLeaves pool) := by
  induction fuel generalizing next pool with
  | zero =>
    match pool, h0 with
    | [a], _ => exact ⟨a.t, rfl, by simp [poolLeaves]⟩
    | _ :: _ :: _, _ => simp at h
  | succ fuel ih =>
    match pool, h0 with
    | [a], _ => exact ⟨a.t, rfl, by simp [poolLeaves]⟩
    | a :: b :: rest, _ =>
      have hp := insertNode_perm { w := a.w + b.w, q := next, t := .node a.t b.t } rest
      have hl := hp.length_eq
      obtain ⟨t, ht, hlv⟩ := ih (next := next + 1)
        (pool := insertNode { w := a.w + b.w, q := next, t := .node a.t b.t } rest)
        (by intro he; rw [he] at hl; simp at hl)
        (by rw [hl]; simp only [List.length_cons] at h ⊢; omega)
      refine ⟨t, ht, hlv.trans ((poolLeaves_insertNode _ _).trans (List.Perm.of_eq ?_))⟩
      simp [poolLeaves, HTree.leaves]

theorem buildTree_nil : buildTree [] = none := rfl

theorem freqTable_ne_nil {s : List Word} (h : s ≠ []) : freqTable s ≠ [] := by
  intro he
  obtain ⟨v, hv⟩ := List.exists_mem_of_ne_nil s h
  have := mem_freqTable_keys.mpr hv
  simp [he] at this

/-- A nonempty sequence has a tree whose leaves are its distinct values (46_entropy R239, R241). -/
theorem buildTree_some {s : List Word} (h : s ≠ []) :
    ∃ t, buildTree s = some t ∧ t.leaves.Perm s.dedup := by
  have hl := initialPool_length (freqTable s)
  have hn := freqTable_ne_nil h
  obtain ⟨t, ht, hp⟩ := mergePool_some (fuel := (freqTable s).length) (next := (freqTable s).length)
    (pool := initialPool (freqTable s)) (by intro he; rw [he] at hl; exact hn (List.length_eq_zero_iff.mp hl.symm))
    (by omega)
  refine ⟨t, ht, hp.trans ((initialPool_leaves _).trans ?_)⟩
  rw [List.perm_ext_iff_of_nodup (freqTable_rising s).nodup (List.nodup_dedup s)]
  intro a
  rw [mem_freqTable_keys, List.mem_dedup]

/-- The tree is the same for two sequences with the same frequency table (46_entropy R238). -/
theorem buildTree_congr {s s' : List Word} (h : freqTable s = freqTable s') : buildTree s = buildTree s' := by
  simp only [buildTree, h]

/-! ### The codebook (46_entropy R241, R242) -/

theorem HTree.paths_keys (t : HTree) : t.paths.map Prod.fst = t.leaves := by
  induction t with
  | leaf v => rfl
  | node l r ihl ihr =>
    simp only [paths, leaves, List.map_append, List.map_map, ← ihl, ← ihr]
    rfl

theorem HTree.codebook_keys (t : HTree) : t.codebook.map Prod.fst = t.leaves := by
  cases t with
  | leaf v => rfl
  | node l r => exact paths_keys _

theorem lookup_some_of_mem {cb : List (Word × Bits)} {v : Word} (h : v ∈ cb.map Prod.fst) :
    ∃ c, cb.lookup v = some c := by
  induction cb with
  | nil => simp at h
  | cons p cb ih =>
    obtain ⟨u, d⟩ := p
    rw [List.lookup_cons]
    cases hu : v == u
    · rcases List.mem_cons.mp h with he | he
      · simp at hu; exact absurd he hu
      · exact ih he
    · exact ⟨d, rfl⟩

theorem mem_of_lookup {cb : List (Word × Bits)} {v : Word} {c : Bits} (h : cb.lookup v = some c) : (v, c) ∈ cb := by
  induction cb with
  | nil => simp at h
  | cons p cb ih =>
    obtain ⟨u, d⟩ := p
    rw [List.lookup_cons] at h
    cases hu : v == u
    · rw [hu] at h; exact List.mem_cons_of_mem _ (ih h)
    · rw [hu] at h
      simp only [Option.some.injEq] at h
      rw [eq_of_beq hu, h]
      exact List.mem_cons_self

/-- Every value with a codebook entry can be encoded (46_entropy R247). -/
theorem encodeValues_some {cb : List (Word × Bits)} {s : List Word} (h : ∀ v ∈ s, v ∈ cb.map Prod.fst) :
    ∃ cs, encodeValues cb s = some cs := by
  induction s with
  | nil => exact ⟨[], rfl⟩
  | cons v s ih =>
    obtain ⟨c, hc⟩ := lookup_some_of_mem (h v (by simp))
    obtain ⟨cs, hcs⟩ := ih fun u hu => h u (by simp [hu])
    exact ⟨c ++ cs, by simp [encodeValues, hc, hcs]⟩

theorem encodeValues_cons {cb : List (Word × Bits)} {v : Word} {s : List Word} {cs : Bits}
    (h : encodeValues cb (v :: s) = some cs) :
    ∃ c ds, cb.lookup v = some c ∧ encodeValues cb s = some ds ∧ cs = c ++ ds := by
  unfold encodeValues at h
  split at h
  · next c ds h1 h2 => exact ⟨c, ds, h1, h2, (Option.some.inj h).symm⟩
  · cases h

theorem encodeValues_length {cb : List (Word × Bits)} {s : List Word} {cs : Bits} (h : encodeValues cb s = some cs) :
    cs.length = (s.map fun v => ((cb.lookup v).getD []).length).sum := by
  induction s generalizing cs with
  | nil => cases h; rfl
  | cons v s ih =>
    obtain ⟨c, ds, h1, h2, rfl⟩ := encodeValues_cons h
    simp [h1, ih h2]

/-- The three parts of a nonempty encoding (46_entropy R243). -/
theorem huffEnc_cons {s : List Word} (hs : s ≠ []) :
    ∃ t cs, buildTree s = some t ∧ t.leaves.Perm s.dedup ∧ encodeValues t.codebook s = some cs ∧
      huffEnc s = some (section64 t.ser ++ section64 cs) := by
  obtain ⟨t, ht, hp⟩ := buildTree_some hs
  obtain ⟨cs, hcs⟩ := encodeValues_some (cb := t.codebook) (s := s) fun v hv => by
    rw [HTree.codebook_keys]
    exact hp.mem_iff.mpr (List.mem_dedup.mpr hv)
  refine ⟨t, cs, ht, hp, hcs, ?_⟩
  have : s.isEmpty = false := by simpa using hs
  simp [huffEnc, this, ht, hcs]

/-! ### Sections of bits (30_encoding R115, R116) -/

theorem bits32_length (w : Word) : (bits32 w).length = 32 := by simp [bits32]

/-- `|SerTree(T)| = 34·n - 1` (30_encoding R115). -/
theorem HTree.ser_length (t : HTree) : t.ser.length + 1 = 34 * t.leaves.length := by
  induction t with
  | leaf v => simp [ser, leaves, bits32_length]
  | node l r ihl ihr => simp only [ser, leaves, List.length_append, List.length_cons]; omega

theorem pad64_length (s : Bits) : (pad64 s).length = 64 * ((s.length + 63) / 64) := by
  simp only [pad64, List.length_append, List.length_replicate]; omega

theorem pad64_getElem? {s : Bits} {j : Nat} (h : j < s.length) : (pad64 s)[j]? = s[j]? := by
  rw [pad64, List.getElem?_append_left h]

theorem bytesOfBits_length : ∀ s : Bits, (bytesOfBits s).length = s.length / 8
  | [] => rfl
  | [_] => by simp [bytesOfBits]
  | [_, _] => by simp [bytesOfBits]
  | [_, _, _] => by simp [bytesOfBits]
  | [_, _, _, _] => by simp [bytesOfBits]
  | [_, _, _, _, _] => by simp [bytesOfBits]
  | [_, _, _, _, _, _] => by simp [bytesOfBits]
  | [_, _, _, _, _, _, _] => by simp [bytesOfBits]
  | _ :: _ :: _ :: _ :: _ :: _ :: _ :: _ :: rest => by
    simp only [bytesOfBits, List.length_cons, bytesOfBits_length rest]; omega

theorem section64_length (s : Bits) : (section64 s).length = 8 * ((s.length + 63) / 64) := by
  rw [section64, bytesOfBits_length, pad64_length]; omega

theorem byteOfBits_getMsbD (b7 b6 b5 b4 b3 b2 b1 b0 : Bool) (r : Nat) (hr : r < 8) :
    [b7, b6, b5, b4, b3, b2, b1, b0][r]? = some ((byteOfBits b7 b6 b5 b4 b3 b2 b1 b0).getMsbD r) := by
  interval_cases r <;> revert b7 b6 b5 b4 b3 b2 b1 b0 <;> decide

theorem bytesOfBits_getMsbD : ∀ (s : Bits) (k : Nat) (x : Byte), (bytesOfBits s)[k / 8]? = some x →
    s[k]? = some (x.getMsbD (k % 8))
  | [], k, x, h => by simp [bytesOfBits] at h
  | [_], k, x, h => by simp [bytesOfBits] at h
  | [_, _], k, x, h => by simp [bytesOfBits] at h
  | [_, _, _], k, x, h => by simp [bytesOfBits] at h
  | [_, _, _, _], k, x, h => by simp [bytesOfBits] at h
  | [_, _, _, _, _], k, x, h => by simp [bytesOfBits] at h
  | [_, _, _, _, _, _], k, x, h => by simp [bytesOfBits] at h
  | [_, _, _, _, _, _, _], k, x, h => by simp [bytesOfBits] at h
  | b7 :: b6 :: b5 :: b4 :: b3 :: b2 :: b1 :: b0 :: rest, k, x, h => by
    by_cases hk : k < 8
    · have h0 : k / 8 = 0 := by omega
      rw [h0] at h
      simp only [bytesOfBits, List.getElem?_cons_zero, Option.some.injEq] at h
      have := byteOfBits_getMsbD b7 b6 b5 b4 b3 b2 b1 b0 k hk
      rw [← h, Nat.mod_eq_of_lt hk, ← this]
      exact (List.getElem?_append_left (l₁ := [b7, b6, b5, b4, b3, b2, b1, b0]) (l₂ := rest) (by simpa using hk))
    · obtain ⟨j, rfl⟩ : ∃ j, k = 8 + j := ⟨k - 8, by omega⟩
      have h1 : (8 + j) / 8 = j / 8 + 1 := by omega
      rw [h1] at h
      simp only [bytesOfBits, List.getElem?_cons_succ] at h
      have ih := bytesOfBits_getMsbD rest j x h
      have h2 : (8 + j) % 8 = j % 8 := by omega
      rw [h2, ← ih]
      rw [show b7 :: b6 :: b5 :: b4 :: b3 :: b2 :: b1 :: b0 :: rest =
        [b7, b6, b5, b4, b3, b2, b1, b0] ++ rest from rfl, List.getElem?_append_right (by simp)]
      simp

/-! ### The decoder reads bits (30_encoding R118) -/

/-- The bits from position `k` are `bs`. -/
def BitsAt (src : BitSource) (k : Nat) (bs : Bits) : Prop := ∀ j b, bs[j]? = some b → readBit src (k + j) = .ok b

theorem BitsAt.head {src : BitSource} {k : Nat} {b : Bool} {bs : Bits} (h : BitsAt src k (b :: bs)) :
    readBit src k = .ok b := by simpa using h 0 b rfl

theorem BitsAt.tail {src : BitSource} {k : Nat} {b : Bool} {bs : Bits} (h : BitsAt src k (b :: bs)) :
    BitsAt src (k + 1) bs := by
  intro j c hc
  have := h (j + 1) c (by simpa using hc)
  rwa [show k + 1 + j = k + (j + 1) by omega]

theorem BitsAt.left {src : BitSource} {k : Nat} {as bs : Bits} (h : BitsAt src k (as ++ bs)) : BitsAt src k as := by
  intro j c hc
  have hj : j < as.length := (List.getElem?_eq_some_iff.mp hc).1
  exact h j c (by rw [List.getElem?_append_left hj, hc])

theorem BitsAt.right {src : BitSource} {k : Nat} {as bs : Bits} (h : BitsAt src k (as ++ bs)) :
    BitsAt src (k + as.length) bs := by
  intro j c hc
  have := h (as.length + j) c (by rw [List.getElem?_append_right (by omega)]; simpa using hc)
  rwa [Nat.add_assoc]

/-- The bits of a section that lies `off` bytes into the input. -/
theorem bitsAt_section64 {src : BitSource} {off : Nat} {s : Bits} (hb : BytesAt src.mem (src.base + off) (section64 s))
    (hl : off + (section64 s).length ≤ src.len) : BitsAt src (8 * off) s := by
  intro j b hj
  have hjl : j < s.length := (List.getElem?_eq_some_iff.mp hj).1
  have hlen := section64_length s
  have hq : j / 8 < (section64 s).length := by omega
  have hx := List.getElem?_eq_getElem hq
  have hm := bytesOfBits_getMsbD (pad64 s) j _ hx
  rw [pad64_getElem? hjl, hj] at hm
  have hbyte := hb (j / 8) _ hx
  unfold readBit
  rw [if_neg (by omega), show (8 * off + j) / 8 = off + j / 8 by omega, show (8 * off + j) % 8 = j % 8 by omega,
    ← Nat.add_assoc, engineRead_ok.mpr hbyte]
  simp only [ok_bind, pure_eq_ok]
  exact congrArg Except.ok (Option.some.inj hm).symm

/-- The value of a bit string, most significant bit first, after the value `v`. -/
def bitsValue (bs : Bits) (v : Nat) : Nat := bs.foldl (fun v b => 2 * v + b.toNat) v

theorem readBits_of_bitsAt {src : BitSource} {bs : Bits} {k v : Nat} (h : BitsAt src k bs) :
    readBits src bs.length k v = .ok (bitsValue bs v) := by
  induction bs generalizing k v with
  | nil => rfl
  | cons b bs ih =>
    simp only [List.length_cons, readBits, h.head, ok_bind, ih h.tail]
    rfl

theorem bitsValue_msb (w : Word) (n : Nat) (hn : n ≤ 32) :
    bitsValue ((List.range n).map fun k => w.getMsbD k) 0 = w.toNat / 2 ^ (32 - n) := by
  induction n with
  | zero => simp [bitsValue, Nat.div_eq_of_lt w.isLt]
  | succ n ih =>
    have ih := ih (by omega)
    rw [bitsValue] at ih ⊢
    rw [List.range_succ, List.map_append, List.foldl_append, ih]
    simp only [List.map_cons, List.map_nil, List.foldl_cons, List.foldl_nil]
    have hb : (w.getMsbD n).toNat = w.toNat / 2 ^ (31 - n) % 2 := by
      rw [BitVec.getMsbD, BitVec.getLsbD, Nat.testBit_eq_decide_div_mod_eq]
      have h1 : decide (n < 32) = true := by simp; omega
      rw [h1, Bool.true_and, show 32 - 1 - n = 31 - n by omega]
      rcases Nat.mod_two_eq_zero_or_one (w.toNat / 2 ^ (31 - n)) with h | h <;> simp [h]
    rw [hb, show 32 - n = (31 - n) + 1 by omega, show 32 - (n + 1) = 31 - n by omega, pow_succ, ← Nat.div_div_eq_div_mul]
    omega

theorem readBits_bits32 {src : BitSource} {k : Nat} {w : Word} (h : BitsAt src k (bits32 w)) :
    readBits src 32 k 0 = .ok w.toNat := by
  have h1 := readBits_of_bitsAt (v := 0) h
  rw [bits32_length] at h1
  rw [h1, bits32, bitsValue_msb w 32 (le_refl _)]
  simp

/-! ### The decoder reads back what the encoder wrote (46_entropy R251, R253) -/

/-- The tree parse reads back the tree that was serialized, if it is within the node limit. -/
theorem parseTree_ser {src : BitSource} {limit fuel k m : Nat} {t : HTree} (h : BitsAt src k t.ser)
    (hf : t.nodes ≤ fuel) (hm : m + t.nodes ≤ limit) :
    parseTree src limit fuel k m = .ok (t, k + t.ser.length, m + t.nodes) := by
  induction t generalizing fuel k m with
  | leaf v =>
    obtain ⟨f, rfl⟩ : ∃ f, fuel = f + 1 := ⟨fuel - 1, by simp [HTree.nodes] at hf; omega⟩
    simp only [HTree.nodes] at hm
    simp only [HTree.ser] at h
    rw [parseTree, if_neg (by omega), h.head]
    simp only [ok_bind, if_true, readBits_bits32 h.tail, pure_eq_ok, HTree.ser, HTree.nodes, List.length_cons,
      bits32_length, BitVec.ofNat_toNat, BitVec.setWidth_eq]
  | node l r ihl ihr =>
    obtain ⟨f, rfl⟩ : ∃ f, fuel = f + 1 := ⟨fuel - 1, by simp [HTree.nodes] at hf; omega⟩
    simp only [HTree.nodes] at hf hm
    simp only [HTree.ser] at h
    have hl := h.tail.left
    have hr := h.tail.right
    rw [parseTree, if_neg (by omega), h.head]
    simp only [ok_bind, Bool.false_eq_true, if_false, ihl (fuel := f) (m := m + 1) hl (by omega) (by omega),
      ihr (fuel := f) (m := m + 1 + l.nodes) hr (by omega) (by omega), pure_eq_ok, HTree.ser, HTree.nodes,
      List.length_cons, List.length_append]
    rw [show k + 1 + l.ser.length + r.ser.length = k + (l.ser.length + r.ser.length + 1) by omega,
      show m + 1 + l.nodes + r.nodes = m + (1 + (l.nodes + r.nodes)) by omega]

theorem walkTree_path {src : BitSource} {t : HTree} {k : Nat} {v : Word} {c : Bits} (hp : (v, c) ∈ t.paths)
    (h : BitsAt src k c) : walkTree src t k = .ok (v, k + c.length) := by
  induction t generalizing k c with
  | leaf u =>
    simp only [HTree.paths, List.mem_singleton, Prod.mk.injEq] at hp
    obtain ⟨rfl, rfl⟩ := hp
    rfl
  | node l r ihl ihr =>
    simp only [HTree.paths, List.mem_append, List.mem_map, Prod.mk.injEq, Prod.exists] at hp
    rcases hp with ⟨a, b, hab, rfl, rfl⟩ | ⟨a, b, hab, rfl, rfl⟩
    · simp only [walkTree, h.head, ok_bind, Bool.false_eq_true, if_false, ihl hab h.tail, List.length_cons]
      congr 2; omega
    · simp only [walkTree, h.head, ok_bind, if_true, ihr hab h.tail, List.length_cons]
      congr 2; omega

theorem decodeValue_code {src : BitSource} {t : HTree} {k : Nat} {v : Word} {c : Bits} (hc : (v, c) ∈ t.codebook)
    (h : BitsAt src k c) : decodeValue src t k = .ok (v, k + c.length) := by
  cases t with
  | leaf u =>
    simp only [HTree.codebook, List.mem_singleton, Prod.mk.injEq] at hc
    obtain ⟨rfl, rfl⟩ := hc
    simp only [decodeValue, h.head, ok_bind, Bool.false_eq_true, if_false, pure_eq_ok, List.length_singleton]
  | node l r => exact walkTree_path hc h

theorem decodeStream_encodeValues {src : BitSource} {t : HTree} {k : Nat} {s : List Word} {cs : Bits}
    (he : encodeValues t.codebook s = some cs) (h : BitsAt src k cs) : decodeStream src t s.length k = .ok s := by
  induction s generalizing k cs with
  | nil => rfl
  | cons v s ih =>
    obtain ⟨c, ds, h1, h2, rfl⟩ := encodeValues_cons he
    simp only [List.length_cons, decodeStream, decodeValue_code (mem_of_lookup h1) h.left, ok_bind, ih h2 h.right,
      pure_eq_ok]

end Sys2Proof.Machine
end

