-- ==== Sys2Proof/Laws/Bytes.lean ====
section
/-!
SUPPORT. Laws of byte strings and 32-bit values in memory: big-endian bytes and their value undo each other, and
what `wordAt` reads after a store of 32-bit values.
-/

namespace Sys2Proof.Machine

/-! ### Big-endian values (20_memory R63) -/

@[simp] theorem beBytes_length (n v : Nat) : (beBytes n v).length = n := by simp [beBytes]

theorem beValue_append (xs : List Byte) (b : Byte) : beValue (xs ++ [b]) = beValue xs * 256 + b.toNat := by
  simp [beValue]

theorem beBytes_succ (n v : Nat) : beBytes (n + 1) v = beBytes n (v / 256) ++ [BitVec.ofNat 8 v] := by
  simp only [beBytes, List.range_succ, List.map_append, List.map_cons, List.map_nil]
  congr 1
  · refine List.map_congr_left fun j hj => ?_
    have hj := List.mem_range.mp hj
    have : n + 1 - 1 - j = (n - 1 - j) + 1 := by omega
    rw [this, Nat.pow_succ, Nat.mul_comm, Nat.div_div_eq_div_mul]
  · simp

/-- The bytes of a value have it as their value (20_memory R63). -/
theorem beValue_beBytes (n v : Nat) : beValue (beBytes n v) = v % 256 ^ n := by
  induction n generalizing v with
  | zero => simp [beBytes, beValue, Nat.mod_one]
  | succ n ih =>
    have h : v % 256 ^ (n + 1) = v % 256 + 256 * (v / 256 % 256 ^ n) := by
      rw [Nat.pow_succ, Nat.mul_comm (256 ^ n) 256, Nat.mod_mul]
    rw [beBytes_succ, beValue_append, ih, BitVec.toNat_ofNat, h]
    omega

theorem beValue_lt (bs : List Byte) : beValue bs < 256 ^ bs.length := by
  induction bs using List.reverseRecOn with
  | nil => simp [beValue]
  | append_singleton xs b ih =>
    rw [beValue_append, List.length_append, List.length_singleton, Nat.pow_succ]
    have := b.isLt
    omega

@[simp] theorem wordBytes_length (w : Word) : (wordBytes w).length = 4 := beBytes_length 4 _

/-- The four bytes of a 32-bit value have it as their value. -/
theorem ofNat_beValue_wordBytes (w : Word) : BitVec.ofNat 32 (beValue (wordBytes w)) = w := by
  rw [wordBytes, beValue_beBytes]
  have : w.toNat % 256 ^ 4 = w.toNat := Nat.mod_eq_of_lt (by have := w.isLt; omega)
  rw [this, BitVec.ofNat_toNat, BitVec.setWidth_eq]

/-- The four bytes of a 32-bit value, one by one. -/
theorem wordBytes_cons (w : Word) : ∃ b0 b1 b2 b3, wordBytes w = [b0, b1, b2, b3] := by
  refine ⟨_, _, _, _, rfl⟩

/-! ### 32-bit values as bytes (20_memory R68, R69) -/

theorem wordsToBytes_cons (w : Word) (ws : List Word) : wordsToBytes (w :: ws) = wordBytes w ++ wordsToBytes ws := rfl

@[simp] theorem wordsToBytes_length (ws : List Word) : (wordsToBytes ws).length = 4 * ws.length := by
  induction ws with
  | nil => rfl
  | cons w ws ih => rw [wordsToBytes_cons, List.length_append, ih, wordBytes_length, List.length_cons]; omega

/-- Values written as bytes are read back as they were. -/
theorem bytesToWords_wordsToBytes (ws : List Word) : bytesToWords (wordsToBytes ws) = ws := by
  induction ws with
  | nil => rfl
  | cons w ws ih =>
    obtain ⟨b0, b1, b2, b3, h⟩ := wordBytes_cons w
    rw [wordsToBytes_cons, h]
    simp only [List.cons_append, List.nil_append, bytesToWords, ih]
    rw [← h, ofNat_beValue_wordBytes]

theorem bytesToWords_length : ∀ bs : List Byte, (bytesToWords bs).length = bs.length / 4
  | [] => by simp [bytesToWords]
  | [_] => by simp [bytesToWords]
  | [_, _] => by simp [bytesToWords]
  | [_, _, _] => by simp [bytesToWords]
  | b0 :: b1 :: b2 :: b3 :: rest => by
    simp only [bytesToWords, List.length_cons, bytesToWords_length rest]
    omega

theorem wordsToBytes_getElem (ws : List Word) (i k : Nat) (hk : k < 4) :
    (wordsToBytes ws)[4 * i + k]? = (ws[i]?).bind fun w => (wordBytes w)[k]? := by
  induction ws generalizing i with
  | nil => simp [wordsToBytes]
  | cons w ws ih =>
    rw [wordsToBytes_cons]
    cases i with
    | zero => rw [List.getElem?_append_left (by simpa using hk)]; simp
    | succ i =>
      rw [List.getElem?_append_right (by simp; omega), wordBytes_length,
        (by omega : 4 * (i + 1) + k - 4 = 4 * i + k), ih]
      simp

/-- `wordAt` after a store of 32-bit values. -/
theorem wordAt_storeBytes {m : Memory} {a : Nat} {ws : List Word} {i : Nat} (h : i < ws.length) :
    wordAt (storeBytes m a (wordsToBytes ws)) (a + 4 * i) = some ws[i] := by
  have key : ∀ k, k < 4 → byteAt (storeBytes m a (wordsToBytes ws)) (a + 4 * i + k) = (wordBytes ws[i])[k]? := by
    intro k hk
    rw [byteAt_storeBytes, if_pos (by rw [wordsToBytes_length]; omega),
      (by omega : a + 4 * i + k - a = 4 * i + k), wordsToBytes_getElem _ _ _ hk, List.getElem?_eq_getElem h]
    rfl
  obtain ⟨b0, b1, b2, b3, hw⟩ := wordBytes_cons ws[i]
  have h0 := key 0 (by omega)
  have h1 := key 1 (by omega)
  have h2 := key 2 (by omega)
  have h3 := key 3 (by omega)
  rw [hw] at h0 h1 h2 h3
  simp only [wordAt]
  rw [show a + 4 * i = a + 4 * i + 0 from rfl, h0, h1, h2, h3]
  simp only [List.getElem?_cons_zero, List.getElem?_cons_succ]
  rw [← hw, ofNat_beValue_wordBytes]

theorem wordAt_eq_some {m : Memory} {a : Nat} {w : Word} (h : wordAt m a = some w) :
    ∃ b0 b1 b2 b3, byteAt m a = some b0 ∧ byteAt m (a + 1) = some b1 ∧ byteAt m (a + 2) = some b2 ∧
      byteAt m (a + 3) = some b3 ∧ w = BitVec.ofNat 32 (beValue [b0, b1, b2, b3]) := by
  unfold wordAt at h
  split at h
  · rename_i b0 b1 b2 b3 h0 h1 h2 h3
    exact ⟨b0, b1, b2, b3, h0, h1, h2, h3, (by simpa using h.symm)⟩
  · cases h

/-- A window whose 32-bit values are known is read as those values. -/
theorem readWindow_words {m : Memory} {a n : Nat} {f : Nat → Word}
    (h : ∀ i, i < n → wordAt m (a + 4 * i) = some (f i)) :
    ∃ bs, readWindow m a (4 * n) = .ok bs ∧ bytesToWords bs = (List.range n).map f := by
  induction n generalizing a f with
  | zero => exact ⟨[], rfl, rfl⟩
  | succ n ih =>
    obtain ⟨b0, b1, b2, b3, h0, h1, h2, h3, hw⟩ := wordAt_eq_some (h 0 (by omega))
    obtain ⟨bs, hbs, hws⟩ := ih (a := a + 4) (f := fun i => f (i + 1)) fun i hi => by
      have := h (i + 1) (by omega)
      rw [(by omega : a + 4 * (i + 1) = a + 4 + 4 * i)] at this
      exact this
    refine ⟨b0 :: b1 :: b2 :: b3 :: bs, ?_, ?_⟩
    · rw [readWindow, engineReads_ok] at hbs ⊢
      rw [(by omega : 4 * (n + 1) = 4 * n + 1 + 1 + 1 + 1)]
      simp only [List.range'_succ, List.map_cons]
      simp only [Nat.mul_zero, Nat.add_zero] at h0 h1 h2 h3
      rw [h0, h1, h2, h3, (by rfl : a + 1 + 1 + 1 + 1 = a + 4), hbs]
    · simp only [bytesToWords, hws, List.range_succ_eq_map, List.map_cons, List.map_map]
      rw [← hw]
      rfl

end Sys2Proof.Machine
end

