-- ==== Sys2Proof/Laws/Grid.lean ====
section
/-!
SUPPORT. Lists laid out as grids: the index lists of the sampler and the tiler, and the lengths of planes and blocks.
-/

namespace Sys2Proof.Machine

variable {α β : Type}

/-! ### Rows of equal length -/

theorem flatMap_range_length {a b : Nat} {g : Nat → List α} (h : ∀ j, j < a → (g j).length = b) :
    ((List.range a).flatMap g).length = a * b := by
  induction a with
  | zero => simp
  | succ a ih =>
    rw [List.range_succ, List.flatMap_append, List.length_append, ih fun j hj => h j (by omega)]
    simp [h a (by omega), Nat.succ_mul]

theorem flatMap_range_getElem? {a b : Nat} {g : Nat → List α} (h : ∀ j, j < a → (g j).length = b) {j i : Nat}
    (hj : j < a) (hi : i < b) : ((List.range a).flatMap g)[j * b + i]? = (g j)[i]? := by
  induction a with
  | zero => omega
  | succ a ih =>
    have hl := flatMap_range_length (a := a) (b := b) (g := g) fun j hj => h j (by omega)
    rw [List.range_succ, List.flatMap_append]
    by_cases hja : j < a
    · have : j * b + i < a * b := by
        calc j * b + i < j * b + b := by omega
          _ = (j + 1) * b := by rw [Nat.succ_mul]
          _ ≤ a * b := Nat.mul_le_mul_right b hja
      rw [List.getElem?_append_left (by rw [hl]; exact this), ih (fun j hj => h j (by omega)) hja]
    · obtain rfl : j = a := by omega
      rw [List.getElem?_append_right (by rw [hl]; omega), hl]
      simp

/-- Every index of a grid is a row and a column. -/
theorem grid_index {a b k : Nat} (h : k < a * b) : ∃ j i, j < a ∧ i < b ∧ k = j * b + i := by
  have hb : 0 < b := Nat.pos_of_ne_zero fun h0 => by simp [h0] at h
  refine ⟨k / b, k % b, Nat.div_lt_of_lt_mul (by rwa [Nat.mul_comm] at h), Nat.mod_lt _ hb, ?_⟩
  rw [Nat.mul_comm]; exact (Nat.div_add_mod k b).symm

theorem grid_index_lt {a b j i : Nat} (hj : j < a) (hi : i < b) : j * b + i < a * b := by
  calc j * b + i < j * b + b := by omega
    _ = (j + 1) * b := by rw [Nat.succ_mul]
    _ ≤ a * b := Nat.mul_le_mul_right b hj

/-- Two lists of `a` rows of `b` entries that agree at every row and column are equal. -/
theorem grid_ext {a b : Nat} {xs ys : List α} (hx : xs.length = a * b) (hy : ys.length = a * b)
    (h : ∀ j i, j < a → i < b → xs[j * b + i]? = ys[j * b + i]?) : xs = ys := by
  apply List.ext_getElem?
  intro k
  by_cases hk : k < a * b
  · obtain ⟨j, i, hj, hi, rfl⟩ := grid_index hk
    exact h j i hj hi
  · rw [List.getElem?_eq_none (by omega), List.getElem?_eq_none (by omega)]

/-! ### The sampler's indices (42_subsample R172, R174) -/

theorem subsampleIndices_length (w h : Nat) : (subsampleIndices w h).length = (h / 2) * (w / 2) :=
  flatMap_range_length fun j _ => by simp [halfDim]

theorem subsampleIndices_getElem? {w h i j : Nat} (hi : i < w / 2) (hj : j < h / 2) :
    (subsampleIndices w h)[j * (w / 2) + i]? = some (2 * j * w + 2 * i) := by
  simp only [subsampleIndices, halfDim]
  rw [flatMap_range_getElem? (b := w / 2) (fun j _ => by simp) hj hi]
  simp [List.getElem?_range hi]

theorem mem_subsampleIndices {w h k : Nat} (hk : k ∈ subsampleIndices w h) :
    ∃ i j, i < w / 2 ∧ j < h / 2 ∧ k = 2 * j * w + 2 * i := by
  simp only [subsampleIndices, List.mem_flatMap, List.mem_map, List.mem_range, halfDim] at hk
  obtain ⟨j, hj, i, hi, rfl⟩ := hk
  exact ⟨i, j, hi, hj, rfl⟩

theorem subsampleIndices_lt {w h k : Nat} (hk : k ∈ subsampleIndices w h) : k < w * h := by
  obtain ⟨i, j, hi, hj, rfl⟩ := mem_subsampleIndices hk
  rw [Nat.mul_comm w h]
  exact grid_index_lt (by omega) (by omega)

theorem upsampleIndices_length (w h : Nat) : (upsampleIndices w h).length = h * w :=
  flatMap_range_length fun j _ => by simp

theorem upsampleIndices_getElem? {w h x y : Nat} (hx : x < w) (hy : y < h) :
    (upsampleIndices w h)[y * w + x]? = some (min (y / 2) (h / 2 - 1) * (w / 2) + min (x / 2) (w / 2 - 1)) := by
  rw [upsampleIndices, flatMap_range_getElem? (b := w) (fun j _ => by simp) hy hx]
  simp [List.getElem?_range hx, halfDim]

theorem mem_upsampleIndices {w h k : Nat} (hk : k ∈ upsampleIndices w h) :
    ∃ x y, x < w ∧ y < h ∧ k = min (y / 2) (h / 2 - 1) * (w / 2) + min (x / 2) (w / 2 - 1) := by
  simp only [upsampleIndices, List.mem_flatMap, List.mem_map, List.mem_range, halfDim] at hk
  obtain ⟨y, hy, x, hx, rfl⟩ := hk
  exact ⟨x, y, hx, hy, rfl⟩

theorem chromaEmpty_iff {w h : Nat} : chromaEmpty w h = true ↔ w / 2 = 0 ∨ h / 2 = 0 := by
  simp [chromaEmpty, halfDim]

theorem upsampleIndices_lt {w h k : Nat} (hc : ¬ (w / 2 = 0 ∨ h / 2 = 0)) (hk : k ∈ upsampleIndices w h) :
    k < (w / 2) * (h / 2) := by
  obtain ⟨x, y, hx, hy, rfl⟩ := mem_upsampleIndices hk
  rw [Nat.mul_comm (w / 2) (h / 2)]
  exact grid_index_lt (by omega) (by omega)

theorem subsample_length (p : List Byte) (w h : Nat) : (subsample p w h).length = (w / 2) * (h / 2) := by
  simp [subsample, subsampleIndices_length, Nat.mul_comm]

theorem upsample_length (p : List Byte) (w h : Nat) : (upsample p w h).length = w * h := by
  unfold upsample
  split_ifs <;> simp [upsampleIndices_length, Nat.mul_comm]

/-! ### The tiler's indices (43_tiler R186, R188) -/

/-- The elements of one tile. -/
def tileRow (w h tx ty : Nat) : List (Option Nat) :=
  (List.range 8).flatMap fun r => (List.range 8).map fun c =>
    if 8 * tx + c < w ∧ 8 * ty + r < h then some ((8 * ty + r) * w + (8 * tx + c)) else none

theorem tileIndices_eq (w h : Nat) : tileIndices w h =
    (List.range (ceil8 h)).flatMap fun ty => (List.range (ceil8 w)).flatMap fun tx => tileRow w h tx ty := rfl

theorem tileRow_length (w h tx ty : Nat) : (tileRow w h tx ty).length = 64 :=
  flatMap_range_length (a := 8) (b := 8) fun j _ => by simp

theorem tileRow_getElem? {w h tx ty r c : Nat} (hr : r < 8) (hc : c < 8) :
    (tileRow w h tx ty)[8 * r + c]? =
      some (if 8 * tx + c < w ∧ 8 * ty + r < h then some ((8 * ty + r) * w + (8 * tx + c)) else none) := by
  rw [Nat.mul_comm 8 r, tileRow, flatMap_range_getElem? (b := 8) (fun j _ => by simp) hr hc]
  simp [List.getElem?_range hc]

theorem tileIndices_length (w h : Nat) : (tileIndices w h).length = 64 * tiles w h := by
  rw [tileIndices_eq, flatMap_range_length (b := ceil8 w * 64)
    (fun ty _ => flatMap_range_length fun tx _ => tileRow_length w h tx ty), tiles]
  ring

theorem tileIndices_getElem? {w h tx ty r c : Nat} (htx : tx < ceil8 w) (hty : ty < ceil8 h) (hr : r < 8) (hc : c < 8) :
    (tileIndices w h)[64 * (ty * ceil8 w + tx) + (8 * r + c)]? =
      some (if 8 * tx + c < w ∧ 8 * ty + r < h then some ((8 * ty + r) * w + (8 * tx + c)) else none) := by
  have hi : tx * 64 + (8 * r + c) < ceil8 w * 64 := grid_index_lt htx (by omega)
  rw [show 64 * (ty * ceil8 w + tx) + (8 * r + c) = ty * (ceil8 w * 64) + (tx * 64 + (8 * r + c)) by ring,
    tileIndices_eq, flatMap_range_getElem? (b := ceil8 w * 64)
      (fun ty _ => flatMap_range_length fun tx _ => tileRow_length w h tx ty) hty hi,
    flatMap_range_getElem? (b := 64) (fun tx _ => tileRow_length w h tx ty) htx (by omega), tileRow_getElem? hr hc]

theorem mem_tileIndices {w h j : Nat} (hj : some j ∈ tileIndices w h) : ∃ x y, x < w ∧ y < h ∧ j = y * w + x := by
  simp only [tileIndices, List.mem_flatMap, List.mem_map, List.mem_range] at hj
  obtain ⟨ty, _, tx, _, r, _, c, _, he⟩ := hj
  split_ifs at he with hc
  exact ⟨_, _, hc.1, hc.2, (Option.some.inj he).symm⟩

theorem tileIndices_lt {w h j : Nat} (hj : some j ∈ tileIndices w h) : j < w * h := by
  obtain ⟨x, y, hx, hy, rfl⟩ := mem_tileIndices hj
  rw [Nat.mul_comm w h]
  exact grid_index_lt hy hx

theorem untileIndices_length (w h : Nat) : (untileIndices w h).length = h * w :=
  flatMap_range_length fun j _ => by simp

theorem untileIndices_getElem? {w h x y : Nat} (hx : x < w) (hy : y < h) :
    (untileIndices w h)[y * w + x]? = some (64 * (y / 8 * ceil8 w + x / 8) + (8 * (y % 8) + x % 8)) := by
  rw [untileIndices, flatMap_range_getElem? (b := w) (fun j _ => by simp) hy hx]
  simp [List.getElem?_range hx]

theorem mem_untileIndices {w h k : Nat} (hk : k ∈ untileIndices w h) :
    ∃ x y, x < w ∧ y < h ∧ k = 64 * (y / 8 * ceil8 w + x / 8) + (8 * (y % 8) + x % 8) := by
  simp only [untileIndices, List.mem_flatMap, List.mem_map, List.mem_range] at hk
  obtain ⟨y, hy, x, hx, rfl⟩ := hk
  exact ⟨x, y, hx, hy, rfl⟩

theorem div8_lt_ceil8 {x w : Nat} (h : x < w) : x / 8 < ceil8 w := by
  rw [ceil8]; omega

theorem untileIndices_lt {w h k : Nat} (hk : k ∈ untileIndices w h) : k < 64 * tiles w h := by
  obtain ⟨x, y, hx, hy, rfl⟩ := mem_untileIndices hk
  have := grid_index_lt (div8_lt_ceil8 hy) (div8_lt_ceil8 hx)
  rw [tiles, Nat.mul_comm (ceil8 w)]
  omega

theorem tile_length (p : List Byte) (w h : Nat) : (tile p w h).length = 64 * tiles w h := by
  simp [tile, tileIndices_length]

theorem untile_length (els : List Int) (w h : Nat) : (untile els w h).length = w * h := by
  simp [untile, untileIndices_length, Nat.mul_comm]

/-! ### Pixels and planes (20_memory R66, R70) -/

theorem pixelsOf_length : ∀ img : List Byte, (pixelsOf img).length = img.length / 3
  | [] => rfl
  | [_] => by simp [pixelsOf]
  | [_, _] => by simp [pixelsOf]
  | _ :: _ :: _ :: rest => by simp only [pixelsOf, List.length_cons, pixelsOf_length rest]; omega

theorem colorFwd_length (img : List Byte) : (colorFwd img).length = 3 * (img.length / 3) := by
  simp [colorFwd, colorFwdPlanes, pixelsOf_length]; omega

theorem colorInvPlanes_length {n : Nat} {ys cbs crs : List Byte} (hy : ys.length = n) (hb : cbs.length = n)
    (hr : crs.length = n) : (colorInvPlanes ys cbs crs).length = 3 * n := by
  have : ∀ l : List (Byte × Byte × Byte), (l.flatMap fun p =>
      [(colorInvPx p.1 p.2.1 p.2.2).1, (colorInvPx p.1 p.2.1 p.2.2).2.1, (colorInvPx p.1 p.2.1 p.2.2).2.2]).length =
      3 * l.length := by
    intro l
    induction l with
    | nil => rfl
    | cons p l ih => rw [List.flatMap_cons, List.length_append, ih]; simp; omega
  rw [colorInvPlanes, this]
  simp [hy, hb, hr]

theorem colorInv_length {n : Nat} {triple : List Byte} (h : triple.length = 3 * n) :
    (colorInv n triple).length = 3 * n := by
  rw [colorInv]
  exact colorInvPlanes_length (by simp; omega) (by simp; omega) (by simp; omega)

/-! ### Blocks (20_memory R68) -/

theorem chunks64_length (n : Nat) (xs : List α) : (chunks64 n xs).length = n := by
  induction n generalizing xs with
  | zero => rfl
  | succ n ih => simp [chunks64, ih]

theorem chunks64_mem {n : Nat} {xs b : List α} (h : xs.length = 64 * n) (hb : b ∈ chunks64 n xs) : b.length = 64 := by
  induction n generalizing xs with
  | zero => simp [chunks64] at hb
  | succ n ih =>
    rcases List.mem_cons.mp hb with rfl | hb
    · simp; omega
    · exact ih (by simp; omega) hb

/-- Block `k` of a list cut into blocks. -/
theorem chunks64_getElem? {n k : Nat} (xs : List α) (hk : k < n) :
    (chunks64 n xs)[k]? = some ((xs.drop (64 * k)).take 64) := by
  induction n generalizing xs k with
  | zero => omega
  | succ n ih =>
    cases k with
    | zero => simp [chunks64]
    | succ k =>
      rw [chunks64, List.getElem?_cons_succ, ih _ (by omega), List.drop_drop]
      congr 3
      omega

theorem flatten_length_of_blocks {bs : List (List α)} (h : ∀ b ∈ bs, b.length = 64) :
    bs.flatten.length = 64 * bs.length := by
  induction bs with
  | nil => rfl
  | cons b bs ih =>
    rw [List.flatten_cons, List.length_append, ih fun c hc => h c (by simp [hc]), h b (by simp), List.length_cons]
    omega

theorem flatten_getElem?_of_blocks {bs : List (List α)} (h : ∀ b ∈ bs, b.length = 64) {k e : Nat} {b : List α}
    (hk : bs[k]? = some b) (he : e < 64) : bs.flatten[64 * k + e]? = b[e]? := by
  induction bs generalizing k with
  | nil => simp at hk
  | cons c bs ih =>
    have hc := h c (by simp)
    rw [List.flatten_cons]
    cases k with
    | zero =>
      simp only [List.getElem?_cons_zero, Option.some.injEq] at hk
      subst hk
      rw [Nat.mul_zero, Nat.zero_add, List.getElem?_append_left (by omega)]
    | succ k =>
      rw [List.getElem?_append_right (by omega), hc, show 64 * (k + 1) + e - 64 = 64 * k + e by omega]
      exact ih (fun d hd => h d (by simp [hd])) (by simpa using hk)

@[simp] theorem fdct_length (f : Block) : (fdct f).length = 64 := by simp [fdct]

@[simp] theorem idct_length (c : Block) : (idct c).length = 64 := by simp [idct]

@[simp] theorem latch_qt_length (l : Latch) : l.qt.length = 64 := by simp [Latch.qt]

theorem quantBlock_length {qt : List Nat} {b : Block} (hq : qt.length = 64) (hb : b.length = 64) :
    (quantBlock qt b).length = 64 := by simp [quantBlock, hq, hb]

theorem dequantBlock_length {qt : List Nat} {b : Block} (hq : qt.length = 64) (hb : b.length = 64) :
    (dequantBlock qt b).length = 64 := by simp [dequantBlock, hq, hb]

theorem imageOfCoefficients_length (hd : Header) (seq : List Word) :
    (imageOfCoefficients hd seq).length = 3 * (hd.w * hd.h) := by
  unfold imageOfCoefficients
  exact colorInvPlanes_length (untile_length _ _ _) (upsample_length _ _ _) (upsample_length _ _ _)

end Sys2Proof.Machine
end

