-- ==== Sys2Proof/Laws/Ops.lean ====
section
/-!
SUPPORT. Everything the shared operations can do, said once: StartChecks, the completion steps, `runCommand`, and
`exec` as `runCommand` of a command's body.
-/

namespace Sys2Proof.Machine

/-! ### StartChecks -/

/-- `startChecks` finds no failing check exactly when every check passes (60_exceptions R293). -/
theorem startChecks_eq_none {p : Params} {i : Instr} {l : Latch} :
    startChecks p i l = none ↔ StartChecksPass p i l := by
  have hd : dimensionCheck p i l = none ↔
      (isDimensioned i = true → l.w ≠ 0 ∧ l.h ≠ 0) ∧ (isDimensioned i = true → l.w * l.h ≤ p.maxPixels) := by
    unfold dimensionCheck
    split_ifs with h1 h2 h3 <;> simp_all
    omega
  have ht : tableCheck i l = none ↔ (usesTable i = true → ∀ t ∈ l.qt, t ≠ 0) := by
    unfold tableCheck
    split_ifs with h1
    · simp_all
    · simp only [Bool.and_eq_true, List.contains_iff_mem, not_and] at h1
      simp only [true_iff]
      rintro hu t ht rfl
      exact h1 hu ht
  have hr : rangeCheck p i l = none ↔
      (srcLen i l = 0 ∨ l.src + srcLen i l ≤ p.memSize) ∧ (dstLen i l = 0 ∨ l.dst + dstLen i l ≤ p.memSize) := by
    unfold rangeCheck outOfRange
    simp only [Bool.and_eq_true, decide_eq_true_eq]
    split_ifs with h1 h2 <;> simp only [false_iff, true_iff] <;> omega
  have ho : overlapCheck i l = none ↔
      (srcLen i l = 0 ∨ dstLen i l = 0 ∨ l.dst + dstLen i l ≤ l.src ∨ l.src + srcLen i l ≤ l.dst ∨
        (mayRunInPlace i = true ∧ l.src = l.dst)) := by
    unfold overlapCheck windowsMeet
    have hx : (mayRunInPlace i && l.src == l.dst) = decide (mayRunInPlace i = true ∧ l.src = l.dst) := by
      rw [Bool.decide_and, Bool.decide_eq_true]; rfl
    rw [hx]
    by_cases hq : mayRunInPlace i = true ∧ l.src = l.dst
    · simp [hq]
    · simp only [hq, Bool.and_eq_true, decide_eq_true_eq, decide_false, Bool.not_false, and_true, or_false]
      split_ifs with h1 <;> simp only [false_iff, true_iff] <;> omega
  unfold startChecks
  rw [Option.or_eq_none_iff, Option.or_eq_none_iff, Option.or_eq_none_iff, hd, ht, hr, ho]
  constructor
  · rintro ⟨⟨h1, h2⟩, h3, ⟨h4, h5⟩, h6⟩
    exact ⟨h1, h2, h3, h4, h5, h6⟩
  · rintro ⟨h1, h2, h3, h4, h5, h6⟩
    exact ⟨⟨h1, h2⟩, h3, ⟨h4, h5⟩, h6⟩

/-- The errors StartChecks can report for a word that names a command. -/
theorem startChecks_code {p : Params} {i : Instr} {l : Latch} {e : Err} (h : startChecks p i l = some e) :
    e = .badDimension ∨ e = .capacity ∨ e = .qtableZero ∨ e = .addressRange ∨ e = .overlap := by
  unfold startChecks at h
  rw [Option.or_eq_some_iff, Option.or_eq_some_iff, Option.or_eq_some_iff] at h
  unfold dimensionCheck tableCheck rangeCheck overlapCheck at h
  split_ifs at h <;> simp_all

/-! ### The windows of a command that passed -/

theorem StartChecksPass.area_lt {p : Params} {i : Instr} {l : Latch} (h : StartChecksPass p i l)
    (hi : isDimensioned i = true) : 1 ≤ l.w ∧ 1 ≤ l.h ∧ l.w * l.h ≤ p.maxPixels := by
  have := h.dimensions hi
  exact ⟨by omega, by omega, h.pixels hi⟩

/-! ### Free bytes -/

@[simp] theorem freeBytes_length (k n : Nat) : (freeBytes k n).length = n := by simp [freeBytes]

theorem byteAt_scramble (a n : Nat) (s : State) (x : Nat) :
    byteAt (scramble a n s).mem x =
      if a ≤ x ∧ x < a + n then some (Config.freeByte (s.draws + (x - a))) else byteAt s.mem x := by
  simp only [scramble, byteAt_storeBytes, freeBytes_length]
  split_ifs with h
  · simp [freeBytes, List.getElem?_map, List.getElem?_range (show x - a < n by omega)]
  · rfl

/-- The destination window of a command that passed StartChecks is wholly in memory, so all of it is scrambled. -/
theorem byteAt_scrambleDst {i : Instr} {s : State} (h : StartChecksPass s.params i s.latch) (x : Nat) :
    byteAt (scrambleDst i s).mem x =
      if s.latch.dst ≤ x ∧ x < s.latch.dst + dstLen i s.latch
      then some (Config.freeByte (s.draws + (x - s.latch.dst))) else byteAt s.mem x := by
  rw [scrambleDst, byteAt_scramble]
  have : min (dstLen i s.latch) (s.params.memSize - s.latch.dst) = dstLen i s.latch := by
    rcases h.destRange with h0 | h0 <;> omega
  rw [this]

/-! ### `runCommand` -/

/-- All a command can do: fail a start check, succeed, raise an error in its body, or read an unwritten byte. -/
theorem runCommand_cases (i : Instr) (body : Body) (s : State) :
    (∃ e, startChecks s.params i s.latch = some e ∧ runCommand i body s = .next (completeFailure e s)) ∨
    (StartChecksPass s.params i s.latch ∧
      ((∃ r, body s.params s.latch s.mem = .ok r ∧ runCommand i body s = .next (completeSuccess r s)) ∨
       (∃ e, body s.params s.latch s.mem = .error (.raise e) ∧
          runCommand i body s = .next (completeFailure e (afterBodyError i s))) ∨
       (body s.params s.latch s.mem = .error .uninit ∧ runCommand i body s = .fault .uninitRead))) := by
  unfold runCommand
  cases hc : startChecks s.params i s.latch with
  | some e => exact .inl ⟨e, rfl, rfl⟩
  | none =>
    refine .inr ⟨startChecks_eq_none.mp hc, ?_⟩
    cases hb : body s.params s.latch s.mem with
    | ok r => exact .inl ⟨r, rfl, rfl⟩
    | error x =>
      cases x with
      | raise e => exact .inr (.inl ⟨e, rfl, rfl⟩)
      | uninit => exact .inr (.inr ⟨rfl, rfl⟩)

theorem runCommand_of_ok {i : Instr} {body : Body} {s : State} {r : Success}
    (hp : StartChecksPass s.params i s.latch) (hb : body s.params s.latch s.mem = .ok r) :
    runCommand i body s = .next (completeSuccess r s) := by
  simp [runCommand, startChecks_eq_none.mpr hp, hb]

theorem runCommand_of_raise {i : Instr} {body : Body} {s : State} {e : Err}
    (hp : StartChecksPass s.params i s.latch) (hb : body s.params s.latch s.mem = .error (.raise e)) :
    runCommand i body s = .next (completeFailure e (afterBodyError i s)) := by
  simp [runCommand, startChecks_eq_none.mpr hp, hb]

theorem runCommand_of_uninit {i : Instr} {body : Body} {s : State}
    (hp : StartChecksPass s.params i s.latch) (hb : body s.params s.latch s.mem = .error .uninit) :
    runCommand i body s = .fault .uninitRead := by
  simp [runCommand, startChecks_eq_none.mpr hp, hb]

theorem runCommand_of_startCheck {i : Instr} {body : Body} {s : State} {e : Err}
    (h : startChecks s.params i s.latch = some e) : runCommand i body s = .next (completeFailure e s) := by
  simp [runCommand, h]

/-! ### Completion -/

/-- A body that answers bytes: the completed state, in the words of `SucceededFrom`. -/
theorem succeededFrom_completeSuccess (r : Success) (s : State) :
    SucceededFrom s (completeSuccess r s) r.out.length where
  status := rfl
  donePend := rfl
  resultLen h := by rw [completeSuccess_resultLen, resultLenOf, if_pos h]
  cmd := rfl
  irqEn := rfl
  latch := rfl
  params := rfl
  response := rfl
  inputs := rfl
  draws := rfl
  epoch := rfl
  outside a h := byteAt_storeBytes_outside h

theorem failedFrom_completeFailure (e : Err) (s : State) : FailedFrom s (completeFailure e s) e where
  status := rfl
  donePend := rfl
  resultLen := rfl
  cmd := rfl
  irqEn := rfl
  ops := rfl
  latch := rfl
  params := rfl
  response := rfl
  inputs := rfl
  epoch := rfl

theorem failedFrom_afterBodyError (e : Err) (i : Instr) (s : State) :
    FailedFrom s (completeFailure e (afterBodyError i s)) e := by
  unfold afterBodyError
  split
  · exact ⟨rfl, rfl, rfl, rfl, rfl, rfl, rfl, rfl, rfl, rfl, rfl⟩
  · exact failedFrom_completeFailure e s

theorem bytesAt_storeBytes (m : Memory) (a : Nat) (bs : List Byte) : BytesAt (storeBytes m a bs) a bs := by
  intro j b hb
  have hj : j < bs.length := (List.getElem?_eq_some_iff.mp hb).1
  rw [byteAt_storeBytes_inside hj, ← List.getElem?_eq_getElem hj, hb]

/-! ### `exec` as `runCommand` -/

/-- The body of each command. -/
def bodyOf : Instr → Body
  | .nop => bodyNop
  | .colorFwd => bodyColorFwd
  | .subsample => bodySubsample
  | .tile => bodyTile
  | .fdct => bodyFdct
  | .quant => bodyQuant
  | .huffEnc => bodyHuffEnc
  | .compress => bodyCompress
  | .colorInv => bodyColorInv
  | .upsample => bodyUpsample
  | .untile => bodyUntile
  | .idct => bodyIdct
  | .dequant => bodyDequant
  | .huffDec => bodyHuffDec
  | .decompress => bodyDecompress

theorem exec_eq_runCommand (i : Instr) (s : State) : exec i s = runCommand i (bodyOf i) s := by
  cases i <;> rfl

end Sys2Proof.Machine
end

