-- ==== Sys2Proof/Laws/Bodies.lean ====
section
/-!
SUPPORT. What every command body can do: how many bytes it answers, how it fails, and that it depends on the latch and
the source window alone (40_command R133, R134, R136).
-/

namespace Sys2Proof.Machine

/-! ### Reading the tiler's elements -/

theorem tileElements_eq_map {m : Memory} {src : Nat} {ks : List (Option Nat)} {f : Nat → Byte}
    (h : ∀ j, some j ∈ ks → byteAt m (src + j) = some (f j)) :
    tileElements m src ks = .ok (ks.map fun k => (k.map fun j => ((f j).toNat : Int)).getD 0) := by
  induction ks with
  | nil => rfl
  | cons k ks ih =>
    have ih := ih fun j hj => h j (by simp [hj])
    cases k with
    | none => simp only [tileElements, tileElement, ok_bind, ih]; rfl
    | some j =>
      have hj := engineRead_ok.mpr (h j (by simp))
      simp only [tileElements, tileElement, hj, ok_bind, ih, pure_eq_ok]
      rfl

theorem tileElements_congr {m m' : Memory} {src : Nat} {ks : List (Option Nat)}
    (h : ∀ j, some j ∈ ks → byteAt m (src + j) = byteAt m' (src + j)) :
    tileElements m src ks = tileElements m' src ks := by
  induction ks with
  | nil => rfl
  | cons k ks ih =>
    have ih := ih fun j hj => h j (by simp [hj])
    cases k with
    | none => simp only [tileElements, tileElement, ih]
    | some j => simp only [tileElements, tileElement, engineRead, h j (by simp), ih]

theorem tileElements_stop {m : Memory} {src : Nat} {ks : List (Option Nat)} {x : Stop}
    (h : tileElements m src ks = .error x) : x = .uninit ∧ ∃ j, some j ∈ ks ∧ byteAt m (src + j) = none := by
  induction ks with
  | nil => cases h
  | cons k ks ih =>
    rcases bind_eq_error.mp h with h1 | ⟨e, _, h2⟩
    · cases k with
      | none => cases h1
      | some j =>
        rcases bind_eq_error.mp h1 with h3 | ⟨b, _, h4⟩
        · exact ⟨(engineRead_error h3).1, j, by simp, (engineRead_error h3).2⟩
        · cases h4
    · rcases bind_eq_error.mp h2 with h3 | ⟨es, _, h4⟩
      · obtain ⟨hx, j, hj, hn⟩ := ih h3
        exact ⟨hx, j, by simp [hj], hn⟩
      · cases h4

theorem tileElements_length {m : Memory} {src : Nat} {ks : List (Option Nat)} {es : List Int}
    (h : tileElements m src ks = .ok es) : es.length = ks.length := by
  induction ks generalizing es with
  | nil => cases h; rfl
  | cons k ks ih =>
    obtain ⟨e, _, h2⟩ := bind_eq_ok.mp h
    obtain ⟨es', h3, h4⟩ := bind_eq_ok.mp h2
    cases h4
    simp [ih h3]

/-- The four bytes of a word of memory, read as a window. -/
theorem readWindow_word {m : Memory} {a : Nat} {w : Word} (h : wordAt m a = some w) :
    ∃ bs, readWindow m a 4 = .ok bs ∧ BitVec.ofNat 32 (beValue bs) = w := by
  obtain ⟨b0, b1, b2, b3, h0, h1, h2, h3, rfl⟩ := wordAt_eq_some h
  refine ⟨[b0, b1, b2, b3], ?_, rfl⟩
  rw [readWindow, engineReads_ok]
  simp [List.range'_succ, h0, h1, h2, h3]

theorem untileSamples_eq_map {m : Memory} {src : Nat} {ks : List Nat} {f : Nat → Word}
    (h : ∀ k ∈ ks, wordAt m (src + 4 * k) = some (f k)) :
    untileSamples m src ks = .ok (ks.map fun k => sampleOf (f k).toInt) := by
  induction ks with
  | nil => rfl
  | cons k ks ih =>
    have ih := ih fun j hj => h j (by simp [hj])
    obtain ⟨bs, h1, h2⟩ := readWindow_word (h k (by simp))
    simp only [untileSamples, h1, ok_bind, ih, pure_eq_ok, h2, sext32, List.map_cons]

theorem untileSamples_congr {m m' : Memory} {src : Nat} {ks : List Nat}
    (h : ∀ k ∈ ks, ∀ x, src + 4 * k ≤ x → x < src + 4 * k + 4 → byteAt m x = byteAt m' x) :
    untileSamples m src ks = untileSamples m' src ks := by
  induction ks with
  | nil => rfl
  | cons k ks ih =>
    have ih := ih fun j hj => h j (by simp [hj])
    simp only [untileSamples, readWindow_congr (h k (by simp)), ih]

theorem untileSamples_stop {m : Memory} {src : Nat} {ks : List Nat} {x : Stop}
    (h : untileSamples m src ks = .error x) :
    x = .uninit ∧ ∃ k ∈ ks, ∃ j, j < 4 ∧ byteAt m (src + (4 * k + j)) = none := by
  induction ks with
  | nil => cases h
  | cons k ks ih =>
    rcases bind_eq_error.mp h with h1 | ⟨b, _, h2⟩
    · obtain ⟨hx, a, ha, hn⟩ := engineReads_error h1
      obtain ⟨j, hj, rfl⟩ := List.mem_range'.mp ha
      exact ⟨hx, k, by simp, j, hj, by simpa [Nat.add_assoc] using hn⟩
    · rcases bind_eq_error.mp h2 with h3 | ⟨es, _, h4⟩
      · obtain ⟨hx, k', hk', hn⟩ := ih h3
        exact ⟨hx, k', by simp [hk'], hn⟩
      · cases h4

theorem untileSamples_length {m : Memory} {src : Nat} {ks : List Nat} {bs : List Byte}
    (h : untileSamples m src ks = .ok bs) : bs.length = ks.length := by
  induction ks generalizing bs with
  | nil => cases h; rfl
  | cons k ks ih =>
    obtain ⟨e, _, h2⟩ := bind_eq_ok.mp h
    obtain ⟨es', h3, h4⟩ := bind_eq_ok.mp h2
    cases h4
    simp [ih h3]

/-! ### How many bytes a body answers (40_command R136) -/

theorem blockBody_length {f : Latch → Block → Block} (hf : ∀ l b, b.length = 64 → (f l b).length = 64)
    {p : Params} {l : Latch} {m : Memory} {r : Success} (h : blockBody f p l m = .ok r) :
    r.out.length = 256 * l.count ∧ r.dims = none := by
  obtain ⟨bs, h1, h2⟩ := bind_eq_ok.mp h
  cases h2
  refine ⟨?_, rfl⟩
  have hlen := readWindow_length h1
  have hw : ((bytesToWords bs).map sext32).length = 64 * l.count := by
    rw [List.length_map, bytesToWords_length, hlen]; omega
  simp only [Success.bytes, bytesOfBlocks, wordsToBytes_length, List.length_map]
  rw [flatten_length_of_blocks, List.length_map, blocksOfBytes, chunks64_length]
  · omega
  · intro b hb
    obtain ⟨c, hc, rfl⟩ := List.mem_map.mp hb
    exact hf l c (chunks64_mem hw hc)

/-- What `encodeInto` can do (46_entropy R245, R246). -/
theorem encodeInto_ok {p : Params} {limit : Nat} {hdr : List Byte} {s : List Word} {r : Success}
    (h : encodeInto p limit hdr s = .ok r) : r.out.length ≤ limit ∧ r.dims = none := by
  unfold encodeInto at h
  split_ifs at h
  split at h
  · cases h
  · split_ifs at h with h3
    cases h
    exact ⟨by simpa [Success.bytes] using Nat.le_of_not_lt h3, rfl⟩

theorem encodeInto_error {p : Params} {limit : Nat} {hdr : List Byte} {s : List Word} {x : Stop}
    (h : encodeInto p limit hdr s = .error x) : x = .raise .capacity := by
  unfold encodeInto at h
  split_ifs at h
  · exact (Except.error.inj h).symm
  · split at h
    · next hn =>
      exfalso
      by_cases hs : s = []
      · subst hs; cases hn
      · obtain ⟨_, _, _, _, _, he⟩ := huffEnc_cons hs
        rw [hn] at he; cases he
    · split_ifs at h
      exact (Except.error.inj h).symm

/-- The header `readHeader` accepts passes the checks of 47_pipeline R273. -/
theorem readHeader_ok {p : Params} {l : Latch} {m : Memory} {hd : Header} (h : readHeader p l m = .ok hd) :
    138 ≤ l.srclen ∧ hd.illegal = false ∧ hd.w * hd.h ≤ p.maxPixels ∧ 3 * (hd.w * hd.h) ≤ l.dstlim := by
  unfold readHeader at h
  split_ifs at h with h0
  obtain ⟨bs, _, h2⟩ := bind_eq_ok.mp h
  dsimp only at h2
  split_ifs at h2 with h3 h4
  cases h2
  simp only [Header.tooLarge, Bool.or_eq_true, decide_eq_true_eq, not_or, not_lt] at h4
  exact ⟨by simpa [headerLen] using h0, by simpa using h3, h4.1, h4.2⟩

/-- A body answers as many bytes as its destination window has; a capacity bounds it (40_command R134, R136).
Only DECOMPRESS answers dimensions. -/
theorem bodyOf_ok {i : Instr} {p : Params} {l : Latch} {m : Memory} {r : Success} (h : bodyOf i p l m = .ok r) :
    r.out.length ≤ dstLen i l ∧ (i ≠ .huffEnc → i ≠ .compress → i ≠ .decompress → r.out.length = dstLen i l) ∧
    (i ≠ .decompress → r.dims = none) := by
  have key : ∀ (n : Nat) (b : Prop), r.out.length = n → r.dims = none →
      r.out.length ≤ n ∧ (i ≠ .huffEnc → i ≠ .compress → i ≠ .decompress → r.out.length = n) ∧
      (i ≠ .decompress → r.dims = none) := fun n _ h1 h2 => ⟨h1.le, fun _ _ _ => h1, fun _ => h2⟩
  cases i with
  | nop => cases h; exact key _ True rfl rfl
  | colorFwd =>
    obtain ⟨bs, h1, h2⟩ := bind_eq_ok.mp h
    cases h2
    refine key _ True ?_ rfl
    simp only [Success.bytes, colorFwd_length, readWindow_length h1, dstLen]
    omega
  | subsample =>
    obtain ⟨bs, h1, h2⟩ := bind_eq_ok.mp h
    cases h2
    refine key _ True ?_ rfl
    have := engineReads_length h1
    simpa [Success.bytes, dstLen, halfDim, subsampleIndices_length, Nat.mul_comm] using this
  | tile =>
    obtain ⟨es, h1, h2⟩ := bind_eq_ok.mp h
    cases h2
    refine key _ True ?_ rfl
    simp only [Success.bytes, wordsToBytes_length, List.length_map, tileElements_length h1, tileIndices_length, dstLen]
    omega
  | fdct =>
    have := blockBody_length (p := p) (f := fun _ => fdct) (fun _ _ _ => fdct_length _) h
    exact key _ True this.1 this.2
  | quant =>
    have := blockBody_length (p := p) (f := fun l => quantBlock l.qt) (fun l _ hb => quantBlock_length (latch_qt_length l) hb) h
    exact key _ True this.1 this.2
  | huffEnc =>
    obtain ⟨bs, h1, h2⟩ := bind_eq_ok.mp h
    split_ifs at h2 with h0
    · cases h2; exact ⟨Nat.zero_le _, by simp, fun _ => rfl⟩
    · have := encodeInto_ok h2
      exact ⟨this.1, by simp, fun _ => this.2⟩
  | compress =>
    obtain ⟨bs, h1, h2⟩ := bind_eq_ok.mp h
    have := encodeInto_ok h2
    exact ⟨this.1, by simp, fun _ => this.2⟩
  | colorInv =>
    obtain ⟨bs, h1, h2⟩ := bind_eq_ok.mp h
    cases h2
    exact key _ True (colorInv_length (readWindow_length h1)) rfl
  | upsample =>
    change bodyUpsample p l m = .ok r at h
    unfold bodyUpsample at h
    split_ifs at h
    · cases h
      exact key _ True (by simp [Success.bytes, dstLen]) rfl
    · obtain ⟨bs, h1, h2⟩ := bind_eq_ok.mp h
      cases h2
      refine key _ True ?_ rfl
      have := engineReads_length h1
      simpa [Success.bytes, dstLen, upsampleIndices_length, Nat.mul_comm] using this
  | untile =>
    obtain ⟨bs, h1, h2⟩ := bind_eq_ok.mp h
    cases h2
    refine key _ True ?_ rfl
    simp only [Success.bytes, untileSamples_length h1, untileIndices_length, dstLen, Nat.mul_comm]
  | idct =>
    have := blockBody_length (p := p) (f := fun _ => idct) (fun _ _ _ => idct_length _) h
    exact key _ True this.1 this.2
  | dequant =>
    have := blockBody_length (p := p) (f := fun l => dequantBlock l.qt) (fun l _ hb => dequantBlock_length (latch_qt_length l) hb) h
    exact key _ True this.1 this.2
  | huffDec =>
    obtain ⟨vs, h1, h2⟩ := bind_eq_ok.mp h
    cases h2
    refine key _ True ?_ rfl
    simp only [Success.bytes, wordsToBytes_length, huffDec_length h1, dstLen]
  | decompress =>
    obtain ⟨hd, h1, h2⟩ := bind_eq_ok.mp h
    obtain ⟨vs, _, h4⟩ := bind_eq_ok.mp h2
    cases h4
    refine ⟨?_, by simp, by simp⟩
    simp only [imageOfCoefficients_length, dstLen]
    exact (readHeader_ok h1).2.2.2

/-! ### How a body fails -/

/-- The errors a command's body can raise (60_exceptions R290): CAPACITY of an encoder, the format errors and CAPACITY
of a decoder, and none of any other command. -/
def raises : Instr → Err → Prop
  | .huffEnc, e | .compress, e => e = .capacity
  | .huffDec, e => e = .formatTruncated ∨ e = .formatTree ∨ e = .formatCode
  | .decompress, e =>
    e = .formatTruncated ∨ e = .formatHeader ∨ e = .formatTree ∨ e = .formatCode ∨ e = .capacity
  | _, _ => False

/-- How a body stops short: an unwritten byte in its source window, or an error its rule names. -/
def BodyStop (i : Instr) (l : Latch) (m : Memory) (x : Stop) : Prop :=
  (x = .uninit ∧ ∃ j, j < srcLen i l ∧ byteAt m (l.src + j) = none) ∨ ∃ e, x = .raise e ∧ raises i e

theorem bodyStop_of_readWindow {i : Instr} {l : Latch} {m : Memory} {x : Stop}
    (h : readWindow m l.src (srcLen i l) = .error x) : BodyStop i l m x := by
  obtain ⟨hx, a, ha, hn⟩ := engineReads_error h
  obtain ⟨j, hj, rfl⟩ := List.mem_range'.mp ha
  exact .inl ⟨hx, j, hj, by simpa using hn⟩

theorem bodyStop_of_engineReads {i : Instr} {l : Latch} {m : Memory} {ks : List Nat} {x : Stop}
    (hk : ∀ k ∈ ks, k < srcLen i l) (h : engineReads m (ks.map (l.src + ·)) = .error x) : BodyStop i l m x := by
  obtain ⟨hx, a, ha, hn⟩ := engineReads_error h
  obtain ⟨j, hj, rfl⟩ := List.mem_map.mp ha
  exact .inl ⟨hx, j, hk j hj, hn⟩

theorem readHeader_stop {p : Params} {l : Latch} {m : Memory} {x : Stop} (h : readHeader p l m = .error x) :
    BodyStop .decompress l m x := by
  unfold readHeader at h
  split_ifs at h with h0
  · cases h; exact .inr ⟨_, rfl, .inl rfl⟩
  · rcases bind_eq_error.mp h with h1 | ⟨bs, _, h2⟩
    · obtain ⟨hx, a, ha, hn⟩ := engineReads_error h1
      obtain ⟨j, hj, rfl⟩ := List.mem_range'.mp ha
      exact .inl ⟨hx, j, by simp only [srcLen]; omega, by simpa using hn⟩
    · dsimp only at h2
      split_ifs at h2
      · cases h2; exact .inr ⟨_, rfl, .inr (.inl rfl)⟩
      · cases h2; exact .inr ⟨_, rfl, .inr (.inr (.inr (.inr rfl)))⟩
      · cases h2

theorem bodyOf_stop {i : Instr} {p : Params} {l : Latch} {m : Memory} {x : Stop} (h : bodyOf i p l m = .error x) :
    BodyStop i l m x := by
  have hblock : ∀ f : Latch → Block → Block, blockBody f p l m = .error x →
      readWindow m l.src (256 * l.count) = .error x := by
    intro f hf
    rcases bind_eq_error.mp hf with h1 | ⟨bs, _, h2⟩
    · exact h1
    · cases h2
  cases i with
  | nop => cases h
  | colorFwd =>
    rcases bind_eq_error.mp h with h1 | ⟨bs, _, h2⟩
    · exact bodyStop_of_readWindow (i := .colorFwd) h1
    · cases h2
  | subsample =>
    rcases bind_eq_error.mp h with h1 | ⟨bs, _, h2⟩
    · exact bodyStop_of_engineReads (i := .subsample) (fun k hk => subsampleIndices_lt hk) h1
    · cases h2
  | tile =>
    rcases bind_eq_error.mp h with h1 | ⟨bs, _, h2⟩
    · obtain ⟨hx, j, hj, hn⟩ := tileElements_stop h1
      exact .inl ⟨hx, j, tileIndices_lt hj, hn⟩
    · cases h2
  | fdct => exact bodyStop_of_readWindow (i := .fdct) (hblock (fun _ => fdct) h)
  | quant => exact bodyStop_of_readWindow (i := .quant) (hblock (fun l => quantBlock l.qt) h)
  | huffEnc =>
    rcases bind_eq_error.mp h with h1 | ⟨bs, _, h2⟩
    · exact bodyStop_of_readWindow (i := .huffEnc) h1
    · split_ifs at h2
      · cases h2
      · exact .inr ⟨_, encodeInto_error h2, rfl⟩
  | compress =>
    rcases bind_eq_error.mp h with h1 | ⟨bs, _, h2⟩
    · exact bodyStop_of_readWindow (i := .compress) h1
    · exact .inr ⟨_, encodeInto_error h2, rfl⟩
  | colorInv =>
    rcases bind_eq_error.mp h with h1 | ⟨bs, _, h2⟩
    · exact bodyStop_of_readWindow (i := .colorInv) h1
    · cases h2
  | upsample =>
    change bodyUpsample p l m = .error x at h
    unfold bodyUpsample at h
    split_ifs at h with hc
    rcases bind_eq_error.mp h with h1 | ⟨bs, _, h2⟩
    · exact bodyStop_of_engineReads (i := .upsample)
        (fun k hk => upsampleIndices_lt (fun hn => hc (chromaEmpty_iff.mpr hn)) hk) h1
    · cases h2
  | untile =>
    rcases bind_eq_error.mp h with h1 | ⟨bs, _, h2⟩
    · obtain ⟨hx, k, hk, j, hj, hn⟩ := untileSamples_stop h1
      have := untileIndices_lt hk
      exact .inl ⟨hx, 4 * k + j, by simp only [srcLen]; omega, hn⟩
    · cases h2
  | idct => exact bodyStop_of_readWindow (i := .idct) (hblock (fun _ => idct) h)
  | dequant => exact bodyStop_of_readWindow (i := .dequant) (hblock (fun l => dequantBlock l.qt) h)
  | huffDec =>
    rcases bind_eq_error.mp h with h1 | ⟨bs, _, h2⟩
    · rcases huffDec_stop h1 with ⟨hx, j, hj, hn⟩ | hx | hx | hx
      · exact .inl ⟨hx, j, hj, hn⟩
      · exact .inr ⟨_, hx, .inl rfl⟩
      · exact .inr ⟨_, hx, .inr (.inl rfl)⟩
      · exact .inr ⟨_, hx, .inr (.inr rfl)⟩
    · cases h2
  | decompress =>
    rcases bind_eq_error.mp h with h1 | ⟨hd, hh, h2⟩
    · exact readHeader_stop h1
    · rcases bind_eq_error.mp h2 with h3 | ⟨vs, _, h4⟩
      · rcases huffDec_stop h3 with ⟨hx, j, hj, hn⟩ | hx | hx | hx
        · have := (readHeader_ok hh).1
          simp only [headerLen] at hj hn
          exact .inl ⟨hx, 138 + j, by simp only [srcLen]; omega, by rw [← Nat.add_assoc]; exact hn⟩
        · exact .inr ⟨_, hx, .inl rfl⟩
        · exact .inr ⟨_, hx, .inr (.inr (.inl rfl))⟩
        · exact .inr ⟨_, hx, .inr (.inr (.inr (.inl rfl)))⟩
      · cases h4

/-! ### A body depends on its latch and source window alone (40_command R133) -/

theorem engineReads_congr_offset {i : Instr} {l : Latch} {m m' : Memory} {ks : List Nat}
    (hk : ∀ k ∈ ks, k < srcLen i l)
    (h : ∀ a, l.src ≤ a → a < l.src + srcLen i l → byteAt m a = byteAt m' a) :
    engineReads m (ks.map (l.src + ·)) = engineReads m' (ks.map (l.src + ·)) := by
  refine engineReads_congr fun a ha => ?_
  obtain ⟨k, hk', rfl⟩ := List.mem_map.mp ha
  have := hk k hk'
  exact h _ (by omega) (by omega)

theorem blockBody_congr {f : Latch → Block → Block} {p : Params} {l : Latch} {m m' : Memory}
    (h : ∀ a, l.src ≤ a → a < l.src + 256 * l.count → byteAt m a = byteAt m' a) :
    blockBody f p l m = blockBody f p l m' := by
  simp only [blockBody, readWindow_congr h]

theorem bodyOf_congr {i : Instr} {p : Params} {l : Latch} {m m' : Memory}
    (h : ∀ a, l.src ≤ a → a < l.src + srcLen i l → byteAt m a = byteAt m' a) :
    bodyOf i p l m = bodyOf i p l m' := by
  cases i with
  | nop => rfl
  | colorFwd =>
    have hr := readWindow_congr h
    simp only [srcLen] at hr
    simp only [bodyOf, bodyColorFwd, hr]
  | subsample =>
    simp only [bodyOf, bodySubsample, engineReads_congr_offset (i := .subsample) (fun k hk => subsampleIndices_lt hk) h]
  | tile =>
    have : tileElements m l.src (tileIndices l.w l.h) = tileElements m' l.src (tileIndices l.w l.h) := by
      refine tileElements_congr fun j hj => ?_
      have := tileIndices_lt hj
      exact h _ (by omega) (by simp only [srcLen]; omega)
    simp only [bodyOf, bodyTile, this]
  | fdct => exact blockBody_congr (p := p) (f := fun _ => fdct) h
  | quant => exact blockBody_congr (p := p) (f := fun l => quantBlock l.qt) h
  | huffEnc =>
    have hr := readWindow_congr h
    simp only [srcLen] at hr
    simp only [bodyOf, bodyHuffEnc, hr]
  | compress =>
    have hr := readWindow_congr h
    simp only [srcLen] at hr
    simp only [bodyOf, bodyCompress, hr]
  | colorInv =>
    have hr := readWindow_congr h
    simp only [srcLen] at hr
    simp only [bodyOf, bodyColorInv, hr]
  | upsample =>
    simp only [bodyOf, bodyUpsample]
    split_ifs with hc
    · rfl
    · rw [engineReads_congr_offset (i := .upsample)
        (fun k hk => upsampleIndices_lt (fun hn => hc (chromaEmpty_iff.mpr hn)) hk) h]
  | untile =>
    have : untileSamples m l.src (untileIndices l.w l.h) = untileSamples m' l.src (untileIndices l.w l.h) := by
      refine untileSamples_congr fun k hk x h1 h2 => ?_
      have := untileIndices_lt hk
      exact h x (by omega) (by simp only [srcLen]; omega)
    simp only [bodyOf, bodyUntile, this]
  | idct => exact blockBody_congr (p := p) (f := fun _ => idct) h
  | dequant => exact blockBody_congr (p := p) (f := fun l => dequantBlock l.qt) h
  | huffDec =>
    have hs : SameInput { mem := m, base := l.src, len := l.srclen } { mem := m', base := l.src, len := l.srclen } :=
      ⟨rfl, fun j hj => h _ (Nat.le_add_right _ _) (Nat.add_lt_add_left hj _)⟩
    simp only [bodyOf, bodyHuffDec, huffDec_congr hs]
  | decompress =>
    have hh : readHeader p l m = readHeader p l m' := by
      unfold readHeader
      split_ifs with h0
      · rfl
      · rw [readWindow_congr fun x h1 h2 => h x h1 (by simp only [srcLen]; omega)]
    simp only [bodyOf, bodyDecompress, hh]
    cases hr : readHeader p l m' with
    | error e => rfl
    | ok hd =>
      have hlen := (readHeader_ok hr).1
      have hs : SameInput { mem := m, base := l.src + headerLen, len := l.srclen - headerLen }
          { mem := m', base := l.src + headerLen, len := l.srclen - headerLen } :=
        ⟨rfl, fun j hj => h _ (by dsimp only; omega) (by simp only [srcLen, headerLen] at hj ⊢; omega)⟩
      simp only [ok_bind, huffDec_congr hs]

/-- A body whose source window is written reads no unwritten byte. -/
theorem bodyOf_ne_uninit {i : Instr} {p : Params} {l : Latch} {m : Memory} (h : Written m l.src (srcLen i l)) :
    bodyOf i p l m ≠ .error .uninit := by
  intro hb
  rcases bodyOf_stop hb with ⟨_, j, hj, hn⟩ | ⟨e, he, _⟩
  · have := h j hj
    simp [hn] at this
  · cases he

/-- The codes a body raises are codes a block may report. -/
theorem raises_code {i : Instr} {e : Err} (h : raises i e) : e.code ≠ 0 ∧ e.code.toNat ≤ 0x0A := by
  cases i <;> simp only [raises] at h
  · subst h; decide
  · subst h; decide
  · rcases h with rfl | rfl | rfl <;> decide
  · rcases h with rfl | rfl | rfl | rfl | rfl <;> decide

end Sys2Proof.Machine
end

