-- ==== Sys2Proof/Laws/Exec.lean ====
section
/-!
SUPPORT. `exec` taken apart once: everything a command can end in, whichever command it is.
-/

namespace Sys2Proof.Machine

/-- The next states of a command: a start check failed, the body succeeded, or the body raised an error its rule names. -/
inductive ExecNext (i : Instr) (s : State) : State → Prop
  | checkFailed (e : Err) (h : startChecks s.params i s.latch = some e) : ExecNext i s (completeFailure e s)
  | succeeded (r : Success) (hp : StartChecksPass s.params i s.latch)
      (h : bodyOf i s.params s.latch s.mem = .ok r) : ExecNext i s (completeSuccess r s)
  | bodyFailed (e : Err) (hp : StartChecksPass s.params i s.latch)
      (h : bodyOf i s.params s.latch s.mem = .error (.raise e)) (hr : raises i e) :
      ExecNext i s (completeFailure e (afterBodyError i s))

theorem exec_next {i : Instr} {s t : State} (h : exec i s = .next t) : ExecNext i s t := by
  rw [exec_eq_runCommand] at h
  rcases runCommand_cases i (bodyOf i) s with ⟨e, h1, h2⟩ | ⟨hp, ⟨r, h1, h2⟩ | ⟨e, h1, h2⟩ | ⟨h1, h2⟩⟩
  · rw [h2] at h; cases h; exact .checkFailed e h1
  · rw [h2] at h; cases h; exact .succeeded r hp h1
  · rw [h2] at h; cases h
    refine .bodyFailed e hp h1 ?_
    rcases bodyOf_stop h1 with ⟨hx, _⟩ | ⟨e', he, hr⟩
    · cases hx
    · cases he; exact hr
  · rw [h2] at h; cases h

/-- The only fault of a command is UNINIT_READ, and it says that a byte of the source window is unwritten. -/
theorem exec_fault {i : Instr} {s : State} {f : Fault} (h : exec i s = .fault f) :
    f = .uninitRead ∧ StartChecksPass s.params i s.latch ∧ bodyOf i s.params s.latch s.mem = .error .uninit ∧
      ∃ j, j < srcLen i s.latch ∧ byteAt s.mem (s.latch.src + j) = none := by
  rw [exec_eq_runCommand] at h
  rcases runCommand_cases i (bodyOf i) s with ⟨e, h1, h2⟩ | ⟨hp, ⟨r, h1, h2⟩ | ⟨e, h1, h2⟩ | ⟨h1, h2⟩⟩
  · rw [h2] at h; cases h
  · rw [h2] at h; cases h
  · rw [h2] at h; cases h
  · rw [h2] at h; cases h
    refine ⟨rfl, hp, h1, ?_⟩
    rcases bodyOf_stop h1 with ⟨_, hn⟩ | ⟨e, he, _⟩
    · exact hn
    · cases he

/-- No command is refused. -/
theorem exec_not_refused {i : Instr} {s : State} {r : Refusal} : exec i s ≠ .refused r := by
  intro h
  rw [exec_eq_runCommand] at h
  rcases runCommand_cases i (bodyOf i) s with ⟨e, _, h2⟩ | ⟨_, ⟨r, _, h2⟩ | ⟨e, _, h2⟩ | ⟨_, h2⟩⟩ <;>
    · rw [h2] at h; cases h

theorem exec_of_ok {i : Instr} {s : State} {r : Success} (hp : StartChecksPass s.params i s.latch)
    (hb : bodyOf i s.params s.latch s.mem = .ok r) : exec i s = .next (completeSuccess r s) := by
  rw [exec_eq_runCommand]; exact runCommand_of_ok hp hb

theorem exec_of_raise {i : Instr} {s : State} {e : Err} (hp : StartChecksPass s.params i s.latch)
    (hb : bodyOf i s.params s.latch s.mem = .error (.raise e)) :
    exec i s = .next (completeFailure e (afterBodyError i s)) := by
  rw [exec_eq_runCommand]; exact runCommand_of_raise hp hb

theorem exec_of_uninit {i : Instr} {s : State} (hp : StartChecksPass s.params i s.latch)
    (hb : bodyOf i s.params s.latch s.mem = .error .uninit) : exec i s = .fault .uninitRead := by
  rw [exec_eq_runCommand]; exact runCommand_of_uninit hp hb

theorem exec_of_startCheck {i : Instr} {s : State} {e : Err} (h : startChecks s.params i s.latch = some e) :
    exec i s = .next (completeFailure e s) := by
  rw [exec_eq_runCommand]; exact runCommand_of_startCheck h

/-! ### What a body error does to the destination window (60_exceptions R296) -/

theorem afterBodyError_of_not_decoder {i : Instr} (h : isDecoder i = false) (s : State) : afterBodyError i s = s := by
  simp [afterBodyError, h]

theorem afterBodyError_of_decoder {i : Instr} (h : isDecoder i = true) (s : State) :
    afterBodyError i s = scrambleDst i s := by
  simp [afterBodyError, h]

@[simp] theorem afterBodyError_params (i : Instr) (s : State) : (afterBodyError i s).params = s.params := by
  unfold afterBodyError; split <;> rfl
@[simp] theorem afterBodyError_status (i : Instr) (s : State) : (afterBodyError i s).status = s.status := by
  unfold afterBodyError; split <;> rfl
@[simp] theorem afterBodyError_cmd (i : Instr) (s : State) : (afterBodyError i s).cmd = s.cmd := by
  unfold afterBodyError; split <;> rfl
@[simp] theorem afterBodyError_ops (i : Instr) (s : State) : (afterBodyError i s).ops = s.ops := by
  unfold afterBodyError; split <;> rfl
@[simp] theorem afterBodyError_irqEn (i : Instr) (s : State) : (afterBodyError i s).irqEn = s.irqEn := by
  unfold afterBodyError; split <;> rfl
@[simp] theorem afterBodyError_latch (i : Instr) (s : State) : (afterBodyError i s).latch = s.latch := by
  unfold afterBodyError; split <;> rfl
@[simp] theorem afterBodyError_response (i : Instr) (s : State) : (afterBodyError i s).response = s.response := by
  unfold afterBodyError; split <;> rfl
@[simp] theorem afterBodyError_inputs (i : Instr) (s : State) : (afterBodyError i s).inputs = s.inputs := by
  unfold afterBodyError; split <;> rfl
@[simp] theorem afterBodyError_epoch (i : Instr) (s : State) : (afterBodyError i s).epoch = s.epoch := by
  unfold afterBodyError; split <;> rfl

/-! ### Every memory a command leaves is canonical and in range -/

/-- What a command leaves in memory: a store of at most the destination window, wholly below MEM_SIZE, or nothing. -/
theorem exec_mem {i : Instr} {s t : State} (h : exec i s = .next t) :
    ∃ bs : List Byte, t.mem = storeBytes s.mem s.latch.dst bs ∧ bs.length ≤ dstLen i s.latch ∧
      (bs = [] ∨ s.latch.dst + bs.length ≤ s.params.memSize) := by
  cases exec_next h with
  | checkFailed e _ => exact ⟨[], by simp, by simp, .inl rfl⟩
  | succeeded r hp hb =>
    have hl := (bodyOf_ok hb).1
    refine ⟨r.out, rfl, hl, ?_⟩
    rcases hp.destRange with h0 | h0
    · left; exact List.length_eq_zero_iff.mp (by omega)
    · right; omega
  | bodyFailed e hp hb hr =>
    unfold afterBodyError
    split
    · refine ⟨freeBytes s.draws (min (dstLen i s.latch) (s.params.memSize - s.latch.dst)), rfl, by simp, ?_⟩
      by_cases h0 : s.latch.dst ≤ s.params.memSize
      · right; simp; omega
      · left; rw [show s.params.memSize - s.latch.dst = 0 by omega]; simp [freeBytes]
    · exact ⟨[], by simp, by simp, .inl rfl⟩

end Sys2Proof.Machine
end

