-- ==== Sys2Proof/Laws/Pipeline.lean ====
section
/-!
SUPPORT. Byte strings in memory, the container header, and the coders end to end.
-/

namespace Sys2Proof.Machine

/-! ### Byte strings in memory -/

theorem BytesAt.append {m : Memory} {a : Nat} {xs ys : List Byte} (h : BytesAt m a (xs ++ ys)) :
    BytesAt m a xs ∧ BytesAt m (a + xs.length) ys := by
  constructor
  · intro j b hj
    have hl : j < xs.length := (List.getElem?_eq_some_iff.mp hj).1
    exact h j b (by rw [List.getElem?_append_left hl, hj])
  · intro j b hj
    rw [Nat.add_assoc]
    exact h _ b (by rw [List.getElem?_append_right (by omega)]; simpa using hj)

/-- The window of a byte string reads as that byte string. -/
theorem readWindow_of_bytesAt {m : Memory} {a : Nat} {bs : List Byte} (h : BytesAt m a bs) :
    readWindow m a bs.length = .ok bs := by
  have hr : readWindow m a bs.length = .ok ((List.range bs.length).map fun j => bs.getD j 0) := by
    refine readWindow_eq_map fun j hj => h j _ ?_
    rw [List.getD_eq_getElem?_getD, List.getElem?_eq_getElem hj]
    rfl
  rw [hr]
  congr 1
  apply List.ext_getElem
  · simp
  · intro n h1 h2
    simp [List.getD_eq_getElem?_getD, List.getElem?_eq_getElem h2]

/-- A store of 32-bit values, read back as one of them. -/
theorem wordAt_storeBytes_of_getElem? {m : Memory} {a i : Nat} {ws : List Word} {w : Word} (h : ws[i]? = some w) :
    wordAt (storeBytes m a (wordsToBytes ws)) (a + 4 * i) = some w := by
  obtain ⟨hi, rfl⟩ := List.getElem?_eq_some_iff.mp h
  exact wordAt_storeBytes hi

/-! ### The container header (30_encoding R111) -/

theorem halfBytes_length (qt : List Nat) : (qt.flatMap (beBytes 2)).length = 2 * qt.length := by
  induction qt with
  | nil => rfl
  | cons q qt ih => rw [List.flatMap_cons, List.length_append, ih, beBytes_length, List.length_cons]; omega

theorem headerBytes_length {w h : Nat} {qt : List Nat} (hq : qt.length = 64) :
    (headerBytes w h qt).length = 138 := by
  simp [headerBytes, hq]

theorem bytesToHalves_halfBytes : ∀ qt : List Nat, (∀ q ∈ qt, q < 65536) → bytesToHalves (qt.flatMap (beBytes 2)) = qt
  | [], _ => rfl
  | q :: qt, h => by
    have e : beBytes 2 q = [BitVec.ofNat 8 (q / 256), BitVec.ofNat 8 q] := by simp [beBytes, List.range_succ]
    have hv := beValue_beBytes 2 q
    rw [List.flatMap_cons, e]
    simp only [List.cons_append, List.nil_append, bytesToHalves]
    rw [← e, hv, bytesToHalves_halfBytes qt (fun x hx => h x (by simp [hx])),
      Nat.mod_eq_of_lt (by simpa using h q (by simp))]

theorem bytesToHalves_length : ∀ bs : List Byte, (bytesToHalves bs).length = bs.length / 2
  | [] => rfl
  | [_] => by simp [bytesToHalves]
  | _ :: _ :: rest => by simp [bytesToHalves, bytesToHalves_length rest]; omega

theorem bytesToHalves_getElem? : ∀ (bs : List Byte) (i : Nat), i < bs.length / 2 →
    (bytesToHalves bs)[i]? = some (beValue ((bs.drop (2 * i)).take 2))
  | [], i, h => by simp at h
  | [_], i, h => by simp at h
  | b0 :: b1 :: rest, i, h => by
    cases i with
    | zero => simp [bytesToHalves]
    | succ i =>
      have ih := bytesToHalves_getElem? rest i (by simp at h; omega)
      rw [bytesToHalves, List.getElem?_cons_succ, ih, show 2 * (i + 1) = 2 * i + 1 + 1 by ring]
      rfl

/-- The fields of a header read back as they were written. -/
theorem ofBytes_headerBytes {w h : Nat} {qt : List Nat} (hw : w < 2 ^ 32) (hh : h < 2 ^ 32)
    (hq : ∀ q ∈ qt, q < 65536) : Header.ofBytes (headerBytes w h qt) =
      { width := BitVec.ofNat 32 w, height := BitVec.ofNat 32 h, ss := 1, qf := 0, qt := qt } := by
  have t1 : (headerBytes w h qt).take 4 = beBytes 4 w := by
    rw [headerBytes, List.take_append_of_le_length (by simp)]; simp [List.take_of_length_le]
  have d4 : (headerBytes w h qt).drop 4 = beBytes 4 h ++ ([1, 0] ++ qt.flatMap (beBytes 2)) := by
    rw [headerBytes, List.drop_append_of_le_length (by simp)]; simp [List.drop_of_length_le]
  have t2 : ((headerBytes w h qt).drop 4).take 4 = beBytes 4 h := by
    rw [d4, List.take_append_of_le_length (by simp)]; simp [List.take_of_length_le]
  have d8 : (headerBytes w h qt).drop 8 = [1, 0] ++ qt.flatMap (beBytes 2) := by
    have hd := List.drop_drop (i := 4) (j := 4) (l := headerBytes w h qt)
    rw [← hd, d4, List.drop_append_of_le_length (by simp)]; simp [List.drop_of_length_le]
  have g8 : (headerBytes w h qt).getD 8 0 = 1 := by
    simpa [List.getD_eq_getElem?_getD] using congrArg (fun l => l.getD 0 0) d8
  have g9 : (headerBytes w h qt).getD 9 0 = 0 := by
    simpa [List.getD_eq_getElem?_getD] using congrArg (fun l => l.getD 1 0) d8
  have d10 : (headerBytes w h qt).drop 10 = qt.flatMap (beBytes 2) := by
    have hd := List.drop_drop (i := 2) (j := 8) (l := headerBytes w h qt)
    rw [← hd, d8]; rfl
  simp only [Header.ofBytes, t1, t2, g8, g9, d10, bytesToHalves_halfBytes qt hq, beValue_beBytes]
  rw [Nat.mod_eq_of_lt (by simpa using hw), Nat.mod_eq_of_lt (by simpa using hh)]

/-! ### Bits of a section in memory (30_encoding R118) -/

/-- The decoder reads a bit of its input as the bit it is. -/
theorem readBit_of_bitAt {src : BitSource} {k : Nat} {b : Bool} (h : BitAt src.mem src.base k b)
    (hk : k < 8 * src.len) : readBit src k = .ok b := by
  obtain ⟨x, hx, rfl⟩ := h
  rw [readBit, if_neg (by omega), engineRead_ok.mpr hx]
  simp [pure_eq_ok, BitVec.getMsbD, Nat.mod_lt]

/-! ### The coders -/

/-- The encoder's outcome on a sequence whose encoding is `out` (46_entropy R245, R246). -/
theorem encodeInto_eq {p : Params} {limit : Nat} {hdr out : List Byte} {s : List Word} (he : huffEnc s = some out) :
    encodeInto p limit hdr s =
      if p.maxSymbols < s.dedup.length ∨ limit < (hdr ++ out).length then .error (.raise .capacity)
      else .ok (Success.bytes (hdr ++ out)) := by
  unfold encodeInto
  rw [freqTable_length, he]
  by_cases h1 : p.maxSymbols < s.dedup.length <;> simp [h1]

/-- The decoder gives back an encoded sequence (46_entropy R261). -/
theorem huffDec_huffEnc {p : Params} {src : BitSource} {s : List Word} {out : List Byte} (he : huffEnc s = some out)
    (hn : s.dedup.length ≤ p.maxSymbols) (hb : BytesAt src.mem src.base out) (hl : out.length ≤ src.len) :
    huffDec p src s.length = .ok s := by
  by_cases hs : s = []
  · subst hs; rfl
  obtain ⟨t, cs, _, hp, hcs, he'⟩ := huffEnc_cons hs
  rw [he] at he'; cases he'
  obtain ⟨h1, h2⟩ := hb.append
  rw [List.length_append] at hl
  have hb1 := bitsAt_section64 (off := 0) (s := t.ser) h1 (by omega)
  have hb2 := bitsAt_section64 (off := (section64 t.ser).length) (s := cs) h2 (by omega)
  have hnodes := t.nodes_eq
  rw [hp.length_eq] at hnodes
  have hpar := parseTree_ser (limit := nodeLimit p) (fuel := nodeLimit p) (m := 0) hb1
    (by simp only [nodeLimit]; omega) (by simp only [nodeLimit]; omega)
  unfold huffDec
  rw [if_neg (by simpa using hs)]
  simp only [Nat.mul_zero] at hpar
  rw [hpar]
  simp only [ok_bind, streamStart, Nat.zero_add]
  rw [section64_length] at hb2
  rw [show 64 * ((t.ser.length + 63) / 64) = 8 * (8 * ((t.ser.length + 63) / 64)) by omega]
  exact decodeStream_encodeValues hcs hb2

/-! ### The coefficient sequence (00_scope R18, 47_pipeline R271) -/

theorem planeBlocks_length {plane : List Byte} {w h : Nat} : (planeBlocks plane w h).length = tiles w h := by
  unfold planeBlocks
  split_ifs with hc
  · exact chunks64_length _ _
  · have : w = 0 ∨ h = 0 := by omega
    rcases this with rfl | rfl <;> simp [tiles, ceil8]

theorem planeBlocks_mem {plane : List Byte} {w h : Nat} {b : Block} (hb : b ∈ planeBlocks plane w h) :
    b.length = 64 := by
  unfold planeBlocks at hb
  split_ifs at hb
  · exact chunks64_mem (tile_length plane w h) hb
  · simp at hb

theorem imageToBlocks_length (img : List Byte) (w h : Nat) : (imageToBlocks img w h).length = imageBlocks w h := by
  simp only [imageToBlocks, List.length_append, planeBlocks_length, imageBlocks]; omega

/-- COMPRESS makes as many coefficients as DECOMPRESS asks for: `Ncoef(W, H)`. -/
theorem coefficients_length (img : List Byte) (w h : Nat) {qt : List Nat} (hq : qt.length = 64) :
    (coefficients img w h qt).length = ncoef w h := by
  have key : ∀ bs : List Block, (bs.flatMap fun f => quantBlock qt (fdct f)).length = 64 * bs.length := by
    intro bs
    induction bs with
    | nil => rfl
    | cons b bs ih =>
      rw [List.flatMap_cons, List.length_append, ih, quantBlock_length hq (fdct_length b), List.length_cons]; omega
  rw [coefficients, List.length_map, key, imageToBlocks_length, ncoef, Nat.mul_comm]

end Sys2Proof.Machine
end

