-- ==== Sys2Proof/Laws/Codebook.lean ====
section
/-!
SUPPORT. How long a code can be, and a bound on the length of an encoding.
-/

namespace Sys2Proof.Machine

/-- A path is shorter than the tree has leaves: "every code has length 1 to n-1" (46_entropy R241). -/
theorem HTree.path_length_lt {t : HTree} {v : Word} {c : Bits} (h : (v, c) ∈ t.paths) : c.length < t.leaves.length := by
  induction t generalizing c with
  | leaf u => simp [HTree.paths] at h; simp [HTree.leaves, h.2]
  | node l r ihl ihr =>
    have hl := l.leaves_pos
    have hr := r.leaves_pos
    simp only [HTree.paths, List.mem_append, List.mem_map, Prod.mk.injEq, Prod.exists] at h
    rcases h with ⟨a, b, hab, rfl, rfl⟩ | ⟨a, b, hab, rfl, rfl⟩
    · have := ihl hab; simp [HTree.leaves]; omega
    · have := ihr hab; simp [HTree.leaves]; omega

theorem HTree.code_length_le {t : HTree} {v : Word} {c : Bits} (h : (v, c) ∈ t.codebook) :
    c.length ≤ t.leaves.length := by
  cases t with
  | leaf u => simp [HTree.codebook] at h; simp [HTree.leaves, h.2]
  | node l r => exact (HTree.path_length_lt h).le

theorem encodeValues_length_le {t : HTree} {s : List Word} {cs : Bits} (h : encodeValues t.codebook s = some cs) :
    cs.length ≤ s.length * t.leaves.length := by
  induction s generalizing cs with
  | nil => cases h; simp
  | cons v s ih =>
    obtain ⟨c, ds, h1, h2, rfl⟩ := encodeValues_cons h
    have hc := HTree.code_length_le (mem_of_lookup h1)
    have hd := ih h2
    rw [List.length_append, List.length_cons, Nat.succ_mul]
    omega

/-- An encoding of N values is at most `5·N + N²/8 + 16` bytes. -/
theorem huffEnc_length_le {s : List Word} {out : List Byte} (h : huffEnc s = some out) :
    out.length ≤ 5 * s.length + s.length * s.length / 8 + 16 := by
  by_cases hs : s = []
  · subst hs; cases h; simp
  · obtain ⟨t, cs, _, hp, hcs, he⟩ := huffEnc_cons hs
    rw [h] at he; cases he
    have hn : t.leaves.length ≤ s.length := by rw [hp.length_eq]; exact s.dedup_sublist.length_le
    have hser := t.ser_length
    have hc := encodeValues_length_le hcs
    have hm : s.length * t.leaves.length ≤ s.length * s.length := Nat.mul_le_mul_left _ hn
    rw [List.length_append, section64_length, section64_length]
    omega

end Sys2Proof.Machine
end

