-- ==== Sys2Proof/Laws/Decode.lean ====
section
/-!
SUPPORT. The two fields of a command word, and a row of the opcode map as an equation.
-/

namespace Sys2Proof

/-- The mask of every row keeps the whole word (30_encoding R93). -/
theorem and_fullMask (w : Word) : w &&& 0xFFFFFFFF = w := by
  rw [show (0xFFFFFFFF : Word) = BitVec.allOnes 32 from rfl, BitVec.and_allOnes]

@[simp] theorem rsvd_toWord (c : CmdWord) : c.toWord.extractLsb' 8 24 = c.rsvd :=
  BitVec.extractLsb'_append_eq_left

@[simp] theorem opcode_toWord (c : CmdWord) : c.toWord.extractLsb' 0 8 = c.opcode :=
  BitVec.extractLsb'_append_eq_right

/-- The fields of the word of two fields are those fields. -/
@[simp] theorem ofWord_toWord (c : CmdWord) : CmdWord.ofWord c.toWord = c := by
  simp [CmdWord.ofWord]

/-- A word is the word of its fields. -/
@[simp] theorem toWord_ofWord (w : Word) : (CmdWord.ofWord w).toWord = w := by
  simp only [CmdWord.ofWord, CmdWord.toWord]
  ext i hi
  simp only [BitVec.getElem_append, BitVec.getElem_extractLsb']
  split
  · simp [BitVec.getLsbD, BitVec.getElem_eq_testBit_toNat]
  · rw [show 8 + (i - 8) = i by omega]; simp [BitVec.getLsbD, BitVec.getElem_eq_testBit_toNat]

/-- A rejected word is rejected by the name of what is wrong with it (30_encoding R95). -/
theorem decode_eq_error {w : Word} (h : ∀ i, decode w ≠ .ok i) :
    decode w = if w.extractLsb' 8 24 = 0 then .error .opcodeUnassigned else .error .reservedNotZero := by
  unfold decode at h ⊢
  split
  · next r hr => exact absurd (by rw [hr]) (h r.instr)
  · simp [CmdWord.reservedZero, CmdWord.ofWord]

/-- The opcode map has one row per command, in the table's order. -/
theorem opcodeMap_instrs : opcodeMap.map OpcodeRow.instr = Instr.all := rfl

/-- No two rows of the opcode map have the same word. -/
theorem opcodeMap_distinct : (opcodeMap.map OpcodeRow.word).Nodup := by decide

end Sys2Proof
end

