-- ==== Sys2Proof/Laws/HostProgram.lean ====
section
/-!
SUPPORT. What the host programs of 30_encoding R96 and 70_reset R326 consist of.
-/

namespace Sys2Proof.Machine

/-- A table load writes each entry its value, and nothing else. -/
@[simp] theorem mem_loadTable {v : Fin 64 → Word} {e : Event} :
    e ∈ loadTable v ↔ ∃ i : Fin 64, e = .regWrite (0x100 + 4 * i.val) 4 (v i) := by
  simp [loadTable, wr, Reg.offset]

@[simp] theorem mem_qt {v : Word} {e : Event} :
    e ∈ qt v ↔ ∃ i : Fin 64, e = .regWrite (0x100 + 4 * i.val) 4 v := mem_loadTable

/-- Everything the boot sequence does, step by step. -/
theorem mem_boot {irq : Bool} {qtCanon : Vector Half 64} {e : Event} :
    e ∈ boot irq qtCanon ↔
      (e ∈ [Event.regRead 0x000 4, .regRead 0x034 4, .regRead 0x038 4, .regRead 0x03C 4] ∨
        (∃ i : Fin 64, e = .regWrite (0x100 + 4 * i.val) 4 (qtCanon[i].setWidth 32)) ∨
        e ∈ [Event.regWrite 0x00C 4 (if irq then 1 else 0), .regWrite 0x008 4 8, .regWrite 0x010 4 1]) := by
  simp only [boot, rd, wr, Reg.offset, List.mem_append, mem_loadTable, List.mem_cons, List.not_mem_nil, or_false, or_assoc]

end Sys2Proof.Machine
end

