-- ==== Sys2Proof/Laws/PerInstr.lean ====
section
/-!
SUPPORT. The family RoundTrip: of each command, that it is well formed and that the decoder reads its command word as it.
-/

namespace Sys2Proof.Laws.RoundTrip

/-- The command is well formed, its word has RSVD = 0 and its own OPCODE, and decodes to it (30_encoding R91, R93). -/
def Statement (i : Instr) : Prop :=
  i.wellFormed = true ∧ (CmdWord.ofWord (encode i)).wellFormed = true ∧ decode (encode i) = .ok i

theorem nop : Statement .nop := by unfold Statement; decide
theorem colorFwd : Statement .colorFwd := by unfold Statement; decide
theorem subsample : Statement .subsample := by unfold Statement; decide
theorem tile : Statement .tile := by unfold Statement; decide
theorem fdct : Statement .fdct := by unfold Statement; decide
theorem quant : Statement .quant := by unfold Statement; decide
theorem huffEnc : Statement .huffEnc := by unfold Statement; decide
theorem compress : Statement .compress := by unfold Statement; decide
theorem colorInv : Statement .colorInv := by unfold Statement; decide
theorem upsample : Statement .upsample := by unfold Statement; decide
theorem untile : Statement .untile := by unfold Statement; decide
theorem idct : Statement .idct := by unfold Statement; decide
theorem dequant : Statement .dequant := by unfold Statement; decide
theorem huffDec : Statement .huffDec := by unfold Statement; decide
theorem decompress : Statement .decompress := by unfold Statement; decide

end Sys2Proof.Laws.RoundTrip
end

