-- ==== Sys2Proof/Laws/Stages.lean ====
section
/-!
SUPPORT. The pipelines in terms of the stage functions: the coefficient sequence of COMPRESS tile by tile and the Image of
DECOMPRESS pixel by pixel (47_pipeline R271, R274).
-/

namespace Sys2Proof.Machine

/-! ### Compression -/

/-- The pixels of an Image given byte by byte. -/
theorem pixelsOf_range_map : ∀ (n : Nat) (img : Nat → Byte), pixelsOf ((List.range (3 * n)).map img) =
    (List.range n).map fun p => (img (3 * p), img (3 * p + 1), img (3 * p + 2))
  | 0, _ => rfl
  | n + 1, img => by
    rw [show 3 * (n + 1) = 3 * n + 1 + 1 + 1 by ring]
    simp only [List.range_succ_eq_map, List.map_cons, List.map_map, pixelsOf]
    have ih := pixelsOf_range_map n fun j => img (j + 3)
    simp only [Function.comp_def] at ih ⊢
    exact congrArg₂ _ rfl ih

theorem planeTiles_length (smp : Nat → Nat → Byte) (w h : Nat) : (planeTiles smp w h).length = tiles w h := by
  simp [planeTiles, tiles]

/-- Only the samples of the plane matter. -/
theorem planeTiles_congr {f g : Nat → Nat → Byte} {w h : Nat} (hfg : ∀ x y, x < w → y < h → f x y = g x y) :
    planeTiles f w h = planeTiles g w h := by
  unfold planeTiles
  refine List.map_congr_left fun k _ => List.map_congr_left fun e _ => ?_
  dsimp only
  split_ifs with hc
  · rw [hfg _ _ hc.1 hc.2]
  · rfl

/-- The tiler's blocks, sample by sample (43_tiler R186). -/
theorem planeBlocks_eq_planeTiles (plane : List Byte) (w h : Nat) :
    planeBlocks plane w h = planeTiles (fun x y => plane.getD (y * w + x) 0) w h := by
  by_cases hc : 1 ≤ w ∧ 1 ≤ h
  · rw [planeBlocks, if_pos hc]
    apply List.ext_getElem?
    intro k
    by_cases hk : k < tiles w h
    · rw [chunks64_getElem? _ hk, planeTiles, List.getElem?_map, ← tiles, List.getElem?_range hk, Option.map_some]
      congr 1
      apply List.ext_getElem?
      intro e
      rw [List.getElem?_take]
      split_ifs with he
      · have hcw : 0 < ceil8 w := by unfold ceil8; omega
        have htx : k % ceil8 w < ceil8 w := Nat.mod_lt _ hcw
        have hty : k / ceil8 w < ceil8 h := Nat.div_lt_of_lt_mul hk
        have hi := tileIndices_getElem? htx hty (show e / 8 < 8 by omega) (show e % 8 < 8 by omega)
        rw [show 64 * (k / ceil8 w * ceil8 w + k % ceil8 w) + (8 * (e / 8) + e % 8) = 64 * k + e by
          rw [Nat.div_add_mod', Nat.div_add_mod]] at hi
        rw [List.getElem?_drop, tile, List.getElem?_map, hi, List.getElem?_map, List.getElem?_range he]
        simp only [Option.map_some, Option.some.injEq]
        split_ifs <;> rfl
      · rw [List.getElem?_eq_none]; simp; omega
    · rw [List.getElem?_eq_none (by rw [chunks64_length]; omega),
        List.getElem?_eq_none (by rw [planeTiles_length]; omega)]
  · have h0 : tiles w h = 0 := by
      have : w = 0 ∨ h = 0 := by omega
      rcases this with rfl | rfl <;> simp [tiles, ceil8]
    rw [planeBlocks, if_neg hc, List.eq_nil_of_length_eq_zero ((planeTiles_length _ w h).trans h0)]

/-- A sample of a subsampled plane (42_subsample R172). -/
theorem subsample_getD {plane : List Byte} {w h i j : Nat} (hi : i < w / 2) (hj : j < h / 2) :
    (subsample plane w h).getD (j * (w / 2) + i) 0 = plane.getD (2 * j * w + 2 * i) 0 := by
  rw [List.getD_eq_getElem?_getD, subsample, List.getElem?_map, subsampleIndices_getElem? hi hj]
  rfl

theorem quantBlock_eq_map {qt : List Nat} {b : Block} (hq : qt.length = 64) (hb : b.length = 64) :
    (quantBlock qt b).map twos32 =
      (List.range 64).map fun e => BitVec.ofInt 32 (divRoundHA (b.getD e 0) (qt.getD e 0)) := by
  apply List.ext_getElem
  · simp [quantBlock, hq, hb]
  · intro e h1 h2
    have he : e < 64 := by simpa using h2
    simp [quantBlock, quant, twos32, List.getD_eq_getElem?_getD, List.getElem?_eq_getElem (hb ▸ he : e < b.length),
      List.getElem?_eq_getElem (hq ▸ he : e < qt.length)]

/-- COMPRESS's coefficients are the stage functions', plane by plane and tile by tile (47_pipeline R271). -/
theorem coefficients_eq_compressSequence (img : Nat → Byte) (w h : Nat) {qt : List Nat} (hq : qt.length = 64) :
    coefficients ((List.range (3 * (w * h))).map img) w h qt = compressSequence img w h qt := by
  have plane : ∀ (g : Byte × Byte × Byte → Byte) (x y : Nat), x < w → y < h →
      (((pixelsOf ((List.range (3 * (w * h))).map img)).map fun p => colorFwdPx p.1 p.2.1 p.2.2).map g).getD
          (y * w + x) 0 =
        g (colorFwdPx (img (3 * (y * w + x))) (img (3 * (y * w + x) + 1)) (img (3 * (y * w + x) + 2))) := by
    intro g x y hx hy
    have hp : y * w + x < w * h := by rw [Nat.mul_comm w h]; exact grid_index_lt hy hx
    simp [pixelsOf_range_map, List.getD_eq_getElem?_getD, hp]
  have chroma : ∀ g : Byte × Byte × Byte → Byte,
      planeBlocks (subsample (((pixelsOf ((List.range (3 * (w * h))).map img)).map
          fun p => colorFwdPx p.1 p.2.1 p.2.2).map g) w h) (halfDim w) (halfDim h) =
        planeTiles (fun i j => g (colorFwdPx (img (3 * (2 * j * w + 2 * i))) (img (3 * (2 * j * w + 2 * i) + 1))
          (img (3 * (2 * j * w + 2 * i) + 2)))) (w / 2) (h / 2) := by
    intro g
    rw [planeBlocks_eq_planeTiles]
    exact planeTiles_congr fun i j (hi : i < w / 2) (hj : j < h / 2) =>
      (subsample_getD hi hj).trans (plane g _ _ (by omega) (by omega))
  have luma := planeBlocks_eq_planeTiles (((pixelsOf ((List.range (3 * (w * h))).map img)).map
      fun p => colorFwdPx p.1 p.2.1 p.2.2).map fun p => p.1) w h
  rw [planeTiles_congr (plane fun p => p.1)] at luma
  have blocks : ∀ b ∈ imageToBlocks ((List.range (3 * (w * h))).map img) w h,
      (quantBlock qt (fdct b)).map twos32 =
        (List.range 64).map fun e => BitVec.ofInt 32 (divRoundHA ((fdct b).getD e 0) (qt.getD e 0)) :=
    fun b _ => quantBlock_eq_map hq (fdct_length b)
  rw [coefficients, List.map_flatMap, List.flatMap_congr blocks]
  simp only [imageToBlocks, colorFwdPlanes, luma, chroma, compressSequence]

/-! ### Decompression -/

theorem dequantBlock_eq_map {qt : List Nat} {seq : List Word} {k : Nat} (hq : qt.length = 64)
    (hk : 64 * k + 64 ≤ seq.length) :
    dequantBlock qt (((seq.map sext32).drop (64 * k)).take 64) = (List.range 64).map fun n =>
      min 2147483647 (max (-2147483648) ((seq.getD (64 * k + n) 0).toInt * (qt.getD n 0 : Int))) := by
  apply List.ext_getElem
  · simp [dequantBlock, hq]; omega
  · intro n h1 h2
    have hn : n < 64 := by simpa using h2
    simp [dequantBlock, dequant, sat32, clamp, sext32, List.getD_eq_getElem?_getD,
      List.getElem?_eq_getElem (show 64 * k + n < seq.length by omega),
      List.getElem?_eq_getElem (hq ▸ hn : n < qt.length)]

/-- The elements of all decoded blocks, in order. -/
theorem decodedElements_getD {qt : List Nat} {seq : List Word} {n k e : Nat} (hq : qt.length = 64)
    (hl : seq.length = 64 * n) (hk : k < n) (he : e < 64) :
    (((chunks64 n (seq.map sext32)).map (decodeBlock qt)).flatten).getD (64 * k + e) 0 = decodedElement seq qt k e := by
  rw [List.getD_eq_getElem?_getD, flatten_getElem?_of_blocks (k := k) (e := e) (b := decodeBlock qt _) ?_
    (by rw [List.getElem?_map, chunks64_getElem? _ hk]; rfl) he]
  · rw [decodeBlock, dequantBlock_eq_map hq (by omega), decodedElement, List.getD_eq_getElem?_getD]
  · intro b hb
    obtain ⟨c, _, rfl⟩ := List.mem_map.mp hb
    exact idct_length _

/-- A sample of a plane whose blocks start at block `k0` of the decoded ones (43_tiler R188). -/
theorem untile_getElem?_decoded {els : List Int} {seq : List Word} {qt : List Nat} {k0 w h x y : Nat}
    (hx : x < w) (hy : y < h)
    (hels : ∀ k e, k < tiles w h → e < 64 → els.getD (64 * k + e) 0 = decodedElement seq qt (k0 + k) e) :
    (untile els w h)[y * w + x]? = some (decodedSample seq qt k0 w x y) := by
  have hk : y / 8 * ceil8 w + x / 8 < tiles w h := by
    rw [tiles, Nat.mul_comm (ceil8 w) (ceil8 h)]; exact grid_index_lt (div8_lt_ceil8 hy) (div8_lt_ceil8 hx)
  rw [untile, List.getElem?_map, untileIndices_getElem? hx hy, Option.map_some, hels _ _ hk (by omega)]
  rfl

/-- A sample of the full plane of such a chroma plane (42_subsample R174). -/
theorem upsample_getElem?_decoded {els : List Int} {seq : List Word} {qt : List Nat} {k0 w h x y : Nat}
    (hx : x < w) (hy : y < h)
    (hels : ∀ k e, k < tiles (w / 2) (h / 2) → e < 64 →
      els.getD (64 * k + e) 0 = decodedElement seq qt (k0 + k) e) :
    (upsample (untile els (w / 2) (h / 2)) w h)[y * w + x]? = some (decodedChroma seq qt k0 w h x y) := by
  unfold upsample decodedChroma
  by_cases hc : w / 2 = 0 ∨ h / 2 = 0
  · rw [if_pos (chromaEmpty_iff.mpr hc), if_pos hc, List.getElem?_replicate,
      if_pos (by rw [Nat.mul_comm w h]; exact grid_index_lt hy hx)]
  · rw [if_neg (fun h' => hc (chromaEmpty_iff.mp h')), if_neg hc, List.getElem?_map, upsampleIndices_getElem? hx hy,
      Option.map_some, List.getD_eq_getElem?_getD,
      untile_getElem?_decoded (k0 := k0) (seq := seq) (qt := qt) (by omega) (by omega) hels]
    rfl

/-- The bytes of one pixel of an Image of three planes (41_color R154). -/
theorem colorInvPlanes_getElem? : ∀ {ys cbs crs : List Byte} {p : Nat} {a b c : Byte}, ys[p]? = some a → cbs[p]? = some b →
    crs[p]? = some c →
    (colorInvPlanes ys cbs crs)[3 * p]? = some (colorInvPx a b c).1 ∧
    (colorInvPlanes ys cbs crs)[3 * p + 1]? = some (colorInvPx a b c).2.1 ∧
    (colorInvPlanes ys cbs crs)[3 * p + 2]? = some (colorInvPx a b c).2.2
  | y :: ys, cb :: cbs, cr :: crs, 0, a, b, c, ha, hb, hc => by
    cases ha; cases hb; cases hc
    simp [colorInvPlanes]
  | y :: ys, cb :: cbs, cr :: crs, p + 1, a, b, c, ha, hb, hc => by
    have ih := colorInvPlanes_getElem? (ys := ys) (cbs := cbs) (crs := crs) (p := p) (by simpa using ha)
      (by simpa using hb) (by simpa using hc)
    simp only [colorInvPlanes] at ih ⊢
    simp only [List.zip_cons_cons, List.flatMap_cons, List.cons_append, List.nil_append,
      show 3 * (p + 1) = 3 * p + 1 + 1 + 1 by ring, List.getElem?_cons_succ]
    exact ih
  | [], _, _, _, _, _, _, ha, _, _ => by simp at ha
  | _ :: _, [], _, _, _, _, _, _, hb, _ => by simp at hb
  | _ :: _, _ :: _, [], _, _, _, _, _, _, hc => by simp at hc

/-- DECOMPRESS's Image is the stage functions', pixel by pixel (47_pipeline R274). -/
theorem imageOfCoefficients_getElem? {hd : Header} {seq : List Word} {x y : Nat} (hq : hd.qt.length = 64)
    (hl : seq.length = ncoef hd.w hd.h) (hx : x < hd.w) (hy : y < hd.h) :
    let c := decodedPixel seq hd.qt hd.w hd.h x y
    (imageOfCoefficients hd seq)[3 * (y * hd.w + x)]? = some c.1 ∧
    (imageOfCoefficients hd seq)[3 * (y * hd.w + x) + 1]? = some c.2.1 ∧
    (imageOfCoefficients hd seq)[3 * (y * hd.w + x) + 2]? = some c.2.2 := by
  have hl' : seq.length = 64 * imageBlocks hd.w hd.h := by rw [hl, ncoef, Nat.mul_comm]
  have hn : imageBlocks hd.w hd.h =
      tiles hd.w hd.h + (tiles (hd.w / 2) (hd.h / 2) + tiles (hd.w / 2) (hd.h / 2)) := by
    simp only [imageBlocks, halfDim]; ring
  have hel : ∀ k e, k < imageBlocks hd.w hd.h → e < 64 →
      (((chunks64 (imageBlocks hd.w hd.h) (seq.map sext32)).map (decodeBlock hd.qt)).flatten)[64 * k + e]?.getD 0 =
        decodedElement seq hd.qt k e := by
    intro k e hk he
    rw [← List.getD_eq_getElem?_getD]
    exact decodedElements_getD hq hl' hk he
  unfold imageOfCoefficients decodedPixel
  refine colorInvPlanes_getElem? (untile_getElem?_decoded hx hy ?_) (upsample_getElem?_decoded hx hy ?_)
    (upsample_getElem?_decoded hx hy ?_)
  · intro k e hk he
    rw [List.getD_eq_getElem?_getD, List.getElem?_take, if_pos (by omega), hel k e (by omega) he, Nat.zero_add]
  · intro k e hk he
    rw [List.getD_eq_getElem?_getD, List.getElem?_take,
      if_pos (by show _ < 64 * tiles (hd.w / 2) (hd.h / 2); omega), List.getElem?_drop,
      show 64 * tiles hd.w hd.h + (64 * k + e) = 64 * (tiles hd.w hd.h + k) + e by ring, hel _ e (by omega) he]
  · intro k e hk he
    rw [List.getD_eq_getElem?_getD, List.getElem?_drop,
      show 64 * tiles hd.w hd.h + 64 * tiles (halfDim hd.w) (halfDim hd.h) + (64 * k + e) =
        64 * (tiles hd.w hd.h + tiles (hd.w / 2) (hd.h / 2) + k) + e by simp only [halfDim]; ring,
      hel _ e (by omega) he]

end Sys2Proof.Machine
end

