-- ==== Sys2Proof/Laws/Step.lean ====
section
/-!
SUPPORT. `step` taken apart once: everything one step can do, and that it keeps memory canonical and in range.
-/

namespace Sys2Proof.Machine

/-- A host access of `n` bytes at offset `off` of register space: by offset, or by host address (20_memory R62). -/
def IsRegWrite (p : Params) (off n : Nat) (v : Word) (e : Event) : Prop :=
  e = .regWrite off n v ∨ ∃ a, route p a = .register off ∧ e = .busWrite a n v

/-- What one event does to a block: every way a step can answer next, from the state `s` the event is taken in. -/
inductive EventNext (e : Event) (s : State) : State → Prop
  /-- An event with no effect: the completion of an idle engine, a host access to another device. -/
  | nothing (h : s.status.busy = false ∨ e ≠ .complete) : EventNext e s s
  | ran (i : Instr) (t : State) (he : e = .complete) (hb : s.status.busy = true)
      (hd : decode s.latch.word.toWord = .ok i) (h : exec i s = .next t) : EventNext e s t
  | illegal (x : DecodeError) (he : e = .complete) (hb : s.status.busy = true)
      (hd : decode s.latch.word.toWord = .error x) : EventNext e s (completeFailure .illegalCmd s)
  | refused (he : e ≠ .complete) : EventNext e s (busError s)
  | regRead (r : Reg) (he : e ≠ .complete) : EventNext e s (answer (readReg s r) s)
  | regWrite (off : Nat) (v : Word) (h4 : off % 4 = 0) (hlt : off < 4096) (he : IsRegWrite s.params off 4 v e) :
      EventNext e s (answer 0 (writeReg (regAt off) v s))
  | memRead (d : Word) (n : Nat) (he : e ≠ .complete) : EventNext e s (answer d { s with draws := s.draws + n })
  | memWrite (a n : Nat) (v : Word) (hn : n = 1 ∨ n = 2 ∨ n = 4) (ha : a + n ≤ s.params.memSize)
      (hr : racesWith s a n = false) (he : e ≠ .complete) :
      EventNext e s (answer 0 { s with mem := storeBytes s.mem a (beBytes n v.toNat) })
  | hardReset (he : e = .hardReset) : EventNext e s (resetStep s)
  | powerOn (he : e = .powerOn) : EventNext e s (powerOnReset s)

theorem engineTurn_next {s t : State} (h : engineTurn s = .next t) : EventNext .complete s t := by
  unfold engineTurn at h
  split_ifs at h with hb
  · unfold complete at h
    split at h
    · next i hd => exact .ran i t rfl hb hd h
    · next x hd => cases h; exact .illegal x rfl hb hd
  · cases h; exact .nothing (.inl (by simpa using hb))

theorem regAccessLegal_iff {off n : Nat} : regAccessLegal off n = true ↔ n = 4 ∧ off % 4 = 0 ∧ off < 4096 := by
  simp [regAccessLegal]

theorem memAccessLegal_iff {p : Params} {a n : Nat} :
    memAccessLegal p a n = true ↔ (n = 1 ∨ n = 2 ∨ n = 4) ∧ a + n ≤ p.memSize := by
  simp [memAccessLegal]

theorem hostRegWrite_next {e : Event} {off n : Nat} {v : Word} {s : State} (he : IsRegWrite s.params off n v e) :
    EventNext e s (hostRegWrite off n v s) := by
  unfold hostRegWrite
  split_ifs with h
  · obtain ⟨rfl, h4, hlt⟩ := regAccessLegal_iff.mp h
    exact .regWrite off v h4 hlt he
  · exact .refused (by rcases he with rfl | ⟨a, _, rfl⟩ <;> simp)

theorem hostRegRead_next {e : Event} {off n : Nat} {s : State} (he : e ≠ .complete) :
    EventNext e s (hostRegRead off n s) := by
  unfold hostRegRead
  split_ifs
  · exact .regRead _ he
  · exact .refused he

theorem hostMemRead_next {e : Event} {a n : Nat} {s : State} (he : e ≠ .complete) :
    EventNext e s (hostMemRead a n s) := by
  unfold hostMemRead
  split_ifs
  · exact .memRead _ n he
  · exact .refused he

theorem hostMemWrite_next {e : Event} {a n : Nat} {v : Word} {s t : State} (he : e ≠ .complete)
    (h : hostMemWrite a n v s = .next t) : EventNext e s t := by
  unfold hostMemWrite at h
  split_ifs at h with h1 h2
  · cases h
    obtain ⟨hn, ha⟩ := memAccessLegal_iff.mp h1
    exact .memWrite a n v hn ha (by simpa using h2) he
  · cases h; exact .refused he

theorem runEvent_next {e : Event} {s t : State} (h : runEvent e s = .next t) : EventNext e s t := by
  cases e with
  | complete => exact engineTurn_next h
  | regWrite off n v => cases h; exact hostRegWrite_next (.inl rfl)
  | regRead off n => cases h; exact hostRegRead_next (by simp)
  | memWrite a n v => exact hostMemWrite_next (by simp) h
  | memRead a n => cases h; exact hostMemRead_next (by simp)
  | busWrite addr n v =>
    simp only [runEvent, hostEvent, hostBusWrite] at h
    split at h
    · next off ho => cases h; exact hostRegWrite_next (.inr ⟨addr, ho, rfl⟩)
    · exact hostMemWrite_next (by simp) h
    · cases h; exact .nothing (.inr (by simp))
  | busRead addr n =>
    simp only [runEvent, hostEvent, hostBusRead] at h
    cases h
    split
    · exact hostRegRead_next (by simp)
    · exact hostMemRead_next (by simp)
    · exact .nothing (.inr (by simp))
  | hardReset => cases h; exact .hardReset rfl
  | powerOn => cases h; exact .powerOn rfl

/-- Everything one step can do: an event of the list, or, when none is left, the engine's turn. -/
theorem step_next {s t : State} (h : step s = .next t) :
    (s.inputs = [] ∧ EventNext .complete s t) ∨
    ∃ e rest, s.inputs = e :: rest ∧ EventNext e { s with inputs := rest } t := by
  unfold step at h
  split at h
  · next hi => exact .inl ⟨hi, engineTurn_next h⟩
  · next e rest hi => exact .inr ⟨e, rest, hi, runEvent_next h⟩

/-- A step in terms of the state its event is taken in: `s` but for the events still to come. -/
theorem step_event {s t : State} (h : step s = .next t) :
    ∃ e rest, EventNext e { s with inputs := rest } t ∧
      (s.inputs = e :: rest ∨ (s.inputs = [] ∧ e = .complete ∧ rest = [])) := by
  rcases step_next h with ⟨hi, hn⟩ | ⟨e, rest, hi, hn⟩
  · refine ⟨.complete, [], ?_, .inr ⟨hi, rfl, rfl⟩⟩
    have : { s with inputs := [] } = s := by rw [← hi]
    rwa [this]
  · exact ⟨e, rest, hn, .inl hi⟩

theorem step_of_event {s : State} {e : Event} {rest : List Event} (h : s.inputs = e :: rest) :
    step s = runEvent e { s with inputs := rest } := by
  simp only [step, h]

/-! ### Memory under a register write and a reset -/

theorem scrambleDst_store (i : Instr) (s : State) :
    ∃ bs : List Byte, (scrambleDst i s).mem = storeBytes s.mem s.latch.dst bs ∧
      (bs = [] ∨ s.latch.dst + bs.length ≤ s.params.memSize) := by
  refine ⟨freeBytes s.draws (min (dstLen i s.latch) (s.params.memSize - s.latch.dst)), rfl, ?_⟩
  by_cases h0 : s.latch.dst ≤ s.params.memSize
  · right; simp; omega
  · left; rw [show s.params.memSize - s.latch.dst = 0 by omega]; simp [freeBytes]

/-- A reset stores free bytes to the destination window of an aborted command, and nothing else (70_reset R321). -/
theorem resetStep_store (s : State) :
    ∃ bs : List Byte, (resetStep s).mem = storeBytes s.mem s.latch.dst bs ∧
      (bs = [] ∨ s.latch.dst + bs.length ≤ s.params.memSize) := by
  change ∃ bs : List Byte, (abortCommand s).mem = _ ∧ _
  unfold abortCommand
  split
  · exact scrambleDst_store _ s
  · exact ⟨[], by simp, .inl rfl⟩

theorem writeReg_store (r : Reg) (v : Word) (s : State) :
    ∃ bs : List Byte, (writeReg r v s).mem = storeBytes s.mem s.latch.dst bs ∧
      (bs = [] ∨ s.latch.dst + bs.length ≤ s.params.memSize) := by
  have key : ∀ t : State, t.mem = s.mem → ∃ bs : List Byte, t.mem = storeBytes s.mem s.latch.dst bs ∧
      (bs = [] ∨ s.latch.dst + bs.length ≤ s.params.memSize) := fun t h => ⟨[], by simp [h], .inl rfl⟩
  cases r <;> try exact key _ rfl
  · unfold writeReg writeCmd; split_ifs <;> exact key _ rfl
  · unfold writeReg writeCtrl
    split_ifs
    · exact resetStep_store s
    · exact key _ rfl

theorem abortCommand_params (s : State) : (abortCommand s).params = s.params := by
  unfold abortCommand; split <;> rfl

@[simp] theorem resetStep_params (s : State) : (resetStep s).params = s.params := abortCommand_params s

@[simp] theorem writeReg_params (r : Reg) (v : Word) (s : State) : (writeReg r v s).params = s.params := by
  cases r <;> try rfl
  · unfold writeReg writeCmd; split_ifs <;> rfl
  · unfold writeReg writeCtrl; split_ifs <;> simp

theorem exec_params {i : Instr} {s t : State} (h : exec i s = .next t) : t.params = s.params := by
  cases exec_next h <;> simp

/-- Every step leaves the parameters alone, and leaves memory empty or as one store that ends below MEM_SIZE. -/
theorem step_mem {s t : State} (h : step s = .next t) :
    t.params = s.params ∧
    (t.mem = [] ∨ ∃ (a : Nat) (bs : List Byte), t.mem = storeBytes s.mem a bs ∧
      (bs = [] ∨ a + bs.length ≤ s.params.memSize)) := by
  obtain ⟨e, rest, hn, _⟩ := step_event h
  have same : ∃ (a : Nat) (bs : List Byte), s.mem = storeBytes s.mem a bs ∧
      (bs = [] ∨ a + bs.length ≤ s.params.memSize) := ⟨0, [], by simp, .inl rfl⟩
  cases hn with
  | nothing _ => exact ⟨rfl, .inr same⟩
  | ran i t _ _ _ hx =>
    obtain ⟨bs, h1, _, h2⟩ := exec_mem hx
    have hp := exec_params hx
    exact ⟨hp, .inr ⟨_, bs, h1, h2⟩⟩
  | illegal _ _ _ _ => exact ⟨rfl, .inr same⟩
  | refused _ => exact ⟨rfl, .inr same⟩
  | regRead r _ => exact ⟨rfl, .inr same⟩
  | regWrite off v _ _ _ =>
    obtain ⟨bs, h1, h2⟩ := writeReg_store (regAt off) v { s with inputs := rest }
    exact ⟨writeReg_params _ _ _, .inr ⟨_, bs, h1, h2⟩⟩
  | memRead d n _ => exact ⟨rfl, .inr same⟩
  | memWrite a n v hn ha _ _ => exact ⟨rfl, .inr ⟨a, _, rfl, .inr (by simpa using ha)⟩⟩
  | hardReset _ =>
    obtain ⟨bs, h1, h2⟩ := resetStep_store { s with inputs := rest }
    exact ⟨resetStep_params _, .inr ⟨_, bs, h1, h2⟩⟩
  | powerOn _ => exact ⟨rfl, .inl rfl⟩

/-! ### Registers and offsets -/

/-- The offset of a register leads to that register; a reserved offset leads to none (10_state R20). -/
theorem regAt_offset (r : Reg) : regAt r.offset = r := by
  cases r with
  | qtable i =>
    have : ∀ i : Fin 64, regAt (Reg.qtable i).offset = .qtable i := by decide
    exact this i
  | _ => rfl

/-- From offset 0x040 on there are the table entries and reserved offsets (10_state R36, R38). -/
theorem regAt_high {off : Nat} (h : 0x40 ≤ off) : regAt off =
    if h : 0x100 ≤ off ∧ off < 0x200 then .qtable ⟨(off - 0x100) / 4, by omega⟩ else .reserved := by
  obtain ⟨k, rfl⟩ : ∃ k, off = k + 0x40 := ⟨off - 0x40, by omega⟩
  rfl

theorem offset_legal (r : Reg) : regAccessLegal r.offset 4 = true := by
  rw [regAccessLegal_iff]
  cases r <;> simp [Reg.offset]
  omega

end Sys2Proof.Machine
end

