-- ==== Sys2Proof/Tests/Slice0.lean ====
section
/-!
SUPPORT. Tests: WellFormed refuses ill-formed terms, words written from the opcode map decode, single commands give the
values of 95_test_vectors, and every statement with hypotheses has states that meet them.
-/

namespace Sys2Proof.Tests

open Sys2Proof Sys2Proof.Machine

/-! ### Helpers -/

/-- Memory with `bs` at address `a` and nothing else. -/
def memAt (a : Nat) (bs : List Byte) : Memory := storeBytes [] a bs

/-- The state after reset with operand registers `o` and memory `m`. -/
def idleWith (o : Operands) (m : Memory) : State := { State.reset with ops := o, mem := m }

/-- That state with command `i` accepted. -/
def busyWith (i : Instr) (o : Operands) (m : Memory) : State := accept (encode i) (idleWith o m)

/-- STATUS, RESULT_LEN and `n` bytes from the destination after one command. -/
def ran (i : Instr) (o : Operands) (m : Memory) (n : Nat) : Option (Word × Word × List (Option Byte)) :=
  match exec i (busyWith i o m) with
  | .next t => some (readReg t .status, readReg t .resultLen,
      (List.range n).map fun j => byteAt t.mem (o.dstAddr.toNat + j))
  | .fault _ => none
  | .refused _ => none

/-- STATUS after one command. -/
def statusOf (i : Instr) (o : Operands) (m : Memory) : Option Word :=
  match exec i (busyWith i o m) with
  | .next t => some (readReg t .status)
  | .fault _ => none
  | .refused _ => none

/-- The outcome is a next state. -/
def isNext (o : Host.Outcome State Fault Refusal) : Bool :=
  match o with
  | .next _ => true
  | .fault _ => false
  | .refused _ => false

theorem exists_next {o : Host.Outcome State Fault Refusal} (h : isNext o = true) : ∃ t, o = .next t := by
  cases o with
  | next t => exact ⟨t, rfl⟩
  | fault f => cases h
  | refused r => cases h

/-- Operands for an image or a plane, source at 0, destination at 0x1000 with 0x1000 bytes. -/
def dims (w h : Word) : Operands :=
  { Operands.reset with width := w, height := h, dstAddr := 0x1000, dstLimit := 0x1000 }

/-- Operands for COUNT values or blocks and SRC_LEN bytes, source at 0, destination at 0x1000 with 0x1000 bytes. -/
def counted (n len : Word) : Operands :=
  { Operands.reset with count := n, srcLen := len, dstAddr := 0x1000, dstLimit := 0x1000 }

/-- A table with `v` in entry `i` and 1 elsewhere. -/
def tableWith (i : Fin 64) (v : Half) : Vector Half 64 := (Vector.replicate 64 1).set i v

/-- One block with the listed elements first and 0 elsewhere, as bytes. -/
def blockBytes (els : List Int) : List Byte := wordsToBytes ((els ++ List.replicate (64 - els.length) 0).map twos32)

/-! ### WellFormed (30_encoding R91, R95; 00_scope R6) -/

theorem test_wf_reserved_bit : ({ rsvd := 1, opcode := 0 } : CmdWord).wellFormed = false := by decide
theorem test_wf_reserved_top_bit : ({ rsvd := 0x800000, opcode := 0x17 } : CmdWord).wellFormed = false := by decide
theorem test_wf_opcode_08 : ({ rsvd := 0, opcode := 0x08 } : CmdWord).wellFormed = false := by decide
theorem test_wf_opcode_10 : ({ rsvd := 0, opcode := 0x10 } : CmdWord).wellFormed = false := by decide
theorem test_wf_opcode_18 : ({ rsvd := 0, opcode := 0x18 } : CmdWord).wellFormed = false := by decide
theorem test_wf_opcode_07 : ({ rsvd := 0, opcode := 0x07 } : CmdWord).wellFormed = true := by decide
theorem test_wf_opcode_11 : ({ rsvd := 0, opcode := 0x11 } : CmdWord).wellFormed = true := by decide
theorem test_params_default : Config.defaultParams.legal = true := by decide
theorem test_params_memory_too_small : ({ Config.defaultParams with memSize := 65535 } : Params).legal = false := by decide
theorem test_params_memory_too_large :
    ({ Config.defaultParams with memSize := 2 ^ 32 + 1 } : Params).legal = false := by decide
theorem test_params_no_pixels : ({ Config.defaultParams with maxPixels := 0 } : Params).legal = false := by decide
theorem test_params_many_pixels :
    ({ Config.defaultParams with maxPixels := 1431655766 } : Params).legal = false := by decide
theorem test_params_one_symbol : ({ Config.defaultParams with maxSymbols := 1 } : Params).legal = false := by decide
theorem test_params_many_symbols :
    ({ Config.defaultParams with maxSymbols := 2 ^ 32 } : Params).legal = false := by decide

theorem test_table_with_zero_entry : Config.qtCanonLegal (tableWith 63 0) = false := by decide
theorem test_table_in_range : Config.qtCanonLegal (tableWith 63 0xFFFF) = true := by decide

/-! ### Decode: every row of the opcode map, its word written out bit by bit (30_encoding R93) -/

theorem test_decode_nop : decode 0b00000000000000000000000000000000 = .ok .nop := by decide
theorem test_decode_colorFwd : decode 0b00000000000000000000000000000001 = .ok .colorFwd := by decide
theorem test_decode_subsample : decode 0b00000000000000000000000000000010 = .ok .subsample := by decide
theorem test_decode_tile : decode 0b00000000000000000000000000000011 = .ok .tile := by decide
theorem test_decode_fdct : decode 0b00000000000000000000000000000100 = .ok .fdct := by decide
theorem test_decode_quant : decode 0b00000000000000000000000000000101 = .ok .quant := by decide
theorem test_decode_huffEnc : decode 0b00000000000000000000000000000110 = .ok .huffEnc := by decide
theorem test_decode_compress : decode 0b00000000000000000000000000000111 = .ok .compress := by decide
theorem test_decode_colorInv : decode 0b00000000000000000000000000010001 = .ok .colorInv := by decide
theorem test_decode_upsample : decode 0b00000000000000000000000000010010 = .ok .upsample := by decide
theorem test_decode_untile : decode 0b00000000000000000000000000010011 = .ok .untile := by decide
theorem test_decode_idct : decode 0b00000000000000000000000000010100 = .ok .idct := by decide
theorem test_decode_dequant : decode 0b00000000000000000000000000010101 = .ok .dequant := by decide
theorem test_decode_huffDec : decode 0b00000000000000000000000000010110 = .ok .huffDec := by decide
theorem test_decode_decompress : decode 0b00000000000000000000000000010111 = .ok .decompress := by decide
theorem test_decode_unassigned : decode 0x00000010 = .error .opcodeUnassigned := by decide
theorem test_decode_reserved : decode 0x00000100 = .error .reservedNotZero := by decide

/-- Every row of the table runs as the first command after reset. -/
theorem test_first_word_runs : ∀ i ∈ Instr.all, isNext (step (State.reset.withFetchWord 32 (encode i).toNat)) = true := by
  decide

/-! ### One command each (95_test_vectors, sections 2 to 9) -/

/-- V-ERR-1, R140. -/
theorem test_nop : ran .nop Operands.reset [] 0 = some (0x00000002, 0, []) := by decide

/-- V-COL-8. -/
theorem test_colorFwd : ran .colorFwd (dims 2 1) (memAt 0 [0xFF, 0x00, 0x00, 0x00, 0x00, 0xFF]) 6 =
    some (0x00000002, 6, [0x4C, 0x1D, 0x55, 0xFF, 0xFF, 0x6B].map some) := by decide +kernel
/-- V-COL-10. -/
theorem test_colorFwd_capacity : statusOf .colorFwd (dims 2048 2049) [] = some 0x00000606 := by decide

/-- V-COL-8. -/
theorem test_colorInv : ran .colorInv (dims 2 1) (memAt 0 [0x4C, 0x1D, 0x55, 0xFF, 0xFF, 0x6B]) 6 =
    some (0x00000002, 6, [0xFE, 0x00, 0x00, 0x00, 0x00, 0xFE].map some) := by decide +kernel
/-- V-COL-7e: the clamp at both ends. -/
theorem test_colorInv_clamp : colorInvPx 128 0 255 = (255, 81, 0) := by decide +kernel

/-- V-SUB-2: the odd column and row are dropped. -/
theorem test_subsample : ran .subsample (dims 5 3) (memAt 0 ((List.range 15).map (BitVec.ofNat 8))) 2 =
    some (0x00000002, 2, [some 0x00, some 0x02]) := by decide +kernel
/-- V-SUB-3: an empty plane, from a source that nothing has written. -/
theorem test_subsample_empty : ran .subsample (dims 1 5) [] 1 = some (0x00000002, 0, [none]) := by decide

/-- V-SUB-5. -/
theorem test_upsample : ran .upsample (dims 5 3) (memAt 0 [1, 2]) 15 =
    some (0x00000002, 15, [1, 1, 2, 2, 2, 1, 1, 2, 2, 2, 1, 1, 2, 2, 2].map some) := by decide +kernel
/-- V-SUB-6. -/
theorem test_upsample_empty : ran .upsample (dims 1 4) [] 4 = some (0x00000002, 4, [128, 128, 128, 128].map some) := by
  decide

/-- V-TILE-1: the first two elements. -/
theorem test_tile : ran .tile (dims 1 1) (memAt 0 [0xC8]) 8 =
    some (0x00000002, 256, [0, 0, 0, 0xC8, 0, 0, 0, 0].map some) := by decide +kernel
/-- V-ERR-7. -/
theorem test_tile_range : statusOf .tile { dims 2 2 with srcAddr := 0xFFFFFF } [] = some 0x00000406 := by decide

/-- V-TILE-3, the elements outside the plane unwritten. -/
theorem test_untile : ran .untile (dims 2 2)
    (storeBytes (memAt 0 (wordsToBytes ([-5, 300].map twos32))) 32 (wordsToBytes ([17, 128].map twos32))) 4 =
    some (0x00000002, 4, [0x00, 0xFF, 0x11, 0x80].map some) := by decide +kernel
/-- V-ERR-8, for UNTILE. -/
theorem test_untile_overlap : statusOf .untile { dims 2 2 with dstAddr := 0 } [] = some 0x00000506 := by decide

/-- V-DCT-2: elements 0, 1 and 8 of the transform of the ramp. -/
theorem test_fdct : (fdctAt ((List.range 64).map fun i => (i : Int)) 0 0, fdctAt ((List.range 64).map fun i => (i : Int)) 0 1,
    fdctAt ((List.range 64).map fun i => (i : Int)) 1 0) = (252, -18, -146) := by decide +kernel
/-- V-DCT-14. -/
theorem test_fdct_range : statusOf .fdct { counted 65536 0 with srcAddr := 1, dstAddr := 1 } [] = some 0x00000406 := by
  decide

/-- V-DCT-8a and V-DCT-8b, one element of each: 0.5 rounds away from zero. -/
theorem test_idct : (idctAt (4 :: List.replicate 63 0) 7 7, idctAt (-4 :: List.replicate 63 0) 0 3) = (1, -1) := by
  decide +kernel
/-- V-DCT-13, for IDCT. -/
theorem test_idct_empty : ran .idct (counted 0 0) [] 1 = some (0x00000002, 0, [none]) := by decide

/-- V-Q-1b, V-Q-2d and V-Q-2f through a table of 2 and 10s: ties away from zero. -/
theorem test_quant : ran .quant { counted 1 0 with qtable := ((tableWith 0 2).set 1 10).set 2 10 }
    (memAt 0 (blockBytes [-5, -145, -155])) 12 =
    some (0x00000002, 256, (wordsToBytes ([-3, -15, -16].map twos32)).map some) := by decide +kernel
/-- V-Q-10: QTABLE_ZERO comes before ADDRESS_RANGE. -/
theorem test_quant_zero : statusOf .quant { counted 0x40000000 0 with qtable := tableWith 5 0 } [] = some 0x00000306 := by
  decide

/-- V-Q-5b, V-Q-6a and V-Q-6d: products, saturated at both ends. -/
theorem test_dequant : ran .dequant { counted 1 0 with qtable := ((tableWith 0 10).set 1 2).set 2 65535 }
    (memAt 0 (blockBytes [-15, 2147483647, -40000])) 12 =
    some (0x00000002, 256, (wordsToBytes ([-150, 2147483647, -2147483648].map twos32)).map some) := by decide +kernel
/-- V-DCT-12, for DEQUANT: four bytes off is no in-place run. -/
theorem test_dequant_overlap : statusOf .dequant { counted 1 0 with dstAddr := 4 } [] = some 0x00000506 := by decide

/-- The 24 bytes of V-HUF-1. -/
def huf1 : List Byte :=
  [0x40, 0x00, 0x00, 0x01, 0x5F, 0xFF, 0xFF, 0xFF, 0xF8, 0x00, 0x00, 0x00, 0x38, 0x00, 0x00, 0x00,
   0x1F, 0x00, 0x00, 0x00, 0x00, 0x00, 0x00, 0x00]

/-- The 24 bytes of the values of V-HUF-1. -/
def huf1Values : List Byte := wordsToBytes ([5, 5, 5, 7, 7, -1].map twos32)

/-- V-HUF-1. -/
theorem test_huffEnc : ran .huffEnc (counted 6 0) (memAt 0 huf1Values) 25 =
    some (0x00000002, 24, huf1.map some ++ [none]) := by decide +kernel
/-- V-HUF-1 with a destination one byte too small (46_entropy R246): nothing is written. -/
theorem test_huffEnc_capacity : ran .huffEnc { counted 6 0 with dstLimit := 23 } (memAt 0 huf1Values) 1 =
    some (0x00000606, 0, [none]) := by decide +kernel

/-- V-HUF-1, decoded. -/
theorem test_huffDec : ran .huffDec (counted 6 24) (memAt 0 huf1) 24 = some (0x00000002, 24, huf1Values.map some) := by
  decide +kernel
/-- COUNT ≥ 1 with SRCLEN = 0 (46_entropy R260). -/
theorem test_huffDec_truncated : statusOf .huffDec (counted 1 0) [] = some 0x00000706 := by decide

/-- The container of the 1 by 1 black Image under the all-1 table, by hand: the chroma planes are empty, the one block is
0, so the tree is the leaf 0 (tag 1, 32 zero bits) and the stream is 64 zero bits (47_pipeline R271). -/
def blackContainer : List Byte :=
  [0, 0, 0, 1, 0, 0, 0, 1, 1, 0] ++ (List.replicate 64 [0, 1]).flatten ++ [0x80, 0, 0, 0, 0, 0, 0, 0, 0, 0, 0, 0, 0, 0, 0, 0]

theorem test_compress : ran .compress (dims 1 1) (memAt 0 [0, 0, 0]) 155 =
    some (0x00000002, 154, blackContainer.map some ++ [none]) := by decide +kernel
/-- The check order of 60_exceptions R293: dimensions before the table. -/
theorem test_compress_order : statusOf .compress { dims 0 1 with qtable := tableWith 5 0 } [] = some 0x00000206 := by
  decide

theorem test_decompress : ran .decompress (counted 0 154) (memAt 0 blackContainer) 4 =
    some (0x00000002, 3, [some 0, some 0, some 0, none]) := by decide +kernel
/-- V-P-11, on the container above: SS = 2. -/
theorem test_decompress_header : statusOf .decompress (counted 0 154) (storeBytes (memAt 0 blackContainer) 8 [2]) =
    some 0x00000806 := by decide +kernel

/-! ### Lifecycle and host (95_test_vectors, section 9; 20_memory R63) -/

/-- V-ERR-3: ILLEGAL_CMD, not a NOP. -/
theorem test_illegal_word : (match step { accept 0x00000100 State.reset with inputs := [] } with
    | .next t => (readReg t .status, readReg t .cmd)
    | .fault _ => (0, 0)
    | .refused _ => (0, 0)) = (0x00000106, 0x00000100) := by decide
/-- V-ERR-10: the dropped write sets OVERRUN, and CMD keeps the accepted word. -/
theorem test_overrun : (match step { busyWith .tile Operands.reset [] with inputs := [.regWrite 0x004 4 7] } with
    | .next t => (readReg t .status, readReg t .cmd)
    | .fault _ => (0, 0)
    | .refused _ => (0, 0)) = (0x00000009, 3) := by decide
/-- V-ERR-11. -/
theorem test_overrun_clear : readReg (writeReg .status 8 (dropCommand (busyWith .tile Operands.reset []))) .status = 1 := by
  decide
/-- 20_memory R63: after HostWrite(a, 4, 0x11223344), HostRead(a+2, 2) = 0x3344. -/
theorem test_byte_order :
    (hostMemRead 2 2 { State.reset with mem := storeBytes [] 0 (beBytes 4 0x11223344) }).response.data = 0x3344 := by
  decide
/-- 70_reset R326, step 2: the boot sequence loads the table it is given. -/
theorem test_boot_loads_table : (boot true (tableWith 63 0xFFFF))[67]? = some (.regWrite 0x1FC 4 0x0000FFFF) ∧
    (boot true (tableWith 63 0xFFFF)).length = 71 := by decide
/-- 10_state R36: bits [31:16] of a table entry are reserved. -/
theorem test_table_entry : readReg (writeReg (.qtable 63) 0xABCD1234 State.reset) (.qtable 63) = 0x1234 := by decide

/-! ### Witnesses: states and operands that meet the hypotheses of each statement -/

theorem pass_of {p : Params} {i : Instr} {l : Latch} (h : startChecks p i l = none) : StartChecksPass p i l :=
  startChecks_eq_none.mp h

/-- Every clause at the ends of its range of opcodes, and with a single reserved bit at either end. -/
theorem witness_OtherWordsAreRejectedByName :
    (∀ w ∈ [(0x00000100 : Word), 0x80000000, 0x00000117], w.extractLsb' 8 24 ≠ 0) ∧
    (∀ w ∈ [(0x08 : Word), 0x10, 0x18, 0xFF], w.extractLsb' 8 24 = 0 ∧
      ((0x08 ≤ (w.extractLsb' 0 8).toNat ∧ (w.extractLsb' 0 8).toNat ≤ 0x10) ∨ 0x18 ≤ (w.extractLsb' 0 8).toNat)) := by
  constructor <;> intro w hw <;> simp only [List.mem_cons, List.not_mem_nil, or_false] at hw
  · rcases hw with rfl | rfl | rfl <;> decide
  · rcases hw with rfl | rfl | rfl | rfl <;> decide

theorem witness_DecodeEncodeAgree : Instr.decompress.wellFormed = true ∧ decode 0x00000017 = .ok .decompress := by decide

theorem witness_StepRunsTheLatchedCommand : ∀ i ∈ Instr.all, ∃ s : State, s.status.busy = true ∧
    decode s.latch.word.toWord = .ok i ∧ s.inputs = [] ∧
    ∃ s' : State, s'.status.busy = true ∧ decode s'.latch.word.toWord = .ok i ∧ s'.inputs = [.complete, .powerOn] :=
  fun i hi => ⟨busyWith i Operands.reset [], rfl, by revert i; decide, rfl,
    { busyWith i Operands.reset [] with inputs := [.complete, .powerOn] }, rfl, by revert i; decide, rfl⟩

theorem witness_CmdWriteWhileIdleIsAccepted : ∃ s : State, s.inputs = [.regWrite 0x004 4 0x00000100, .complete] ∧
    s.status.busy = false :=
  ⟨{ State.reset with inputs := [.regWrite 0x004 4 0x00000100, .complete] }, rfl, rfl⟩

theorem witness_CmdWriteWhileBusyIsDropped : ∃ s : State, s.inputs = [.regWrite 0x004 4 0x00000007] ∧
    s.status.busy = true :=
  ⟨{ busyWith .tile Operands.reset [] with inputs := [.regWrite 0x004 4 0x00000007] }, rfl, rfl⟩

/-- Each alternative at the ends of its range. -/
theorem witness_IllegalWordCompletesWithIllegalCmd :
    ∀ v ∈ [(0x00000100 : Word), 0x80000017, 0x08, 0x10, 0x18, 0xFF],
      (accept v State.reset).status.busy = true ∧ (accept v State.reset).inputs = [] ∧
      ((accept v State.reset).latch.word.rsvd ≠ 0 ∨
       (0x08 ≤ (accept v State.reset).latch.word.opcode.toNat ∧ (accept v State.reset).latch.word.opcode.toNat ≤ 0x10) ∨
       0x18 ≤ (accept v State.reset).latch.word.opcode.toNat) := by
  intro v hv
  simp only [List.mem_cons, List.not_mem_nil, or_false] at hv
  rcases hv with rfl | rfl | rfl | rfl | rfl | rfl <;> exact ⟨rfl, rfl, by decide⟩

/-- A success and a failure. -/
theorem witness_EveryCommandWritesCompletionFields :
    (∃ t, exec .subsample (busyWith .subsample (dims 2 2) (memAt 0 [9])) = .next t) ∧
    (∃ t, exec .tile (busyWith .tile (dims 0 1) []) = .next t) :=
  ⟨exists_next (by decide), exists_next (by decide)⟩

/-- A command that may change no operand register, a successful DECOMPRESS left out, and a failed DECOMPRESS. -/
theorem witness_CommandsLeaveOtherRegistersUnchanged :
    (∃ t, exec .subsample (busyWith .subsample (dims 2 2) (memAt 0 [9])) = .next t ∧
      (Instr.subsample ≠ .decompress ∨ t.status.error = true)) ∧
    (∃ t, exec .decompress (busyWith .decompress (counted 0 137) []) = .next t ∧
      (Instr.decompress ≠ .decompress ∨ t.status.error = true)) :=
  ⟨⟨_, rfl, .inl (by decide)⟩, ⟨_, rfl, .inr rfl⟩⟩

/-- The addresses just below and just past the one-byte destination window. -/
theorem witness_EngineWritesOnlyTheDestinationWindow :
    let s := busyWith .subsample (dims 2 2) (memAt 0 [9])
    (∃ t, exec .subsample s = .next t) ∧ s.latch.dst = 0x1000 ∧ dstLen .subsample s.latch = 1 ∧ 0x0FFF < s.latch.dst ∧
      s.latch.dst + dstLen .subsample s.latch ≤ 0x1001 :=
  ⟨exists_next (by decide +kernel), by decide +kernel⟩

/-- One failure for each clause: an illegal word, a start check, an encoder's CAPACITY, a decoder's FORMAT_TRUNCATED. -/
theorem witness_DestinationAfterFailure :
    (∃ t, (accept 0x00000100 State.reset).status.busy = true ∧ (accept 0x00000100 State.reset).inputs = [] ∧
      (∀ i, decode (accept 0x00000100 State.reset).latch.word.toWord ≠ .ok i) ∧
      step (accept 0x00000100 State.reset) = .next t) ∧
    (∃ t, exec .tile (busyWith .tile (dims 0 1) []) = .next t ∧ t.status.error = true ∧
      ¬ StartChecksPass Config.defaultParams .tile (busyWith .tile (dims 0 1) []).latch) ∧
    (∃ t, exec .huffEnc (busyWith .huffEnc { counted 6 0 with dstLimit := 23 } (memAt 0 huf1Values)) = .next t ∧
      t.status.error = true) ∧
    (let s := busyWith .huffDec (counted 1 0) []
     (∃ t, exec .huffDec s = .next t ∧ t.status.error = true) ∧ StartChecksPass s.params .huffDec s.latch ∧
      dstLen .huffDec s.latch = 4) := by
  refine ⟨⟨_, rfl, rfl, fun i => by cases i <;> decide, rfl⟩,
    ⟨_, rfl, rfl, fun h => absurd (startChecks_eq_none.mpr h) (by decide)⟩, ?_, ?_⟩
  · have hb : bodyOf .huffEnc Config.defaultParams (busyWith .huffEnc { counted 6 0 with dstLimit := 23 } []).latch
        (memAt 0 huf1Values) = .error (.raise .capacity) := by decide +kernel
    exact ⟨_, exec_of_raise (s := busyWith .huffEnc { counted 6 0 with dstLimit := 23 } (memAt 0 huf1Values))
      (pass_of (by decide)) hb, rfl⟩
  · exact ⟨⟨_, exec_of_raise (e := .formatTruncated) (pass_of (by decide)) (by decide), rfl⟩, pass_of (by decide),
      by decide⟩

/-- One latch for each clause, each failing that check and none before it; the range and the overlap are missed by one
byte. -/
theorem witness_FirstFailingStartCheckIsReported :
    (isDimensioned .tile = true ∧ (busyWith .tile (dims 0 1) []).latch.w = 0) ∧
    (let l := (busyWith .tile (dims 2048 2049) []).latch
     ¬ (l.w = 0 ∨ l.h = 0) ∧ Config.defaultParams.maxPixels < l.w * l.h) ∧
    (let l := (busyWith .quant { counted 1 0 with qtable := tableWith 63 0 } []).latch
     isDimensioned .quant = false ∧ usesTable .quant = true ∧ (0 : Nat) ∈ l.qt) ∧
    (let l := (busyWith .fdct { counted 1 0 with dstAddr := 0xFFFF01 } []).latch
     isDimensioned .fdct = false ∧ usesTable .fdct = false ∧ 0 < dstLen .fdct l ∧
      l.dst + dstLen .fdct l = Config.defaultParams.memSize + 1) ∧
    (let l := (busyWith .fdct { counted 1 0 with dstAddr := 255 } []).latch
     l.src + srcLen .fdct l ≤ Config.defaultParams.memSize ∧ l.dst + dstLen .fdct l ≤ Config.defaultParams.memSize ∧
      0 < srcLen .fdct l ∧ 0 < dstLen .fdct l ∧ l.src < l.dst + dstLen .fdct l ∧
      l.dst + 1 = l.src + srcLen .fdct l ∧ ¬ (mayRunInPlace .fdct = true ∧ l.src = l.dst)) := by
  decide +kernel

theorem witness_ColorFwdWritesPlanarTriple : ∃ (s : State) (img : Nat → Byte),
    StartChecksPass s.params .colorFwd s.latch ∧ 0 < s.latch.w * s.latch.h ∧
    (∀ j, j < 3 * (s.latch.w * s.latch.h) → byteAt s.mem (s.latch.src + j) = some (img j)) :=
  ⟨busyWith .colorFwd (dims 2 1) (memAt 0 [255, 0, 0, 0, 0, 255]), fun j => [255, 0, 0, 0, 0, 255].getD j 0,
    pass_of (by decide), by decide, by decide⟩

theorem witness_ColorInvWritesImage : ∃ (s : State) (y cb cr : Nat → Byte),
    StartChecksPass s.params .colorInv s.latch ∧ 0 < s.latch.w * s.latch.h ∧
    (∀ p, p < s.latch.w * s.latch.h →
      byteAt s.mem (s.latch.src + p) = some (y p) ∧
      byteAt s.mem (s.latch.src + (s.latch.w * s.latch.h + p)) = some (cb p) ∧
      byteAt s.mem (s.latch.src + (2 * (s.latch.w * s.latch.h) + p)) = some (cr p)) :=
  ⟨busyWith .colorInv (dims 2 1) (memAt 0 [1, 2, 3, 4, 5, 6]), fun j => [1, 2].getD j 0, fun j => [3, 4].getD j 0,
    fun j => [5, 6].getD j 0, pass_of (by decide), by decide, by decide⟩

/-- An odd plane whose other samples are unwritten. -/
theorem witness_SubsampleCopiesEvenSamples : ∃ (s : State) (smp : Nat → Nat → Byte),
    StartChecksPass s.params .subsample s.latch ∧ 0 < (s.latch.w / 2) * (s.latch.h / 2) ∧
    (∀ i, i < s.latch.w / 2 → ∀ j, j < s.latch.h / 2 →
      byteAt s.mem (s.latch.src + (2 * j * s.latch.w + 2 * i)) = some (smp i j)) :=
  ⟨busyWith .subsample (dims 3 3) (memAt 0 [7]), fun _ _ => 7, pass_of (by decide), by decide, by decide⟩

/-- A plane with samples and one without. -/
theorem witness_UpsampleReplicatesNearestSample :
    (∃ (s : State) (smp : Nat → Nat → Byte), StartChecksPass s.params .upsample s.latch ∧
      ¬ (s.latch.w / 2 = 0 ∨ s.latch.h / 2 = 0) ∧
      (∀ i, i < s.latch.w / 2 → ∀ j, j < s.latch.h / 2 →
        byteAt s.mem (s.latch.src + (j * (s.latch.w / 2) + i)) = some (smp i j))) ∧
    (∃ (s : State) (smp : Nat → Nat → Byte), StartChecksPass s.params .upsample s.latch ∧
      (s.latch.w / 2 = 0 ∨ s.latch.h / 2 = 0) ∧
      (∀ i, i < s.latch.w / 2 → ∀ j, j < s.latch.h / 2 →
        byteAt s.mem (s.latch.src + (j * (s.latch.w / 2) + i)) = some (smp i j))) :=
  ⟨⟨busyWith .upsample (dims 3 3) (memAt 0 [7]), fun _ _ => 7, pass_of (by decide), by decide, by decide⟩,
   ⟨busyWith .upsample (dims 1 4) [], fun _ _ => 0, pass_of (by decide), by decide, by decide⟩⟩

theorem witness_TileWritesZeroPaddedBlocks : ∃ (s : State) (smp : Nat → Nat → Byte),
    StartChecksPass s.params .tile s.latch ∧ 0 < s.latch.w * s.latch.h ∧
    (∀ x, x < s.latch.w → ∀ y, y < s.latch.h → byteAt s.mem (s.latch.src + (y * s.latch.w + x)) = some (smp x y)) :=
  ⟨busyWith .tile (dims 2 1) (memAt 0 [7, 8]), fun x _ => [7, 8].getD x 0, pass_of (by decide), by decide, by decide⟩

theorem witness_UntileClampsElements : ∃ (s : State) (el : Nat → Nat → Word),
    StartChecksPass s.params .untile s.latch ∧ 0 < s.latch.w * s.latch.h ∧
    (∀ x, x < s.latch.w → ∀ y, y < s.latch.h →
      wordAt s.mem (s.latch.src + (256 * (y / 8 * ceil8 s.latch.w + x / 8) + 4 * (8 * (y % 8) + x % 8))) =
        some (el x y)) :=
  ⟨busyWith .untile (dims 2 1) (memAt 0 (wordsToBytes ([-5, 300].map twos32))), fun x _ => [-5, 300].getD x 0,
    pass_of (by decide), by decide, by decide +kernel⟩

/-- One block of zeros, in place and not. -/
theorem zero_block (a : Nat) : ∀ k, k < 1 → ∀ e, e < 64 →
    wordAt (memAt a (wordsToBytes (List.replicate 64 0))) (a + (256 * k + 4 * e)) = some 0 := by
  intro k hk e he
  have h := wordAt_storeBytes_of_getElem? (m := []) (a := a) (ws := List.replicate 64 (0 : Word)) (i := e) (w := 0)
    (by rw [List.getElem?_replicate, if_pos he])
  rw [show 256 * k + 4 * e = 4 * e by omega]
  exact h

theorem witness_TransformsActBlockByBlock : ∀ i ∈ [Instr.fdct, .idct], ∀ d ∈ [(0x0000 : Word), 0x1000],
    ∃ (s : State) (el : Nat → Nat → Word), StartChecksPass s.params i s.latch ∧ s.latch.count = 1 ∧
      (∀ k, k < s.latch.count → ∀ e, e < 64 → wordAt s.mem (s.latch.src + (256 * k + 4 * e)) = some (el k e)) := by
  intro i hi d hd
  have hp : startChecks Config.defaultParams i (busyWith i { counted 1 0 with dstAddr := d } []).latch = none := by
    simp only [List.mem_cons, List.not_mem_nil, or_false] at hi hd
    rcases hi with rfl | rfl <;> rcases hd with rfl | rfl <;> decide
  refine ⟨busyWith i { counted 1 0 with dstAddr := d } (memAt 0 (wordsToBytes (List.replicate 64 0))), fun _ _ => 0,
    pass_of hp, rfl, zero_block 0⟩

theorem witness_QuantizersUseLatchedTable : ∀ i ∈ [Instr.quant, .dequant], ∀ d ∈ [(0x0000 : Word), 0x1000],
    ∃ (s : State) (el : Nat → Nat → Word), StartChecksPass s.params i s.latch ∧ s.latch.count = 1 ∧
      (∀ k, k < s.latch.count → ∀ e, e < 64 → wordAt s.mem (s.latch.src + (256 * k + 4 * e)) = some (el k e)) := by
  intro i hi d hd
  have hp : startChecks Config.defaultParams i (busyWith i { counted 1 0 with dstAddr := d } []).latch = none := by
    simp only [List.mem_cons, List.not_mem_nil, or_false] at hi hd
    rcases hi with rfl | rfl <;> rcases hd with rfl | rfl <;> decide
  refine ⟨busyWith i { counted 1 0 with dstAddr := d } (memAt 0 (wordsToBytes (List.replicate 64 0))), fun _ _ => 0,
    pass_of hp, rfl, zero_block 0⟩

/-- The values of V-HUF-1: a destination of exactly the output's 24 bytes, one of 23, and a block for one symbol less. -/
theorem witness_HuffEncWritesEncodingOrReportsCapacity :
    (∀ n ∈ [(24 : Word), 23], StartChecksPass Config.defaultParams .huffEnc
      (busyWith .huffEnc { counted 6 0 with dstLimit := n } []).latch) ∧
    (∀ j, j < 6 → wordAt (memAt 0 huf1Values) (0 + 4 * j) = some (([5, 5, 5, 7, 7, -1].map twos32).getD j 0)) ∧
    huffEnc ((List.range 6).map fun j => ([5, 5, 5, 7, 7, -1].map twos32).getD j 0) = some huf1 ∧
    ((List.range 6).map fun j => ([5, 5, 5, 7, 7, -1].map twos32).getD j 0).dedup.length = 3 ∧
    24 = huf1.length ∧ 23 < huf1.length ∧ ({ Config.defaultParams with maxSymbols := 2 } : Params).maxSymbols < 3 := by
  refine ⟨fun n hn => pass_of ?_, ?_, ?_, ?_, ?_, ?_, ?_⟩
  · simp only [List.mem_cons, List.not_mem_nil, or_false] at hn
    rcases hn with rfl | rfl <;> decide
  all_goals decide +kernel

theorem witness_HuffDecInvertsHuffEnc : ∃ (s : State) (vals : List Word) (out : List Byte),
    StartChecksPass s.params .huffDec s.latch ∧ vals.length = s.latch.count ∧
    vals.dedup.length ≤ s.params.maxSymbols ∧ huffEnc vals = some out ∧ out.length ≤ s.latch.srclen ∧
    BytesAt s.mem s.latch.src out :=
  ⟨busyWith .huffDec (counted 6 24) (memAt 0 huf1), [5, 5, 5, 7, 7, -1].map twos32, huf1, pass_of (by decide),
    by decide, by decide +kernel, by decide +kernel, by decide, bytesAt_storeBytes [] 0 huf1⟩

/-- The 1 by 1 Image (200, 100, 50): its 64 coefficients in a destination of 4096 bytes, and in one of 137, which has no
room for the header. -/
theorem witness_CompressWritesContainer : ∀ lim ∈ [(0x1000 : Word), 137],
    ∃ (s : State) (img : Nat → Byte) (body : List Byte),
      StartChecksPass s.params .compress s.latch ∧ s.latch.dstlim = lim.toNat ∧ 0 < s.latch.w * s.latch.h ∧
      (∀ j, j < 3 * (s.latch.w * s.latch.h) → byteAt s.mem (s.latch.src + j) = some (img j)) ∧
      let seq := compressSequence img s.latch.w s.latch.h s.latch.qt
      huffEnc seq = some body ∧ seq.dedup.length ≤ s.params.maxSymbols ∧
      (lim = 0x1000 → 138 + body.length ≤ s.latch.dstlim) ∧ (lim = 137 → s.latch.dstlim < 138 + body.length) := by
  intro lim hlim
  let s := busyWith .compress { dims 1 1 with dstLimit := lim } (memAt 0 [200, 100, 50])
  let img : Nat → Byte := fun j => [200, 100, 50].getD j 0
  let seq := compressSequence img s.latch.w s.latch.h s.latch.qt
  have hl : seq.length = 64 := by
    rw [show seq = _ from (coefficients_eq_compressSequence img _ _ (latch_qt_length s.latch)).symm]
    exact (coefficients_length _ 1 1 (latch_qt_length s.latch)).trans (by decide)
  have hs : seq ≠ [] := by intro h; rw [h] at hl; cases hl
  obtain ⟨_, _, _, _, _, he⟩ := huffEnc_cons hs
  have hb := huffEnc_length_le he
  have hd : seq.dedup.length ≤ 64 := by rw [← hl]; exact seq.dedup_sublist.length_le
  rw [hl] at hb
  have hp : startChecks Config.defaultParams .compress s.latch = none := by
    simp only [List.mem_cons, List.not_mem_nil, or_false] at hlim
    rcases hlim with rfl | rfl <;> decide
  have hd' : s.latch.dstlim = lim.toNat := rfl
  have hm : s.params.maxSymbols = 65536 := rfl
  refine ⟨s, img, _, pass_of hp, hd', (by decide : 0 < 1 * 1),
    (by decide : ∀ j, j < 3 * (1 * 1) → byteAt (memAt 0 [200, 100, 50]) (0 + j) = some (img j)), he,
    by rw [hm]; exact hd.trans (by decide), fun h => ?_, fun h => ?_⟩
  · rw [hd', h, show (0x1000 : Word).toNat = 4096 from rfl]; omega
  · rw [hd', h, show (137 : Word).toNat = 137 from rfl]; omega

/-- A container of the 2 by 2 Image whose 192 coefficients are all 0: one block of each plane. -/
theorem witness_DecompressWritesImageAndDimensions :
    ∃ (s : State) (w h : Nat) (qt : List Nat) (seq : List Word) (body : List Byte),
      StartChecksPass s.params .decompress s.latch ∧ 1 ≤ w ∧ w < 2 ^ 32 ∧ 1 ≤ h ∧ h < 2 ^ 32 ∧
      w * h ≤ s.params.maxPixels ∧ 3 * (w * h) ≤ s.latch.dstlim ∧ qt.length = 64 ∧ (∀ q ∈ qt, 1 ≤ q ∧ q ≤ 65535) ∧
      seq.length = 64 * (tiles w h + 2 * tiles (w / 2) (h / 2)) ∧ tiles (w / 2) (h / 2) = 1 ∧
      seq.dedup.length ≤ s.params.maxSymbols ∧ huffEnc seq = some body ∧ 138 + body.length ≤ s.latch.srclen ∧
      BytesAt s.mem s.latch.src
        ((beBytes 4 w ++ (beBytes 4 h ++ ([1, 0] ++ qt.flatMap (beBytes 2)))) ++ body) :=
  ⟨busyWith .decompress (counted 0 170) (memAt 0
      ((beBytes 4 2 ++ (beBytes 4 2 ++ ([1, 0] ++ (List.replicate 64 1).flatMap (beBytes 2)))) ++
        (section64 (true :: bits32 0) ++ section64 (List.replicate 192 false)))),
    2, 2, List.replicate 64 1, List.replicate 192 0, section64 (true :: bits32 0) ++ section64 (List.replicate 192 false),
    pass_of (by decide), by decide, by decide, by decide, by decide, by decide, by decide, by decide, by decide,
    by decide +kernel, by decide, by decide +kernel, by decide +kernel, by decide +kernel, bytesAt_storeBytes [] 0 _⟩

/-- SRC_LEN one byte short of a header; a header with SS = 2; a legal header one pixel too large for the block. -/
theorem witness_HeaderChecksInOrder :
    (StartChecksPass Config.defaultParams .decompress (busyWith .decompress (counted 0 137) []).latch ∧
      (busyWith .decompress (counted 0 137) []).latch.srclen < 138) ∧
    (∃ (s : State) (hdr : List Byte), StartChecksPass s.params .decompress s.latch ∧ 138 ≤ s.latch.srclen ∧
      hdr.length = 138 ∧ BytesAt s.mem s.latch.src hdr ∧ hdr.getD 8 0 ≠ 1) ∧
    (∃ (s : State) (hdr : List Byte), StartChecksPass s.params .decompress s.latch ∧ 138 ≤ s.latch.srclen ∧
      hdr.length = 138 ∧ BytesAt s.mem s.latch.src hdr ∧
      ¬ (hdr.getD 8 0 ≠ 1 ∨ hdr.getD 9 0 ≠ 0 ∨ (∃ i, i < 64 ∧ beValue ((hdr.drop (10 + 2 * i)).take 2) = 0) ∨
          beValue (hdr.take 4) = 0 ∨ beValue ((hdr.drop 4).take 4) = 0) ∧
      s.params.maxPixels + 1 = beValue (hdr.take 4) * beValue ((hdr.drop 4).take 4)) :=
  ⟨⟨pass_of (by decide), by decide⟩,
   ⟨busyWith .decompress (counted 0 138) (memAt 0 (beBytes 4 1 ++ beBytes 4 1 ++ [2, 0] ++ List.replicate 128 1)),
    beBytes 4 1 ++ beBytes 4 1 ++ [2, 0] ++ List.replicate 128 1, pass_of (by decide), by decide, by decide +kernel,
    bytesAt_storeBytes [] 0 _, by decide +kernel⟩,
   ⟨busyWith .decompress (counted 0 138) (memAt 0 (beBytes 4 4194305 ++ beBytes 4 1 ++ [1, 0] ++ List.replicate 128 1)),
    beBytes 4 4194305 ++ beBytes 4 1 ++ [1, 0] ++ List.replicate 128 1, pass_of (by decide), by decide,
    by decide +kernel, bytesAt_storeBytes [] 0 _, by decide +kernel, by decide +kernel⟩⟩

/-- A block of 2 symbols: 3 tag bits 0, and a bit 1 after them in the same byte. -/
theorem witness_ZeroTagStreamHitsNodeLimit : ∃ s : State, StartChecksPass s.params .huffDec s.latch ∧
    1 ≤ s.params.maxSymbols ∧ s.latch.count ≠ 0 ∧ 2 * s.params.maxSymbols - 1 ≤ 8 * s.latch.srclen ∧
    (∀ k, k < 2 * s.params.maxSymbols - 1 → BitAt s.mem s.latch.src k false) ∧
    BitAt s.mem s.latch.src (2 * s.params.maxSymbols - 1) true := by
  refine ⟨{ busyWith .huffDec (counted 1 1) (memAt 0 [0x10]) with
    params := { Config.defaultParams with maxSymbols := 2 } }, pass_of (by decide), by decide, by decide, by decide, ?_,
    ⟨0x10, rfl, rfl⟩⟩
  intro k hk
  have hk : k < 3 := hk
  interval_cases k <;> exact ⟨0x10, rfl, rfl⟩

/-- The stream of a single leaf 42 whose code bit 1 comes first, and the one of V-HUF-30, where it follows one code 0. -/
theorem witness_OneBitUnderSingleLeafIsFormatCode : ∀ p ∈ [(0, (0x80 : Byte)), (1, 0x40)], ∃ s : State,
    StartChecksPass s.params .huffDec s.latch ∧ 1 ≤ s.params.maxSymbols ∧ p.1 < s.latch.count ∧
    64 + p.1 < 8 * s.latch.srclen ∧
    (∀ k, k < 33 → BitAt s.mem s.latch.src k ((true :: bits32 42).getD k false)) ∧
    (∀ k, k < p.1 → BitAt s.mem s.latch.src (64 + k) false) ∧ BitAt s.mem s.latch.src (64 + p.1) true := by
  intro p hp
  have tree : ∀ b : Byte, ∀ k, k < 33 →
      BitAt (memAt 0 [0x80, 0, 0, 0x15, 0, 0, 0, 0, b]) 0 k ((true :: bits32 42).getD k false) := by
    intro b k hk
    refine ⟨[0x80, 0, 0, 0x15, 0].getD (k / 8) 0, ?_, ?_⟩
    · have h8 : k / 8 < 5 := by omega
      interval_cases k / 8 <;> rfl
    · interval_cases k <;> rfl
  refine ⟨busyWith .huffDec (counted 3 9) (memAt 0 [0x80, 0, 0, 0x15, 0, 0, 0, 0, p.2]), pass_of rfl,
    (by decide : 1 ≤ Config.defaultParams.maxSymbols), ?_, ?_, tree p.2, ?_⟩ <;>
    simp only [List.mem_cons, List.not_mem_nil, or_false] at hp <;> rcases hp with rfl | rfl
  · decide
  · decide
  · decide
  · decide
  · exact ⟨fun k hk => absurd hk (Nat.not_lt_zero k), 0x80, rfl, rfl⟩
  · refine ⟨fun k hk => ?_, 0x40, rfl, rfl⟩
    rw [show k = 0 by omega]
    exact ⟨0x40, rfl, rfl⟩

theorem written_memAt (a : Nat) (bs : List Byte) : Written (memAt a bs) a bs.length := by
  intro j hj
  rw [memAt, byteAt_storeBytes_inside hj]
  rfl

/-- A written source, and a busy block with an illegal word, which names no command. -/
theorem witness_WrittenSourceAlwaysCompletes :
    (∃ s : State, s.status.busy = true ∧ s.inputs = [] ∧ 0 < srcLen .colorFwd s.latch ∧
      decode s.latch.word.toWord = .ok .colorFwd ∧ Written s.mem s.latch.src (srcLen .colorFwd s.latch)) ∧
    (∃ s : State, s.status.busy = true ∧ s.inputs = [] ∧
      ∀ i, decode s.latch.word.toWord = .ok i → Written s.mem s.latch.src (srcLen i s.latch)) :=
  ⟨⟨busyWith .colorFwd (dims 1 1) (memAt 0 [1, 2, 3]), rfl, rfl, by decide, by decide, written_memAt 0 [1, 2, 3]⟩,
   ⟨accept 0x00000100 State.reset, rfl, rfl, fun i h => absurd h (by cases i <;> decide)⟩⟩

theorem witness_UnwrittenSourceByteStops :
    ∀ i ∈ [Instr.colorFwd, .tile, .fdct, .quant, .huffEnc, .compress, .colorInv, .upsample, .idct, .dequant],
      ∃ s : State, StartChecksPass s.params i s.latch ∧ ¬ Written s.mem s.latch.src (srcLen i s.latch) := by
  intro i hi
  refine ⟨busyWith i { dims 2 2 with count := 1 } [], pass_of (by revert i; decide +kernel), fun h => ?_⟩
  have h0 : 0 < srcLen i (busyWith i { dims 2 2 with count := 1 } []).latch := by
    clear h; revert i; decide +kernel
  cases h 0 h0

/-- Two memories that agree on the source and differ elsewhere; the first statement's outcomes, a fault and a success. -/
theorem witness_ResultDependsOnLatchAndSourceAlone : ∃ s s' : State, s'.params = s.params ∧ s'.latch = s.latch ∧
    s.mem ≠ s'.mem ∧
    (∀ a, s.latch.src ≤ a → a < s.latch.src + srcLen .subsample s.latch → byteAt s'.mem a = byteAt s.mem a) ∧
    (∃ t, exec .subsample s = .next t ∧ t.status.error = false ∧ 0 < dstLen .subsample s.latch ∧ 0 < t.resultLen.toNat) ∧
    (exec .tile (busyWith .tile (dims 1 1) []) = .fault .uninitRead) :=
  ⟨busyWith .subsample (dims 2 2) (memAt 0 [9]), busyWith .subsample (dims 2 2) (storeBytes (memAt 0 [9]) 4 [1]), rfl, rfl, by decide, by
      intro a _ h2
      have h2 : a < 4 := h2
      interval_cases a <;> decide, ⟨_, rfl, rfl, by decide, by decide⟩, rfl⟩

theorem witness_OperandWritesDoNotAffectRunningCommand :
    (∃ t, exec .subsample (busyWith .subsample (dims 2 2) (memAt 0 [9])) = .next t ∧
      (Instr.subsample ≠ .decompress ∨ t.status.error = true)) ∧
    (∃ t, exec .decompress (busyWith .decompress (counted 0 137) []) = .next t ∧
      (Instr.decompress ≠ .decompress ∨ t.status.error = true)) ∧
    (∃ t, exec .decompress (busyWith .decompress (counted 0 154) (memAt 0 blackContainer)) = .next t ∧
      Instr.decompress = .decompress ∧ t.status.error = false) := by
  refine ⟨⟨_, rfl, .inl (by decide)⟩, ⟨_, rfl, .inr rfl⟩, ?_⟩
  have hr := test_decompress
  unfold ran at hr
  split at hr
  · next t ht =>
    refine ⟨t, ht, rfl, ?_⟩
    cases exec_next ht with
    | checkFailed e h => exact absurd h (by rw [show startChecks _ _ _ = none by decide]; simp)
    | succeeded r _ _ => rfl
    | bodyFailed e _ _ hx =>
      simp only [Option.some.injEq, Prod.mk.injEq] at hr
      rcases hx with rfl | rfl | rfl | rfl | rfl <;> exact absurd hr.1 (by decide)
  · cases hr
  · cases hr

theorem witness_IdleStepDoesNotReadLatch : ∃ (s : State) (l : Latch), s.status.busy = false ∧ l ≠ s.latch :=
  ⟨State.reset, { Latch.reset with word := { rsvd := 1, opcode := 0 } }, rfl, by decide⟩

/-- The boundary divisors and the largest element each leaves room for. -/
theorem witness_QuantizationErrorBounded :
    (∀ p ∈ [((-2147483646 : Int), 1), (2147483646, 1), (-2147418112, 65535), (2147418112, 65535)],
      -2147483648 ≤ p.1 ∧ p.1 ≤ 2147483647 ∧ 1 ≤ p.2 ∧ p.2 ≤ 65535 ∧ p.1.natAbs + p.2 ≤ 2147483647) ∧
    (∀ p ∈ [((2147483647 : Int), 1), (32768, 65535), (-32768, 65535)],
      1 ≤ p.2 ∧ p.2 ≤ 65535 ∧ (p.1 * (p.2 : Int)).natAbs ≤ 2147483647) ∧
    (∀ b ∈ [(-2147483648 : Int), 2147483647], -2147483648 ≤ b ∧ b ≤ 2147483647) := by
  decide

/-- The smallest planes, and one with an odd side. -/
theorem witness_SamplerAndTilerUndoThemselves :
    (∃ (w h : Nat) (plane : List Byte), 1 ≤ w ∧ 1 ≤ h ∧ plane.length = (w / 2) * (h / 2) ∧ plane ≠ []) ∧
    (∃ (w h : Nat) (plane : List Byte), 1 ≤ w ∧ 1 ≤ h ∧ plane.length = w * h ∧ plane ≠ []) :=
  ⟨⟨3, 2, [7], by decide⟩, ⟨1, 1, [7], by decide⟩⟩

theorem witness_DivRoundIsNearestHalfAway : ∃ d : Nat, 1 ≤ d := ⟨1, by decide⟩

/-- Two ties, 6/4 and 10/4: both round to 2. -/
theorem witness_RoundingIsNearestTiesToEven : ∀ n ∈ [6, 10],
    2 * ((F64.shiftRNE n 2 * 2 ^ 2 : Nat) - (n : Int)).natAbs = 2 ^ 2 ∧ F64.shiftRNE n 2 = 2 := by
  decide

theorem witness_EncodedLengthFormula :
    huffEnc [] = some [] ∧
    ∃ (s : List Word) (out : List Byte) (t : HTree) (codes : Bits), huffEnc s = some out ∧ buildTree s = some t ∧
      encodeValues t.codebook s = some codes := by
  refine ⟨rfl, [42], ?_⟩
  obtain ⟨t, cs, ht, _, hcs, he⟩ := huffEnc_cons (s := [42]) (by simp)
  exact ⟨_, t, cs, he, ht, hcs⟩

theorem witness_TreeDependsOnMultisetOnly : ([0, 1] : List Word).Perm [1, 0] := by decide

theorem witness_CodebookIsPrefixFreeAndComplete : ∃ (s : List Word) (t : HTree), buildTree s = some t ∧
    2 ≤ s.dedup.length :=
  ⟨[0, 1], .node (.leaf 0) (.leaf 1), by decide, by decide⟩

/-- The first and the last offset of register space. -/
theorem witness_ResetStateMeetsInvariants : ∀ off ∈ [0x000, 0xFFC], off % 4 = 0 ∧ off < 4096 := by decide

/-- A canonical, in-range, consistent state that is busy and takes a step. -/
theorem witness_StepInvariants : ∃ s t : State, Memory.wf s.mem ∧ MemoryInRange s ∧ StatusConsistent s ∧
    s.status.busy = true ∧ s.mem ≠ [] ∧ step s = .next t := by
  refine ⟨busyWith .subsample (dims 2 2) (memAt 0 [9]), _,
    (show Memory.wf (storeBytes [] 0 [9]) from storeBytes_wf empty_wf _ _), ?_,
    ⟨fun _ => rfl, by decide, fun _ => rfl, fun _ => rfl, fun _ => rfl, by decide, fun _ => rfl⟩, rfl, by decide, rfl⟩
  intro c hc
  rcases mem_storeBytes (show c ∈ storeBytes [] 0 [9] from hc) with h | h
  · cases h
  · exact lt_of_lt_of_le h.2 (by decide)

/-- A step that sets BUSY, by offset and by host address, and steps that clear it. -/
theorem witness_BusyChangesOnlyAsR24Says :
    (∀ e ∈ [Event.regWrite 0x004 4 0, .busWrite 0x100000004 4 0],
      ∃ t, step { State.reset with inputs := [e] } = .next t ∧ State.reset.status.busy = false ∧ t.status.busy = true) ∧
    (∀ e ∈ [Event.complete, .hardReset, .powerOn, .regWrite 0x00C 4 2, .busWrite 0x10000000C 4 2],
      ∃ t, step { busyWith .nop Operands.reset [] with inputs := [e] } = .next t ∧
        (busyWith .nop Operands.reset []).status.busy = true ∧ t.status.busy = false) := by
  constructor <;> intro e he <;> simp only [List.mem_cons, List.not_mem_nil, or_false] at he
  · rcases he with rfl | rfl <;> exact ⟨_, rfl, rfl, by decide⟩
  · rcases he with rfl | rfl | rfl | rfl | rfl <;> exact ⟨_, rfl, rfl, by decide⟩

/-- A step that sets OVERRUN, steps that clear it, and STATUS writes with bit 3 = 1 and with every other bit. -/
theorem witness_OverrunIsStickyAsR27Says :
    (∃ t, step { busyWith .nop Operands.reset [] with inputs := [.regWrite 0x004 4 0] } = .next t ∧
      t.status.overrun = true) ∧
    (∀ e ∈ [Event.hardReset, .powerOn, .regWrite 0x008 4 8, .regWrite 0x00C 4 2, .busWrite 0x100000008 4 8],
      ∃ t, step { dropCommand State.reset with inputs := [e] } = .next t ∧
        (dropCommand State.reset).status.overrun = true ∧ t.status.overrun = false) ∧
    (∃ s : State, s.inputs = [.regWrite 0x008 4 0x00000008] ∧ s.status.overrun = true ∧
      (0x00000008 : Word).getLsbD 3 = true) ∧
    (∃ s : State, s.inputs = [.regWrite 0x008 4 0xFFFFFFF7] ∧ s.status.overrun = true ∧
      (0xFFFFFFF7 : Word).getLsbD 3 = false) := by
  refine ⟨⟨_, rfl, by decide⟩, ?_,
    ⟨{ dropCommand State.reset with inputs := [.regWrite 0x008 4 0x00000008] }, rfl, rfl, by decide⟩,
    ⟨{ dropCommand State.reset with inputs := [.regWrite 0x008 4 0xFFFFFFF7] }, rfl, rfl, by decide⟩⟩
  intro e he
  simp only [List.mem_cons, List.not_mem_nil, or_false] at he
  rcases he with rfl | rfl | rfl | rfl | rfl <;> exact ⟨_, rfl, rfl, by decide⟩

/-- A CTRL write that enables the interrupt of an idle block and one that disables it while busy; a completion; an
acknowledgement; an acknowledgement with the completion after it. -/
theorem witness_InterruptFollowsCompletionAndAcknowledgement :
    (∃ s : State, s.inputs = [.regWrite 0x00C 4 0xFFFFFFFD] ∧ (0xFFFFFFFD : Word).getLsbD 1 = false ∧
      s.status.busy = false) ∧
    (∃ s : State, s.inputs = [.regWrite 0x00C 4 0] ∧ (0 : Word).getLsbD 1 = false ∧ s.status.busy = true ∧
      s.irqEn = true) ∧
    (∃ t, exec .nop (busyWith .nop Operands.reset []) = .next t) ∧
    (∃ s : State, s.inputs = [.regWrite 0x010 4 1] ∧ s.donePend = true) ∧
    (∃ s t u : State, s.status.busy = true ∧ s.inputs = [.regWrite 0x010 4 1, .complete] ∧ step s = .next t ∧
      step t = .next u) :=
  ⟨⟨{ State.reset with inputs := [.regWrite 0x00C 4 0xFFFFFFFD] }, rfl, by decide, rfl⟩,
   ⟨{ busyWith .nop Operands.reset [] with irqEn := true, inputs := [.regWrite 0x00C 4 0] }, rfl, by decide, rfl, rfl⟩,
   exists_next (by decide), ⟨{ State.reset with donePend := true, inputs := [.regWrite 0x010 4 1] }, rfl, rfl⟩,
   ⟨{ busyWith .nop Operands.reset [] with inputs := [.regWrite 0x010 4 1, .complete] }, _, _, rfl, rfl, rfl, rfl⟩⟩

/-- Every operand register, and the first and the last table entry. -/
theorem witness_OperandRegistersReadBack :
    ∀ off ∈ [0x014, 0x018, 0x01C, 0x020, 0x024, 0x028, 0x02C, 0x100, 0x1FC], ∃ s : State,
      (off ∈ [0x014, 0x018, 0x01C, 0x020, 0x024, 0x028, 0x02C] ∨ ∃ i : Fin 64, off = 0x100 + 4 * i.val) ∧
      s.inputs = [.regWrite off 4 0xFFFFFFFF, .regRead off 4] :=
  fun off h => ⟨{ State.reset with inputs := [.regWrite off 4 0xFFFFFFFF, .regRead off 4] }, by
    simp only [List.mem_cons, List.not_mem_nil, or_false] at h ⊢
    rcases h with h | h | h | h | h | h | h | rfl | rfl
    iterate 7 exact .inl (by simp [h])
    · exact .inr ⟨0, rfl⟩
    · exact .inr ⟨63, rfl⟩, rfl⟩

/-- Reads of every register, of the first and the last table entry and of each reserved range at both ends; writes to each
read-only or reserved range at both ends. -/
theorem witness_ReadOnlyRegistersIgnoreWrites :
    (∀ off ∈ [0x000, 0x004, 0x008, 0x00C, 0x010, 0x014, 0x018, 0x01C, 0x020, 0x024, 0x028, 0x02C, 0x030, 0x034, 0x038,
        0x03C, 0x040, 0x0FC, 0x100, 0x1FC, 0x200, 0xFFC],
      ∃ s : State, s.inputs = [.regRead off 4] ∧ off % 4 = 0 ∧ off < 4096) ∧
    (∀ off ∈ [0x000, 0x030, 0x0FC, 0x200, 0xFFC], ∃ s : State,
      s.inputs = [.regWrite off 4 0xFFFFFFFF] ∧ off % 4 = 0 ∧ off < 4096 ∧
      (off = 0x000 ∨ (0x030 ≤ off ∧ off < 0x100) ∨ 0x200 ≤ off)) :=
  ⟨fun off h => ⟨{ State.reset with inputs := [.regRead off 4] }, rfl, by revert off; decide⟩,
   fun off h => ⟨{ State.reset with inputs := [.regWrite off 4 0xFFFFFFFF] }, rfl, by revert off; decide⟩⟩

/-- A width of 2, an odd offset, the offset just past register space; a width of 3, an access one byte past MEM_SIZE. -/
theorem witness_BadAccessHasNoEffect :
    (∀ p ∈ [(0x004, 2), (0x005, 4), (0x1000, 4)], ∃ s : State, s.inputs = [.regWrite p.1 p.2 0] ∧
      (p.2 ≠ 4 ∨ p.1 % 4 ≠ 0 ∨ 4096 ≤ p.1)) ∧
    (∀ p ∈ [(0, 3), (16777213, 4)], ∃ s : State, s.inputs = [.memRead p.1 p.2] ∧
      ((p.2 ≠ 1 ∧ p.2 ≠ 2 ∧ p.2 ≠ 4) ∨ s.params.memSize < p.1 + p.2)) :=
  ⟨fun p h => ⟨{ State.reset with inputs := [.regWrite p.1 p.2 0] }, rfl, by revert p; decide⟩,
   fun p h => ⟨{ State.reset with inputs := [.memRead p.1 p.2] }, rfl, by revert p; decide⟩⟩

/-- The last word of memory, and its last byte; a read of the last word, and a write of it that is answered, of a busy
block. -/
theorem witness_HostWriteThenReadIsBigEndian :
    (∃ s : State, s.status.busy = false ∧ 3 + 1 ≤ 4 ∧ 16777212 + 4 ≤ s.params.memSize ∧
      s.inputs = [.memWrite 16777212 4 0x11223344, .memRead (16777212 + 3) 1]) ∧
    (∃ s : State, s.status.busy = true ∧ 16777212 + 4 ≤ s.params.memSize ∧ s.inputs = [.memRead 16777212 4]) ∧
    (∃ s t : State, s.status.busy = true ∧ 16777212 + 4 ≤ s.params.memSize ∧
      s.inputs = [.memWrite 16777212 4 0x11223344] ∧ step s = .next t) :=
  ⟨⟨{ State.reset with inputs := [.memWrite 16777212 4 0x11223344, .memRead (16777212 + 3) 1] }, rfl, by decide,
    by decide, rfl⟩,
   ⟨{ busyWith .subsample (dims 2 2) [] with inputs := [.memRead 16777212 4] }, rfl, by decide, rfl⟩,
   ⟨{ busyWith .subsample (dims 2 2) [] with inputs := [.memWrite 16777212 4 0x11223344] }, _, rfl, by decide, rfl,
    rfl⟩⟩

/-- A two-byte write whose second byte is the first of the source, and one whose first byte is the last of the
destination. -/
theorem witness_HostWriteIntoLiveWindowIsRace :
    let s := busyWith .subsample { dims 2 2 with srcAddr := 0x100 } []
    s.status.busy = true ∧ decode s.latch.word.toWord = .ok .subsample ∧ 0x0FF + 2 ≤ s.params.memSize ∧
    (s.latch.src ≤ 0x100 ∧ 0x100 < s.latch.src + srcLen .subsample s.latch) ∧
    (s.latch.dst ≤ 0x1000 ∧ 0x1000 < s.latch.dst + dstLen .subsample s.latch) := by
  decide

/-- A write that ends just below the source window of a command that then completes. -/
theorem witness_HostWriteOutsideWindowsIsIndependent :
    let s := busyWith .subsample { dims 2 2 with srcAddr := 4 } (memAt 4 [9])
    s.status.busy = true ∧ decode s.latch.word.toWord = .ok .subsample ∧ 0 + 4 ≤ s.params.memSize ∧
    (∀ x, x < 0 + 4 → ¬ (s.latch.src ≤ x ∧ x < s.latch.src + srcLen .subsample s.latch) ∧
      ¬ (s.latch.dst ≤ x ∧ x < s.latch.dst + dstLen .subsample s.latch)) ∧
    isNext (step { s with inputs := [.complete] }) = true := by
  decide

/-- The first and the last offset of register space, and buffer addresses outside it: the last byte of memory, and the
first one behind register space, which is past the 32-bit buffer addresses. -/
theorem witness_HostAddressesReachBothSpaces :
    (let p := Config.defaultParams
     ¬ (p.regBase ≤ p.memBase + 0xFFFFFF ∧ p.memBase + 0xFFFFFF < p.regBase + 4096) ∧
     ¬ (p.regBase ≤ p.memBase + 0x100001000 ∧ p.memBase + 0x100001000 < p.regBase + 4096)) ∧ 0 < 4096 ∧ 0xFFC < 4096 := by
  decide

/-- A hardware reset of an idle block, one that aborts an illegal word, and a soft reset of a busy block. -/
theorem witness_ResetStepResetsRegistersAndKeepsMemory :
    (∃ s : State, s.inputs = [.hardReset] ∧ s.status.busy = false) ∧
    (∃ s : State, s.inputs = [.hardReset] ∧ s.status.busy = true ∧ ∀ i, decode s.latch.word.toWord ≠ .ok i) ∧
    (∃ (s : State) (v : Word), s.inputs = [.regWrite 0x00C 4 v] ∧ v.getLsbD 1 = true ∧ s.status.busy = true ∧
      decode s.latch.word.toWord = .ok .subsample) :=
  ⟨⟨{ State.reset with inputs := [.hardReset] }, rfl, rfl⟩,
   ⟨{ accept 0x00000100 State.reset with inputs := [.hardReset] }, rfl, rfl, fun i => by cases i <;> decide⟩,
   ⟨{ busyWith .subsample (dims 2 2) [] with inputs := [.regWrite 0x00C 4 3] }, 3, rfl, by decide, rfl, by decide⟩⟩

theorem witness_PowerOnForgetsEverything : ∃ s : State, s.inputs = [.powerOn] ∧ s.mem ≠ [] :=
  ⟨{ idleWith Operands.reset (memAt 0 [9]) with inputs := [.powerOn] }, rfl, by decide⟩

theorem witness_FirstCommandAfterReset : ∀ i ∈ Instr.all, ∃ s : State, s.ops = Operands.reset ∧ s.status.busy = false ∧
    s.inputs = [.regWrite 0x004 4 (encode i), .complete] :=
  fun i _ => ⟨{ State.reset with inputs := [.regWrite 0x004 4 (encode i), .complete] }, rfl, rfl, rfl⟩

end Sys2Proof.Tests
end

section

namespace Sys2Proof.Machine

/-! ### Division to the nearest integer, halves away from zero (00_scope R14) -/

/-- On a natural number the sign factor of `divRoundHA` is idle: where it is 0, so is the quotient. -/
theorem divRoundHA_natCast (m d : Nat) : divRoundHA (m : Int) d = (((2 * m + d) / (2 * d) : Nat) : Int) := by
  rcases Nat.eq_zero_or_pos m with rfl | hm
  · have hq : d / (2 * d) = 0 := by
      rw [Nat.div_eq_zero_iff]
      omega
    simp [divRoundHA, hq]
  · simp [divRoundHA, Int.sign_eq_one_of_pos (Int.natCast_pos.mpr hm)]

@[simp] theorem divRoundHA_neg (n : Int) (d : Nat) : divRoundHA (-n) d = -divRoundHA n d := by
  simp [divRoundHA]

/-- The rounded quotient of a natural number overshoots by at most half a divisor and falls short by less. -/
theorem divRoundHA_natCast_mul_bounds (m : Nat) {d : Nat} (hd : 1 ≤ d) :
    2 * (divRoundHA m d * d) ≤ 2 * (m : Int) + d ∧ 2 * (m : Int) < 2 * (divRoundHA m d * d) + d := by
  rw [divRoundHA_natCast]
  have hdiv := Nat.div_add_mod (2 * m + d) (2 * d)
  have hmod := Nat.mod_lt (2 * m + d) (show 2 * d > 0 by omega)
  generalize (2 * m + d) / (2 * d) = q at hdiv ⊢
  have hcomm : 2 * d * q = 2 * (q * d) := by ring
  have hbounds : 2 * (q * d) ≤ 2 * m + d ∧ 2 * m < 2 * (q * d) + d := by omega
  exact_mod_cast hbounds

theorem divRoundHA_natCast_nonneg (m d : Nat) : 0 ≤ divRoundHA (m : Int) d := by
  rw [divRoundHA_natCast]
  exact Int.natCast_nonneg _

/-- The error of `divRoundHA` on a natural number is at most half a divisor, and a half is rounded up. -/
theorem divRoundHA_natCast_error (m : Nat) {d : Nat} (hd : 1 ≤ d) :
    2 * (divRoundHA m d * d - m).natAbs ≤ d ∧
      (2 * (divRoundHA m d * d - m).natAbs = d → m < (divRoundHA m d * d).natAbs) := by
  obtain ⟨hover, hshort⟩ := divRoundHA_natCast_mul_bounds m hd
  omega

/-- Settles O35: `divRoundHA` is odd in its numerator, so the natural numerators carry the statement. -/
theorem divRoundIsNearestHalfAway : Obligations.DivRoundIsNearestHalfAway := by
  intro n d hd
  obtain ⟨m, hm⟩ := n.eq_nat_or_neg
  obtain ⟨hnear, htie⟩ := divRoundHA_natCast_error m hd
  have hsign : 0 ≤ divRoundHA m d * m := Int.mul_nonneg (divRoundHA_natCast_nonneg m d) (Int.natCast_nonneg m)
  rcases hm with rfl | rfl
  · exact ⟨hnear, htie, hsign⟩
  · have herr : -divRoundHA m d * d - -(m : Int) = -(divRoundHA m d * d - m) := by ring
    simp only [divRoundHA_neg]
    rw [herr]
    simpa only [Int.natAbs_neg, Int.neg_mul, Int.mul_neg, Int.neg_neg] using ⟨hnear, htie, hsign⟩

end Sys2Proof.Machine

namespace Sys2Proof.F64

/-! ### Rounding of a significand, ties to even (00_scope R12) -/

@[simp] theorem pow2_eq (k : Nat) : pow2 k = 2 ^ k := by
  simp [pow2, Nat.shiftLeft_eq]

/-- Below a half the dropped bits are lost. -/
theorem shiftRNE_of_lt {n k : Nat} (h : 2 * (n % 2 ^ k) < 2 ^ k) : shiftRNE n k = n / 2 ^ k := by
  simp [shiftRNE, Nat.shiftRight_eq_div_pow, h]

/-- Above a half the quotient goes up. -/
theorem shiftRNE_of_gt {n k : Nat} (h : 2 ^ k < 2 * (n % 2 ^ k)) : shiftRNE n k = n / 2 ^ k + 1 := by
  simp [shiftRNE, Nat.shiftRight_eq_div_pow, h, Nat.lt_asymm h]

/-- At a half the quotient goes up exactly where it is odd. -/
theorem shiftRNE_of_tie {n k : Nat} (h : 2 * (n % 2 ^ k) = 2 ^ k) :
    shiftRNE n k = n / 2 ^ k + n / 2 ^ k % 2 := by
  simp [shiftRNE, Nat.shiftRight_eq_div_pow, h]

/-- A tie is rounded to an even quotient. -/
theorem shiftRNE_even_of_tie {n k : Nat} (h : 2 * (n % 2 ^ k) = 2 ^ k) : shiftRNE n k % 2 = 0 := by
  rw [shiftRNE_of_tie h]
  omega

/-- The distance of the rounded significand is the dropped part or its complement, whichever is smaller. -/
theorem shiftRNE_mul_sub_natAbs (n k : Nat) :
    ((shiftRNE n k * 2 ^ k : Nat) - (n : Int)).natAbs = min (n % 2 ^ k) (2 ^ k - n % 2 ^ k) := by
  have hdiv := Nat.div_add_mod' n (2 ^ k)
  have hmod := Nat.mod_lt n (Nat.two_pow_pos k)
  rcases Nat.lt_trichotomy (2 * (n % 2 ^ k)) (2 ^ k) with hlt | htie | hgt
  · rw [shiftRNE_of_lt hlt]
    omega
  · rw [shiftRNE_of_tie htie]
    rcases Nat.mod_two_eq_zero_or_one (n / 2 ^ k) with heven | hodd
    · rw [heven, Nat.add_zero]
      omega
    · rw [hodd, Nat.succ_mul]
      omega
  · rw [shiftRNE_of_gt hgt, Nat.succ_mul]
    omega

/-- Settles O36: the distance is at most a half, and it is a half only where the dropped bits are one. -/
theorem roundingIsNearestTiesToEven : Obligations.RoundingIsNearestTiesToEven := by
  intro n k
  have hdist := shiftRNE_mul_sub_natAbs n k
  have hmod := Nat.mod_lt n (Nat.two_pow_pos k)
  exact ⟨by omega, fun hhalf _ => shiftRNE_even_of_tie (by omega)⟩

end Sys2Proof.F64
end

section
/-!
Registers and status: what a step does to the completion fields (10_state R24 to R28, R35, R45), what an access to one
register does (R20 to R39), and what a running command and an idle block do not read (R40, R46).
-/

namespace Sys2Proof.Machine

/-! ### How a command ends (40_command R137) -/

/-- StartChecks reports codes a block may report (60_exceptions R290). -/
theorem startChecks_code_le {p : Params} {i : Instr} {l : Latch} {c : Err} (h : startChecks p i l = some c) :
    c.code.toNat ≤ 0x0A := by
  rcases startChecks_code h with rfl | rfl | rfl | rfl | rfl <;> decide

/-- A body error changes memory and the count of free bytes drawn, if anything (60_exceptions R296). -/
theorem afterBodyError_eq (i : Instr) (s : State) :
    afterBodyError i s = { s with mem := (afterBodyError i s).mem, draws := (afterBodyError i s).draws } := by
  unfold afterBodyError
  split <;> rfl

/-- A command succeeds, or it fails with a code a block may report and leaves memory in some state. -/
theorem exec_completes {i : Instr} {s t : State} (h : exec i s = .next t) :
    (∃ r, t = completeSuccess r s) ∨
    ∃ (c : Err) (m : Memory) (n : Nat), c.code.toNat ≤ 0x0A ∧
      t = { completeFailure c s with mem := m, draws := n } := by
  cases exec_next h with
  | checkFailed c hc => exact .inr ⟨c, s.mem, s.draws, startChecks_code_le hc, rfl⟩
  | succeeded r _ _ => exact .inl ⟨r, rfl⟩
  | bodyFailed c _ _ hr =>
    refine .inr ⟨c, (afterBodyError i s).mem, (afterBodyError i s).draws, (raises_code hr).2, ?_⟩
    rw [afterBodyError_eq]
    rfl

theorem exec_irqEn {i : Instr} {s t : State} (h : exec i s = .next t) : t.irqEn = s.irqEn := by
  rcases exec_completes h with ⟨r, rfl⟩ | ⟨c, m, n, _, rfl⟩ <;> rfl

theorem exec_donePend {i : Instr} {s t : State} (h : exec i s = .next t) : t.donePend = true := by
  rcases exec_completes h with ⟨r, rfl⟩ | ⟨c, m, n, _, rfl⟩ <;> rfl

/-- Settles O9: a success and a failure differ in ERROR, ERRCODE and RESULT_LEN alone. -/
theorem everyCommandWritesCompletionFields : Obligations.EveryCommandWritesCompletionFields := by
  intro i s t h
  rcases exec_completes h with ⟨r, rfl⟩ | ⟨c, m, n, _, rfl⟩
  · exact ⟨rfl, rfl, rfl, rfl, .inl ⟨rfl, rfl⟩⟩
  · exact ⟨rfl, rfl, rfl, rfl, .inr ⟨rfl, c.code_ne_zero, rfl⟩⟩

/-! ### Which event writes which register (10_state R20) -/

/-- An aligned offset that leads to a register is that register's offset: the register map is one to one. -/
theorem offset_regAt {off : Nat} (h4 : off % 4 = 0) (hr : regAt off ≠ .reserved) : (regAt off).offset = off := by
  rcases Nat.lt_or_ge off 0x40 with hlow | hhigh
  · have hmap : ∀ off < 0x40, off % 4 = 0 → regAt off ≠ .reserved → (regAt off).offset = off := by decide
    exact hmap off hlow h4 hr
  · rw [regAt_high hhigh] at hr ⊢
    split at hr
    · next htable =>
      rw [dif_pos htable]
      simp only [Reg.offset]
      omega
    · exact absurd rfl hr

theorem eq_offset_of_regAt {off : Nat} {r : Reg} (h4 : off % 4 = 0) (h : regAt off = r) (hr : r ≠ .reserved) :
    off = r.offset := by
  subst h
  exact (offset_regAt h4 hr).symm

theorem IsRegWrite.ne_complete {p : Params} {off n : Nat} {v : Word} {e : Event} (h : IsRegWrite p off n v e) :
    e ≠ .complete := by
  rcases h with rfl | ⟨a, _, rfl⟩ <;> simp

/-- The events that reset a running block: hardware reset, power-on, and a CTRL write with bit 1 = 1
(70_reset R320, R322). -/
def IsReset (p : Params) (e : Event) : Prop :=
  e = .hardReset ∨ e = .powerOn ∨ ∃ v : Word, v.getLsbD 1 = true ∧ IsRegWrite p 0x00C 4 v e

/-! ### The completion fields across one event -/

/-- `t` agrees with `s` in the fields that `StatusConsistent` speaks of. -/
structure SameStatusFields (s t : State) : Prop where
  cmd : t.cmd = s.cmd
  status : t.status = s.status
  resultLen : t.resultLen = s.resultLen
  latch : t.latch = s.latch

theorem SameStatusFields.statusConsistent {s t : State} (h : SameStatusFields s t) (hs : StatusConsistent s) :
    StatusConsistent t := by
  obtain ⟨hcmd, hstatus, hlen, hlatch⟩ := h
  constructor <;> simp only [hcmd, hstatus, hlen, hlatch]
  · exact hs.busyNotDone
  · exact hs.errorIffCode
  · exact hs.notDoneNoError
  · exact hs.notDoneNoLength
  · exact hs.errorNoLength
  · exact hs.legalCode
  · exact hs.busyLatch

/-- What an event can do to the completion fields, and which event it then was. -/
inductive StatusNext (e : Event) (s t : State) : Prop
  | kept (ht : SameStatusFields s t)
  | succeeded (r : Success) (he : e = .complete) (ht : SameStatusFields (completeSuccess r s) t)
  | failed (c : Err) (he : e = .complete) (hc : c.code.toNat ≤ 0x0A) (ht : SameStatusFields (completeFailure c s) t)
  | accepted (v : Word) (he : IsRegWrite s.params 0x004 4 v e) (hb : s.status.busy = false)
      (ht : SameStatusFields (accept v s) t)
  | dropped (v : Word) (he : IsRegWrite s.params 0x004 4 v e) (hb : s.status.busy = true)
      (ht : SameStatusFields (dropCommand s) t)
  | written (v : Word) (he : IsRegWrite s.params 0x008 4 v e)
      (ht : SameStatusFields { s with status := s.status.written v } t)
  | reset (he : IsReset s.params e) (ht : SameStatusFields (resetRegisters s) t)

/-- A register write reaches the completion fields through CMD, STATUS and CTRL alone. -/
theorem statusNext_regWrite {e : Event} {s : State} {off : Nat} {v : Word} (h4 : off % 4 = 0)
    (he : IsRegWrite s.params off 4 v e) : StatusNext e s (answer 0 (writeReg (regAt off) v s)) := by
  cases hr : regAt off with
  | cmd =>
    obtain rfl := eq_offset_of_regAt h4 hr (by simp)
    simp only [writeReg, writeCmd]
    split_ifs with hb
    · exact .dropped v he hb ⟨rfl, rfl, rfl, rfl⟩
    · exact .accepted v he (by simpa using hb) ⟨rfl, rfl, rfl, rfl⟩
  | status =>
    obtain rfl := eq_offset_of_regAt h4 hr (by simp)
    exact .written v he ⟨rfl, rfl, rfl, rfl⟩
  | ctrl =>
    obtain rfl := eq_offset_of_regAt h4 hr (by simp)
    simp only [writeReg, writeCtrl]
    split_ifs with hsoft
    · exact .reset (.inr (.inr ⟨v, hsoft, he⟩)) ⟨rfl, rfl, rfl, rfl⟩
    · exact .kept ⟨rfl, rfl, rfl, rfl⟩
  | _ => exact .kept ⟨rfl, rfl, rfl, rfl⟩

theorem EventNext.statusNext {e : Event} {s t : State} (h : EventNext e s t) : StatusNext e s t := by
  cases h with
  | ran i t he _ _ hx =>
    rcases exec_completes hx with ⟨r, rfl⟩ | ⟨c, m, n, hc, rfl⟩
    · exact .succeeded r he ⟨rfl, rfl, rfl, rfl⟩
    · exact .failed c he hc ⟨rfl, rfl, rfl, rfl⟩
  | illegal x he _ _ => exact .failed .illegalCmd he (by decide) ⟨rfl, rfl, rfl, rfl⟩
  | regWrite off v h4 _ he => exact statusNext_regWrite h4 he
  | hardReset he => exact .reset (.inl he) ⟨rfl, rfl, rfl, rfl⟩
  | powerOn he => exact .reset (.inr (.inl he)) ⟨rfl, rfl, rfl, rfl⟩
  | nothing | refused | regRead | memRead | memWrite => exact .kept ⟨rfl, rfl, rfl, rfl⟩

/-! ### The completion fields stay consistent (70_reset R331) -/

/-- An idle block without DONE, error or result length is consistent. -/
theorem statusConsistent_of_status_reset {s : State} (hs : s.status = Status.reset) (hl : s.resultLen = 0) :
    StatusConsistent s := by
  constructor <;> simp [hs, hl, Status.reset]

theorem statusConsistent_completeSuccess (r : Success) (s : State) : StatusConsistent (completeSuccess r s) := by
  constructor <;> simp

theorem statusConsistent_completeFailure {c : Err} (hc : c.code.toNat ≤ 0x0A) (s : State) :
    StatusConsistent (completeFailure c s) := by
  have hz : c.code ≠ 0#8 := c.code_ne_zero
  constructor <;> simp [hz, hc]

theorem statusConsistent_accept (v : Word) (s : State) : StatusConsistent (accept v s) := by
  constructor <;> simp [Latch.take]

/-- OVERRUN is no concern of the consistency of the other fields. -/
theorem StatusConsistent.withOverrun {s : State} (h : StatusConsistent s) (b : Bool) :
    StatusConsistent { s with status := { s.status with overrun := b } } :=
  ⟨h.busyNotDone, h.errorIffCode, h.notDoneNoError, h.notDoneNoLength, h.errorNoLength, h.legalCode, h.busyLatch⟩

theorem StatusNext.statusConsistent {e : Event} {s t : State} (h : StatusNext e s t) (hs : StatusConsistent s) :
    StatusConsistent t := by
  cases h with
  | kept ht => exact ht.statusConsistent hs
  | succeeded r _ ht => exact ht.statusConsistent (statusConsistent_completeSuccess r s)
  | failed c _ hc ht => exact ht.statusConsistent (statusConsistent_completeFailure hc s)
  | accepted v _ _ ht => exact ht.statusConsistent (statusConsistent_accept v s)
  | dropped v _ _ ht => exact ht.statusConsistent (hs.withOverrun _)
  | written v _ ht => exact ht.statusConsistent (hs.withOverrun _)
  | reset _ ht => exact ht.statusConsistent (statusConsistent_of_status_reset rfl rfl)

/-- Settles O47: each way an event reaches the completion fields leaves them consistent. -/
theorem stepKeepsStatusConsistent : Obligations.StepKeepsStatusConsistent := by
  intro s t hs h
  obtain ⟨e, rest, hn, _⟩ := step_event h
  have hs' : SameStatusFields s { s with inputs := rest } := ⟨rfl, rfl, rfl, rfl⟩
  exact hn.statusNext.statusConsistent (hs'.statusConsistent hs)

/-! ### BUSY and OVERRUN (10_state R24, R27) -/

theorem StatusNext.of_busy_set {e : Event} {s t : State} (h : StatusNext e s t) (hs : s.status.busy = false)
    (ht : t.status.busy = true) : ∃ v, IsRegWrite s.params 0x004 4 v e := by
  cases h with
  | accepted v he _ _ => exact ⟨v, he⟩
  | dropped v he _ _ => exact ⟨v, he⟩
  | kept h | succeeded _ _ h | failed _ _ _ h | written _ _ h | reset _ h =>
    simp [h.status, hs, Status.reset] at ht

theorem StatusNext.of_busy_cleared {e : Event} {s t : State} (h : StatusNext e s t) (hs : s.status.busy = true)
    (ht : t.status.busy = false) : e = .complete ∨ IsReset s.params e := by
  cases h with
  | succeeded _ he _ => exact .inl he
  | failed _ he _ _ => exact .inl he
  | reset he _ => exact .inr he
  | kept h | accepted _ _ _ h | dropped _ _ _ h | written _ _ h => simp [h.status, hs] at ht

theorem StatusNext.of_overrun_set {e : Event} {s t : State} (h : StatusNext e s t) (hs : s.status.overrun = false)
    (ht : t.status.overrun = true) : s.status.busy = true ∧ ∃ v, IsRegWrite s.params 0x004 4 v e := by
  cases h with
  | dropped v he hb _ => exact ⟨hb, v, he⟩
  | kept h | succeeded _ _ h | failed _ _ _ h | accepted _ _ _ h | written _ _ h | reset _ h =>
    simp [h.status, hs, Status.reset] at ht

theorem StatusNext.of_overrun_cleared {e : Event} {s t : State} (h : StatusNext e s t)
    (hs : s.status.overrun = true) (ht : t.status.overrun = false) :
    IsReset s.params e ∨ ∃ v : Word, v.getLsbD 3 = true ∧ IsRegWrite s.params 0x008 4 v e := by
  cases h with
  | reset he _ => exact .inl he
  | written v he h => exact .inr ⟨v, by simpa [h.status, hs] using ht, he⟩
  | kept h | succeeded _ _ h | failed _ _ _ h | accepted _ _ _ h | dropped _ _ _ h => simp [h.status, hs] at ht

/-- A step in terms of the completion fields: `StatusNext` of its event, which is the next of the list unless it is the
engine's completion. -/
theorem step_statusNext {s t : State} (h : step s = .next t) :
    ∃ e rest, StatusNext e { s with inputs := rest } t ∧ (e ≠ .complete → s.inputs = e :: rest) ∧
      (s.inputs = [] ∨ s.inputs = e :: rest) := by
  obtain ⟨e, rest, hn, hi⟩ := step_event h
  refine ⟨e, rest, hn.statusNext, fun he => ?_, ?_⟩
  · rcases hi with hi | ⟨_, hc, _⟩
    · exact hi
    · exact absurd hc he
  · rcases hi with hi | ⟨hi, _, _⟩
    · exact .inr hi
    · exact .inl hi

/-- A register write taken as a step stands first in the list of events, by offset or by host address. -/
theorem IsRegWrite.first {p : Params} {e : Event} {es rest : List Event} {off : Nat} {v : Word}
    (he : IsRegWrite p off 4 v e) (hi : e ≠ .complete → es = e :: rest) :
    es = .regWrite off 4 v :: rest ∨ ∃ a, route p a = .register off ∧ es = .busWrite a 4 v :: rest := by
  have hin := hi he.ne_complete
  rcases he with rfl | ⟨a, ha, rfl⟩
  · exact .inl hin
  · exact .inr ⟨a, ha, hin⟩

theorem IsReset.ne_complete {p : Params} {e : Event} (h : IsReset p e) : e ≠ .complete := by
  rcases h with rfl | rfl | ⟨v, _, he⟩
  · simp
  · simp
  · exact he.ne_complete

/-- Settles O48: BUSY is set by an acceptance, and cleared by a completion or a reset. -/
theorem busyChangesOnlyAsR24Says : Obligations.BusyChangesOnlyAsR24Says := by
  intro s t h
  obtain ⟨e, rest, hn, hi, hi'⟩ := step_statusNext h
  refine ⟨fun hs ht => ?_, fun hs ht => ?_⟩
  · obtain ⟨v, he⟩ := hn.of_busy_set hs ht
    exact ⟨v, rest, he.first hi⟩
  · exact hi'.imp_right fun hin => ⟨e, rest, hin, hn.of_busy_cleared hs ht⟩

/-! ### One register access as a step (10_state R20, R39) -/

theorem step_regWrite_offset {s : State} {off : Nat} {v : Word} {rest : List Event}
    (h : s.inputs = .regWrite off 4 v :: rest) (h4 : off % 4 = 0) (hlt : off < 4096) :
    step s = .next (answer 0 (writeReg (regAt off) v { s with inputs := rest })) := by
  rw [step_of_event h]
  simp only [runEvent, hostEvent, hostRegWrite, regAccessLegal_iff.mpr ⟨rfl, h4, hlt⟩, if_true]

theorem step_regRead_offset {s : State} {off : Nat} {rest : List Event}
    (h : s.inputs = .regRead off 4 :: rest) (h4 : off % 4 = 0) (hlt : off < 4096) :
    step s = .next (answer (readReg { s with inputs := rest } (regAt off)) { s with inputs := rest }) := by
  rw [step_of_event h]
  simp only [runEvent, hostEvent, hostRegRead, regAccessLegal_iff.mpr ⟨rfl, h4, hlt⟩, if_true]

theorem offset_bounds (r : Reg) : r.offset % 4 = 0 ∧ r.offset < 4096 :=
  (regAccessLegal_iff.mp (offset_legal r)).2

theorem step_regWrite {s : State} {r : Reg} {v : Word} {rest : List Event}
    (h : s.inputs = .regWrite r.offset 4 v :: rest) :
    step s = .next (answer 0 (writeReg r v { s with inputs := rest })) := by
  rw [step_regWrite_offset h (offset_bounds r).1 (offset_bounds r).2, regAt_offset]

theorem step_regRead {s : State} {r : Reg} {rest : List Event} (h : s.inputs = .regRead r.offset 4 :: rest) :
    step s = .next (answer (readReg { s with inputs := rest } r) { s with inputs := rest }) := by
  rw [step_regRead_offset h (offset_bounds r).1 (offset_bounds r).2, regAt_offset]

/-- Settles O49: OVERRUN is set by a dropped command, and cleared by a STATUS write or a reset. -/
theorem overrunIsStickyAsR27Says : Obligations.OverrunIsStickyAsR27Says := by
  refine ⟨fun s t h => ?_, fun s v rest hi => ?_⟩
  · obtain ⟨e, rest, hn, hi, _⟩ := step_statusNext h
    refine ⟨fun hs ht => ?_, fun hs ht => ?_⟩
    · obtain ⟨hb, v, he⟩ := hn.of_overrun_set hs ht
      exact ⟨hb, v, rest, he.first hi⟩
    · rcases hn.of_overrun_cleared hs ht with hr | ⟨v, h3, he⟩
      · refine ⟨e, rest, hi hr.ne_complete, ?_⟩
        rcases hr with hr | hr | ⟨v, h1, he⟩
        · exact .inl hr
        · exact .inr (.inl hr)
        · exact .inr (.inr ⟨v, 0x00C, .inr ⟨rfl, h1⟩, he⟩)
      · exact ⟨e, rest, hi he.ne_complete, .inr (.inr ⟨v, 0x008, .inl ⟨rfl, h3⟩, he⟩)⟩
  · have hov : s.status.written v =
        { s.status with overrun := if v.getLsbD 3 then false else s.status.overrun } := by
      unfold Status.written
      cases v.getLsbD 3 <;> simp
    rw [← hov]
    exact step_regWrite (r := .status) hi

/-! ### The interrupt (10_state R29, R30, R42; 60_exceptions R298) -/

/-- The engine's turn on a busy block raises DONE_PEND, whatever the latched word is. -/
theorem engineTurn_donePend {s t : State} (hb : s.status.busy = true) (h : engineTurn s = .next t) :
    t.donePend = true := by
  rw [engineTurn, if_pos hb, complete] at h
  split at h
  · exact exec_donePend h
  · cases h
    rfl

theorem writeCtrl_of_not_reset {v : Word} (h : v.getLsbD 1 = false) (s : State) :
    writeCtrl v s = { s with irqEn := v.getLsbD 0 } := by
  rw [writeCtrl, h]
  rfl

/-- Settles O50: CTRL and IRQ_STATUS are written as steps, and a completion leaves DONE_PEND 1 and IRQ_EN alone. -/
theorem interruptFollowsCompletionAndAcknowledgement : Obligations.InterruptFollowsCompletionAndAcknowledgement := by
  refine ⟨fun s v rest hi h1 => ?_, fun i s t h => ?_, fun s v rest hi => ?_, fun s t u v hb hi hst htu => ?_⟩
  · have hstep := step_regWrite (r := .ctrl) hi
    rw [writeReg, writeCtrl_of_not_reset h1] at hstep
    exact ⟨_, hstep, rfl, rfl⟩
  · simp [State.irq, exec_irqEn h, exec_donePend h]
  · refine ⟨_, step_regWrite (r := .irqStatus) hi, rfl, fun h0 => ?_, rfl, rfl, rfl⟩
    simp [writeReg, State.irq, donePendWritten, h0]
  · rw [step_regWrite (r := .irqStatus) hi] at hst
    cases hst
    rw [step_of_event rfl] at htu
    refine engineTurn_donePend ?_ htu
    exact hb

/-! ### Operand registers (10_state R31 to R34, R36, R46) -/

/-- A write to a register that sets the operands, and the read that follows it, as two steps. -/
theorem step_writeOps_then_read {s : State} {r : Reg} {v d : Word} {o : Operands} {rest : List Event}
    (hi : s.inputs = .regWrite r.offset 4 v :: .regRead r.offset 4 :: rest)
    (hw : writeReg r v { s with inputs := .regRead r.offset 4 :: rest } =
      { s with ops := o, inputs := .regRead r.offset 4 :: rest })
    (hr : readReg { s with ops := o, inputs := rest, response := { data := 0, busError := false } } r = d) :
    ∃ t, step s = .next t ∧
      t = { s with ops := o, inputs := .regRead r.offset 4 :: rest, response := { data := 0, busError := false } } ∧
      step t = .next { s with ops := o, inputs := rest, response := { data := d, busError := false } } := by
  have hwrite := step_regWrite hi
  rw [hw] at hwrite
  refine ⟨_, hwrite, rfl, ?_⟩
  rw [step_regRead (r := r) rfl, ← hr]
  rfl

/-- A table entry takes the low 16 bits of a word (10_state R36). -/
theorem setWidth_half (v : Word) : v.setWidth 16 = BitVec.ofNat 16 (v.toNat % 2 ^ 16) := by
  apply BitVec.eq_of_toNat_eq
  simp

/-- Settles O51: one register of the map after the other. -/
theorem operandRegistersReadBack : Obligations.OperandRegistersReadBack := by
  intro s off v o rest ho hi
  rcases ho with ⟨rfl, rfl⟩ | ⟨rfl, rfl⟩ | ⟨rfl, rfl⟩ | ⟨rfl, rfl⟩ | ⟨rfl, rfl⟩ | ⟨rfl, rfl⟩ | ⟨rfl, rfl⟩ |
    ⟨i, rfl, rfl⟩
  · exact step_writeOps_then_read (r := .width) hi rfl rfl
  · exact step_writeOps_then_read (r := .height) hi rfl rfl
  · exact step_writeOps_then_read (r := .count) hi rfl rfl
  · exact step_writeOps_then_read (r := .srcAddr) hi rfl rfl
  · exact step_writeOps_then_read (r := .srcLen) hi rfl rfl
  · exact step_writeOps_then_read (r := .dstAddr) hi rfl rfl
  · exact step_writeOps_then_read (r := .dstLimit) hi rfl rfl
  · refine step_writeOps_then_read (r := .qtable i) hi ?_ ?_
    · rw [← setWidth_half]
      rfl
    · rw [if_pos (by omega), readReg, ← BitVec.ofNat_toNat]
      simp

/-! ### What each register reads as, and which ignore writes (10_state R20 to R23, R29, R30, R38) -/

/-- The fields of STATUS as bits (10_state R23). -/
theorem status_word_fields (t : Status) :
    t.word.getLsbD 0 = t.busy ∧ t.word.getLsbD 1 = t.done ∧ t.word.getLsbD 2 = t.error ∧
      t.word.getLsbD 3 = t.overrun ∧ t.word.extractLsb' 4 4 = 0 ∧ t.word.extractLsb' 8 8 = t.errcode ∧
      t.word.extractLsb' 16 16 = 0 := by
  have hbit : ∀ b : Bool, bit b ≤ 1 := by decide
  have hbusy := hbit t.busy
  have hdone := hbit t.done
  have herror := hbit t.error
  have hoverrun := hbit t.overrun
  have hcode := t.errcode.isLt
  have hword : t.word.toNat =
      bit t.busy + 2 * bit t.done + 4 * bit t.error + 8 * bit t.overrun + 256 * t.errcode.toNat := by
    rw [Status.word, BitVec.toNat_ofNat, Nat.mod_eq_of_lt (by omega)]
  have hlsb : ∀ (k : Nat) (b : Bool), t.word.toNat / 2 ^ k % 2 = bit b → t.word.getLsbD k = b := by
    intro k b h
    rw [BitVec.getLsbD, Nat.testBit_eq_decide_div_mod_eq, h]
    cases b <;> rfl
  have hfield : ∀ (k n : Nat) (x : BitVec n), t.word.toNat / 2 ^ k % 2 ^ n = x.toNat → t.word.extractLsb' k n = x := by
    intro k n x h
    apply BitVec.eq_of_toNat_eq
    rw [BitVec.extractLsb'_toNat, Nat.shiftRight_eq_div_pow, h]
  have hzero : ∀ n, (0 : BitVec n).toNat = 0 := fun n => by simp
  exact ⟨hlsb 0 _ (by omega), hlsb 1 _ (by omega), hlsb 2 _ (by omega), hlsb 3 _ (by omega),
    hfield 4 4 _ (by rw [hzero]; omega), hfield 8 8 _ (by omega), hfield 16 16 _ (by rw [hzero]; omega)⟩

theorem ctrlWord_eq (b : Bool) : ctrlWord b = if b then 1 else 0 := by cases b <;> rfl

theorem irqStatusWord_eq (b : Bool) : irqStatusWord b = if b then 1 else 0 := by cases b <;> rfl

/-- The registers a host write does not change (10_state R21, R35, R37, R38). -/
def Reg.readOnly : Reg → Bool
  | .id | .resultLen | .memTop | .maxPix | .maxSym | .reserved => true
  | _ => false

theorem writeReg_readOnly {r : Reg} (h : r.readOnly = true) (v : Word) (s : State) : writeReg r v s = s := by
  cases r with
  | id | resultLen | memTop | maxPix | maxSym | reserved => rfl
  | _ => cases h

theorem regAt_reserved {off : Nat} (h : (0x40 ≤ off ∧ off < 0x100) ∨ 0x200 ≤ off) : regAt off = .reserved := by
  rw [regAt_high (by omega), dif_neg (by omega)]

theorem regAt_readOnly {off : Nat} (h4 : off % 4 = 0) (h : off = 0x000 ∨ (0x030 ≤ off ∧ off < 0x100) ∨ 0x200 ≤ off) :
    (regAt off).readOnly = true := by
  rcases Nat.lt_or_ge off 0x40 with hlow | hhigh
  · have hmap : ∀ off < 0x40, off % 4 = 0 → off = 0 ∨ 0x030 ≤ off → (regAt off).readOnly = true := by decide
    exact hmap off hlow h4 (by omega)
  · rw [regAt_reserved (by omega)]
    rfl

/-- Settles O52: the register map, offset by offset. -/
theorem readOnlyRegistersIgnoreWrites : Obligations.ReadOnlyRegistersIgnoreWrites := by
  refine ⟨fun s off rest hi h4 hlt => ?_, fun s off v rest hi h4 hlt hro => ?_⟩
  · have hread : ∀ r : Reg, off = r.offset → readReg s (regAt off) = readReg s r := by
      rintro r rfl
      rw [regAt_offset]
    exact ⟨readReg s (regAt off), step_regRead_offset hi h4 hlt, hread .id, hread .cmd,
      fun h => hread .status h ▸ status_word_fields s.status,
      fun h => (hread .ctrl h).trans (ctrlWord_eq _), fun h => (hread .irqStatus h).trans (irqStatusWord_eq _),
      hread .width, hread .height, hread .count, hread .srcAddr, hread .srcLen, hread .dstAddr, hread .dstLimit,
      hread .resultLen, hread .memTop, hread .maxPix, hread .maxSym,
      fun i h => (hread (.qtable i) h).trans (BitVec.ofNat_toNat 32 _).symm,
      fun h => congrArg (readReg s) (regAt_reserved h)⟩
  · rw [step_regWrite_offset hi h4 hlt, writeReg_readOnly (regAt_readOnly h4 hro)]
    rfl

/-! ### The state after reset (10_state R20, R47) -/

/-- The reset column of the register map: the identification, the three capabilities, 1 in the table, 0 elsewhere. -/
def resetValue (off : Nat) : Word :=
  if off = 0x000 then 0x43434231
  else if off = 0x034 then BitVec.ofNat 32 (State.reset.params.memSize - 1)
  else if off = 0x038 then BitVec.ofNat 32 State.reset.params.maxPixels
  else if off = 0x03C then BitVec.ofNat 32 State.reset.params.maxSymbols
  else if 0x100 ≤ off ∧ off < 0x200 then 1
  else 0

theorem readReg_reset {off : Nat} (h4 : off % 4 = 0) : readReg State.reset (regAt off) = resetValue off := by
  rcases Nat.lt_or_ge off 0x40 with hlow | hhigh
  · have hmap : ∀ off < 0x40, off % 4 = 0 → readReg State.reset (regAt off) = resetValue off := by decide
    exact hmap off hlow h4
  · rw [resetValue, if_neg (by omega), if_neg (by omega), if_neg (by omega), if_neg (by omega), regAt_high hhigh]
    split_ifs with htable
    · simp [readReg, State.reset, Operands.reset]
    · rfl

/-- Settles O44: memory is empty, no command has completed, and every register reads its reset value. -/
theorem resetStateMeetsInvariants : Obligations.ResetStateMeetsInvariants := by
  refine ⟨empty_wf, fun c hc => absurd hc List.not_mem_nil, statusConsistent_of_status_reset rfl rfl, by decide, rfl,
    fun a => rfl, fun off h4 hlt => ?_⟩
  rw [step_regRead_offset rfl h4 hlt]
  exact congrArg (fun d => Host.Outcome.next (answer d State.reset)) (readReg_reset h4)

/-- Settles O59: power-on is one event, and leaves no byte and no register as it was. -/
theorem powerOnForgetsEverything : Obligations.PowerOnForgetsEverything := by
  intro s rest hi
  exact ⟨powerOnReset { s with inputs := rest }, step_of_event hi, rfl, rfl, rfl, rfl, rfl, rfl, rfl, fun a => rfl, rfl⟩

/-! ### Accesses the block does not take (10_state R39, 20_memory R61) -/

theorem regAccessLegal_eq_false {off n : Nat} (h : n ≠ 4 ∨ off % 4 ≠ 0 ∨ 4096 ≤ off) :
    regAccessLegal off n = false := by
  rw [Bool.eq_false_iff, Ne, regAccessLegal_iff]
  omega

theorem memAccessLegal_eq_false {p : Params} {a n : Nat} (h : (n ≠ 1 ∧ n ≠ 2 ∧ n ≠ 4) ∨ p.memSize < a + n) :
    memAccessLegal p a n = false := by
  rw [Bool.eq_false_iff, Ne, memAccessLegal_iff]
  omega

/-- Settles O53: a read and a write of either space, each refused by its own check. -/
theorem badAccessHasNoEffect : Obligations.BadAccessHasNoEffect := by
  rintro s a n v rest (⟨hi | hi, hbad⟩ | ⟨hi | hi, hbad⟩) <;> rw [step_of_event hi]
  · simp only [runEvent, hostEvent, hostRegWrite, regAccessLegal_eq_false hbad]
    rfl
  · simp only [runEvent, hostEvent, hostRegRead, regAccessLegal_eq_false hbad]
    rfl
  · simp only [runEvent, hostEvent, hostMemWrite, memAccessLegal_eq_false hbad]
    rfl
  · simp only [runEvent, hostEvent, hostMemRead, memAccessLegal_eq_false hbad]
    rfl

/-! ### A command does not read the operand registers (10_state R40, R46) -/

/-- DECOMPRESS answers the dimensions of the image it wrote (47_pipeline R281). -/
theorem bodyDecompress_dims {p : Params} {l : Latch} {m : Memory} {r : Success}
    (h : bodyOf .decompress p l m = .ok r) : ∃ w h, r.dims = some (w, h) := by
  obtain ⟨hd, _, hrest⟩ := bind_eq_ok.mp h
  obtain ⟨vs, _, hout⟩ := bind_eq_ok.mp hrest
  cases hout
  exact ⟨hd.width, hd.height, rfl⟩

theorem afterBodyError_withOps (i : Instr) (s : State) (o : Operands) :
    afterBodyError i { s with ops := o } = { afterBodyError i s with ops := o } := by
  unfold afterBodyError
  split <;> rfl

/-- Settles O33: StartChecks and the body see the latch, so the same way to complete is open with other operands. -/
theorem operandWritesDoNotAffectRunningCommand : Obligations.OperandWritesDoNotAffectRunningCommand := by
  intro i s t o h
  cases exec_next h with
  | checkFailed c hc => exact ⟨_, exec_of_startCheck hc, rfl, rfl, rfl, rfl, fun _ => rfl, fun _ hok => by cases hok⟩
  | bodyFailed c hp hb _ =>
    refine ⟨_, exec_of_raise hp hb, ?_⟩
    rw [afterBodyError_withOps]
    exact ⟨rfl, rfl, rfl, rfl, fun _ => rfl, fun _ hok => by cases hok⟩
  | succeeded r hp hb =>
    refine ⟨_, exec_of_ok hp hb, rfl, rfl, rfl, rfl, fun hi => ?_, fun hi _ => ?_⟩
    · have hdims := (bodyOf_ok hb).2.2 (hi.resolve_right (by simp))
      simp [hdims]
    · subst hi
      obtain ⟨w, h, hdims⟩ := bodyDecompress_dims hb
      simp [hdims]

/-! ### An idle block does not read its latch (10_state R40, R47) -/

theorem inFlight_of_idle {s : State} (h : s.status.busy = false) : inFlight s = none := by
  rw [inFlight, h]
  rfl

theorem inLiveDst_of_idle {s : State} (h : s.status.busy = false) (x : Nat) : inLiveDst s x = false := by
  rw [inLiveDst, inFlight_of_idle h]

theorem inLiveSrc_of_idle {s : State} (h : s.status.busy = false) (x : Nat) : inLiveSrc s x = false := by
  rw [inLiveSrc, inFlight_of_idle h]

theorem racesWith_of_idle {s : State} (h : s.status.busy = false) (a n : Nat) : racesWith s a n = false := by
  simp [racesWith, inLiveSrc_of_idle h, inLiveDst_of_idle h]

theorem resetStep_of_idle {s : State} (h : s.status.busy = false) : resetStep s = resetRegisters s := by
  rw [resetStep, abortCommand, inFlight_of_idle h]

/-- `f` answers a next state from `s`, and with any other latch the same one but for that latch at most. -/
def LatchUnread (f : State → Host.Outcome State Fault Refusal) (s : State) : Prop :=
  ∀ l, ∃ t, f s = .next t ∧ (f { s with latch := l } = .next t ∨ f { s with latch := l } = .next { t with latch := l })

theorem latchUnread_hostRegRead (s : State) (off n : Nat) : LatchUnread (fun s => .next (hostRegRead off n s)) s := by
  intro l
  have hread : ∀ r, readReg { s with latch := l } r = readReg s r := fun r => by cases r <;> rfl
  refine ⟨_, rfl, .inr ?_⟩
  simp only [hostRegRead, hread]
  split_ifs <;> rfl

section IdleBlock

variable {s : State} (hidle : s.status.busy = false)
include hidle

theorem latchUnread_hostMemRead (a n : Nat) : LatchUnread (fun s => .next (hostMemRead a n s)) s := by
  intro l
  have hidle' : ({ s with latch := l } : State).status.busy = false := hidle
  have hbytes : hostBytes { s with latch := l } a n = hostBytes s a n := by
    simp only [hostBytes, hostByte, inLiveDst_of_idle hidle, inLiveDst_of_idle hidle']
  refine ⟨_, rfl, .inr ?_⟩
  simp only [hostMemRead, hbytes]
  split_ifs <;> rfl

theorem latchUnread_hostMemWrite (a n : Nat) (v : Word) : LatchUnread (hostMemWrite a n v) s := by
  intro l
  have hidle' : ({ s with latch := l } : State).status.busy = false := hidle
  simp only [hostMemWrite, racesWith_of_idle hidle, racesWith_of_idle hidle', Bool.false_eq_true, if_false]
  split_ifs
  · exact ⟨_, rfl, .inr rfl⟩
  · exact ⟨_, rfl, .inr rfl⟩

/-- An accepted command word and a reset write the latch anew; no other register write reaches it. -/
theorem latchUnread_writeReg (r : Reg) (v : Word) : LatchUnread (fun s => .next (answer 0 (writeReg r v s))) s := by
  intro l
  refine ⟨_, rfl, ?_⟩
  have hidle' : ({ s with latch := l } : State).status.busy = false := hidle
  cases r with
  | cmd =>
    simp only [writeReg, writeCmd, hidle]
    exact .inl rfl
  | ctrl =>
    simp only [writeReg, writeCtrl, resetStep_of_idle hidle, resetStep_of_idle hidle']
    split_ifs
    · exact .inl rfl
    · exact .inr rfl
  | _ => exact .inr rfl

theorem latchUnread_hostRegWrite (off n : Nat) (v : Word) : LatchUnread (fun s => .next (hostRegWrite off n v s)) s := by
  simp only [hostRegWrite]
  split_ifs
  · exact latchUnread_writeReg hidle _ v
  · exact fun l => ⟨_, rfl, .inr rfl⟩

theorem latchUnread_engineTurn : LatchUnread engineTurn s := by
  intro l
  simp only [engineTurn, hidle]
  exact ⟨s, rfl, .inr rfl⟩

theorem latchUnread_runEvent (e : Event) : LatchUnread (runEvent e) s := by
  cases e with
  | complete => exact latchUnread_engineTurn hidle
  | regWrite off n v => exact latchUnread_hostRegWrite hidle off n v
  | regRead off n => exact latchUnread_hostRegRead s off n
  | memWrite a n v => exact latchUnread_hostMemWrite hidle a n v
  | memRead a n => exact latchUnread_hostMemRead hidle a n
  | busWrite addr n v =>
    intro l
    simp only [runEvent, hostEvent, hostBusWrite]
    split
    · exact latchUnread_hostRegWrite hidle _ n v l
    · exact latchUnread_hostMemWrite hidle _ n v l
    · exact ⟨_, rfl, .inr rfl⟩
  | busRead addr n =>
    intro l
    simp only [runEvent, hostEvent, hostBusRead]
    split
    · exact latchUnread_hostRegRead s _ n l
    · exact latchUnread_hostMemRead hidle _ n l
    · exact ⟨_, rfl, .inr rfl⟩
  | hardReset =>
    intro l
    have hidle' : ({ s with latch := l } : State).status.busy = false := hidle
    refine ⟨_, rfl, .inl ?_⟩
    simp only [runEvent, hostEvent, resetStep_of_idle hidle, resetStep_of_idle hidle']
    rfl
  | powerOn => exact fun l => ⟨_, rfl, .inl rfl⟩

end IdleBlock

theorem step_of_no_event {s : State} (h : s.inputs = []) : step s = engineTurn s := by
  simp only [step, h]

/-- Settles O34: neither the engine's turn nor any event of an idle block reads the latch. -/
theorem idleStepDoesNotReadLatch : Obligations.IdleStepDoesNotReadLatch := by
  intro s l hidle
  by_cases hnil : s.inputs = []
  · rw [step_of_no_event hnil, step_of_no_event (s := { s with latch := l }) hnil]
    exact latchUnread_engineTurn hidle l
  · obtain ⟨e, rest, hi⟩ := List.exists_cons_of_ne_nil hnil
    rw [step_of_event hi, step_of_event (s := { s with latch := l }) hi]
    exact latchUnread_runEvent (s := { s with inputs := rest }) hidle e l

end Sys2Proof.Machine
end

section
/-!
Buffer memory: every step keeps it canonical and in range (20_memory R60, R65), the engine reads its source window and
writes its destination window alone (R64, R65), and what a host access reads, writes and meets (R61 to R63, R81, R82).
-/

namespace Sys2Proof.Machine

/-! ### What a step leaves in memory (20_memory R60, R65) -/

/-- Settles O45: memory after a step is empty or one store to memory before it. -/
theorem stepKeepsMemoryCanonical : Obligations.StepKeepsMemoryCanonical := by
  intro s t hwf h
  obtain ⟨_, hmem | ⟨a, bs, hmem, _⟩⟩ := step_mem h
  · rw [hmem]
    exact empty_wf
  · rw [hmem]
    exact storeBytes_wf hwf a bs

/-- Settles O46: the one store of a step ends below MEM_SIZE, which no step changes. -/
theorem stepKeepsMemoryInRange : Obligations.StepKeepsMemoryInRange := by
  intro s t hs h c hc
  obtain ⟨hparams, hmem | ⟨a, bs, hmem, hend⟩⟩ := step_mem h
  · simp [hmem] at hc
  · rw [hmem] at hc
    rw [hparams]
    rcases mem_storeBytes hc with hold | ⟨_, hlt⟩
    · exact hs c hold
    · rcases hend with rfl | hend
      · exact hs c hc
      · omega

/-! ### The engine's windows (20_memory R64, R65; 40_command R134) -/

/-- Settles O11: what a command leaves in memory is one store from L.DST of at most dstLen bytes. -/
theorem engineWritesOnlyTheDestinationWindow : Obligations.EngineWritesOnlyTheDestinationWindow := by
  intro i s t h a ha
  obtain ⟨bs, hmem, hlen, _⟩ := exec_mem h
  rw [hmem]
  exact byteAt_storeBytes_outside (by omega)

theorem engineReads_of_unwritten {m : Memory} {as : List Nat} {a : Nat} (ha : a ∈ as) (hn : byteAt m a = none) :
    engineReads m as = .error .uninit := by
  cases hr : engineReads m as with
  | error e => rw [(engineReads_error hr).1]
  | ok bs =>
    have hmem : byteAt m a ∈ bs.map some := engineReads_ok.mp hr ▸ List.mem_map_of_mem ha
    simp [hn] at hmem

theorem readWindow_of_unwritten {m : Memory} {a n j : Nat} (hj : j < n) (hn : byteAt m (a + j) = none) :
    readWindow m a n = .error .uninit :=
  engineReads_of_unwritten (List.mem_range'_1.mpr ⟨by omega, by omega⟩) hn

theorem tileElements_written {m : Memory} {src : Nat} {ks : List (Option Nat)} {es : List Int}
    (h : tileElements m src ks = .ok es) {j : Nat} (hj : some j ∈ ks) : byteAt m (src + j) ≠ none := by
  induction ks generalizing es with
  | nil => cases hj
  | cons k ks ih =>
    obtain ⟨e, hfirst, hrest⟩ := bind_eq_ok.mp h
    obtain ⟨es', hes, _⟩ := bind_eq_ok.mp hrest
    rcases List.mem_cons.mp hj with rfl | hj
    · obtain ⟨b, hb, _⟩ := bind_eq_ok.mp hfirst
      simp [engineRead_ok.mp hb]
    · exact ih hes hj

theorem tileElements_of_unwritten {m : Memory} {src j : Nat} {ks : List (Option Nat)} (hj : some j ∈ ks)
    (hn : byteAt m (src + j) = none) : tileElements m src ks = .error .uninit := by
  cases hr : tileElements m src ks with
  | error e => rw [(tileElements_stop hr).1]
  | ok es => exact absurd hn (tileElements_written hr hj)

/-- The tiles cover the plane (43_tiler R186). -/
theorem some_mem_tileIndices {w h j : Nat} (hj : j < w * h) : some j ∈ tileIndices w h := by
  rw [Nat.mul_comm] at hj
  obtain ⟨y, x, hy, hx, rfl⟩ := grid_index hj
  refine List.mem_of_getElem? (i := 64 * (y / 8 * ceil8 w + x / 8) + (8 * (y % 8) + x % 8)) ?_
  rw [tileIndices_getElem? (div8_lt_ceil8 hx) (div8_lt_ceil8 hy) (by omega) (by omega), Nat.div_add_mod,
    Nat.div_add_mod, if_pos ⟨hx, hy⟩]

/-- Every sample of a chroma plane is the nearest one of some sample of the full plane (42_subsample R174). -/
theorem mem_upsampleIndices_of_lt {w h k : Nat} (hk : k < halfDim w * halfDim h) : k ∈ upsampleIndices w h := by
  rw [Nat.mul_comm] at hk
  obtain ⟨j, i, hj, hi, rfl⟩ := grid_index hk
  simp only [halfDim] at hi hj
  refine List.mem_of_getElem? (i := 2 * j * w + 2 * i) ?_
  rw [upsampleIndices_getElem? (by omega) (by omega), halfDim]
  congr 3 <;> omega

theorem chromaEmpty_of_lt {w h k : Nat} (hk : k < halfDim w * halfDim h) : chromaEmpty w h = false := by
  rw [Bool.eq_false_iff, Ne, chromaEmpty_iff]
  rintro (h0 | h0) <;> simp [halfDim, h0] at hk

/-- The commands whose body reads every byte of its source window. -/
def readsWholeSource : List Instr :=
  [.colorFwd, .tile, .fdct, .quant, .huffEnc, .compress, .colorInv, .upsample, .idct, .dequant]

theorem bodyOf_of_unwritten {i : Instr} {p : Params} {l : Latch} {m : Memory} {j : Nat} (hi : i ∈ readsWholeSource)
    (hj : j < srcLen i l) (hn : byteAt m (l.src + j) = none) : bodyOf i p l m = .error .uninit := by
  have hwindow := readWindow_of_unwritten hj hn
  cases i with
  | colorFwd | fdct | quant | huffEnc | compress | colorInv | idct | dequant =>
    exact bind_eq_error.mpr (.inl hwindow)
  | tile => exact bind_eq_error.mpr (.inl (tileElements_of_unwritten (some_mem_tileIndices hj) hn))
  | upsample =>
    simp only [bodyOf, bodyUpsample, chromaEmpty_of_lt hj, Bool.false_eq_true, if_false]
    exact bind_eq_error.mpr
      (.inl (engineReads_of_unwritten (List.mem_map_of_mem (mem_upsampleIndices_of_lt hj)) hn))
  | nop | subsample | untile | huffDec | decompress => simp [readsWholeSource] at hi

/-- Settles O31: the body of each of these commands reads the byte that holds no value. -/
theorem unwrittenSourceByteStops : Obligations.UnwrittenSourceByteStops := by
  intro i s hi hp hw
  simp only [Written, not_forall, Option.not_isSome_iff_eq_none] at hw
  obtain ⟨j, hj, hn⟩ := hw
  exact exec_of_uninit hp (bodyOf_of_unwritten hi hj hn)

/-! ### One buffer access as a step (20_memory R61) -/

/-- `s` after its next event, a buffer write of `v` that is legal and meets no window. -/
def State.hostWrote (s : State) (a n : Nat) (v : Word) (rest : List Event) : State :=
  { s with mem := storeBytes s.mem a (beBytes n v.toNat), inputs := rest,
           response := { data := 0, busError := false } }

theorem step_memWrite {s : State} {a n : Nat} {v : Word} {rest : List Event} (hi : s.inputs = .memWrite a n v :: rest)
    (hn : n = 1 ∨ n = 2 ∨ n = 4) (ha : a + n ≤ s.params.memSize) :
    step s = if racesWith s a n then .fault .hostRace else .next (s.hostWrote a n v rest) := by
  rw [step_of_event hi]
  simp only [runEvent, hostEvent, hostMemWrite, memAccessLegal_iff.mpr ⟨hn, ha⟩, if_true]
  rfl

theorem step_memRead {s : State} {a n : Nat} {rest : List Event} (hi : s.inputs = .memRead a n :: rest)
    (hn : n = 1 ∨ n = 2 ∨ n = 4) (ha : a + n ≤ s.params.memSize) :
    step s = .next (answer (BitVec.ofNat 32 (beValue (hostBytes s a n)))
      { s with inputs := rest, draws := s.draws + n }) := by
  rw [step_of_event hi]
  simp only [runEvent, hostEvent, hostMemRead, memAccessLegal_iff.mpr ⟨hn, ha⟩, if_true]
  rfl

theorem hostWrote_outside (s : State) {a n x : Nat} (v : Word) (rest : List Event) (hx : x < a ∨ a + n ≤ x) :
    byteAt (s.hostWrote a n v rest).mem x = byteAt s.mem x :=
  byteAt_storeBytes_outside (by simpa using hx)

theorem hostWrote_inside (s : State) {a n j : Nat} (v : Word) (rest : List Event) (hj : j < n) :
    byteAt (s.hostWrote a n v rest).mem (a + j) = (beBytes n v.toNat)[j]? := by
  have hlen : j < (beBytes n v.toNat).length := by simpa using hj
  rw [State.hostWrote, byteAt_storeBytes_inside hlen, List.getElem?_eq_getElem hlen]

/-! ### Big-endian values (20_memory R63) -/

theorem beBytes_getElem? {n j : Nat} (v : Nat) (hj : j < n) :
    (beBytes n v)[j]? = some (BitVec.ofNat 8 (v / 256 ^ (n - 1 - j))) := by
  simp [beBytes, List.getElem?_range hj]

/-- Bytes k to k+m-1 of a value are the bytes of what is left of it above its last n-k-m bytes. -/
theorem beBytes_getElem?_shift {n k m j : Nat} (v : Nat) (hkm : k + m ≤ n) (hj : j < m) :
    (beBytes n v)[k + j]? = (beBytes m (v / 256 ^ (n - k - m)))[j]? := by
  rw [beBytes_getElem? v (by omega), beBytes_getElem? _ hj, Nat.div_div_eq_div_mul, ← Nat.pow_add]
  congr 4
  omega

/-- An idle block answers the bytes memory holds (20_memory R65). -/
theorem hostBytes_of_idle {s : State} {a : Nat} {bs : List Byte} (hidle : s.status.busy = false)
    (h : ∀ j, j < bs.length → byteAt s.mem (a + j) = bs[j]?) : hostBytes s a bs.length = bs := by
  refine List.ext_getElem (by simp [hostBytes]) fun j _ hj => ?_
  simp [hostBytes, hostByte, inLiveDst_of_idle hidle, h j hj, List.getElem?_eq_getElem hj]

/-- A narrower read after a write answers its part of the written value (20_memory R63). -/
theorem beValue_hostBytes_hostWrote {s : State} {a n k m : Nat} (v : Word) (rest : List Event)
    (hidle : s.status.busy = false) (hkm : k + m ≤ n) :
    beValue (hostBytes (s.hostWrote a n v rest) (a + k) m) = v.toNat / 256 ^ (n - k - m) % 256 ^ m := by
  have hbytes : hostBytes (s.hostWrote a n v rest) (a + k) m = beBytes m (v.toNat / 256 ^ (n - k - m)) := by
    have hread := hostBytes_of_idle (s := s.hostWrote a n v rest) (a := a + k)
      (bs := beBytes m (v.toNat / 256 ^ (n - k - m))) hidle fun j hj => by
        rw [beBytes_length] at hj
        rw [Nat.add_assoc, hostWrote_inside s v rest (by omega), beBytes_getElem?_shift _ hkm hj]
    rwa [beBytes_length] at hread
  rw [hbytes, beValue_beBytes]

/-- Settles O54: a write that meets no window is one store, and a read of an idle block answers what memory holds. -/
theorem hostWriteThenReadIsBigEndian : Obligations.HostWriteThenReadIsBigEndian := by
  refine ⟨fun s a n k m v rest hidle hn hm hkm ha hi => ?_, fun s a n rest hn ha hi => ?_,
    fun s t a n v rest hn ha hi h => ?_⟩
  · have hwrite := step_memWrite hi hn ha
    rw [racesWith_of_idle hidle] at hwrite
    have hread := step_memRead (s := s.hostWrote a n v (.memRead (a + k) m :: rest)) rfl hm
      (show a + k + m ≤ s.params.memSize by omega)
    rw [beValue_hostBytes_hostWrote v _ hidle hkm] at hread
    exact ⟨_, _, hwrite, hread, rfl, fun x hx => hostWrote_outside s v _ hx,
      fun j hj => hostWrote_inside s v _ hj, rfl⟩
  · exact ⟨_, step_memRead hi hn ha, rfl⟩
  · rw [step_memWrite hi hn ha] at h
    split_ifs at h
    cases h
    exact ⟨rfl, fun x hx => hostWrote_outside s v _ hx, fun j hj => hostWrote_inside s v _ hj⟩

/-! ### A host write while a command runs (20_memory R81, R82) -/

theorem inFlight_of_busy {s : State} {i : Instr} (hb : s.status.busy = true)
    (hd : decode s.latch.word.toWord = .ok i) : inFlight s = some i := by
  rw [inFlight, if_pos hb, hd]
  rfl

/-- A write races exactly when it touches a byte of either window of the command in flight (20_memory R82). -/
theorem racesWith_iff {s : State} {i : Instr} {a n : Nat} (hf : inFlight s = some i) :
    racesWith s a n = true ↔ ∃ x, (a ≤ x ∧ x < a + n) ∧
      ((s.latch.src ≤ x ∧ x < s.latch.src + srcLen i s.latch) ∨
       (s.latch.dst ≤ x ∧ x < s.latch.dst + dstLen i s.latch)) := by
  simp [racesWith, inLiveSrc, inLiveDst, hf, inWindow, List.any_eq_true, List.mem_range'_1]

/-- Settles O55: the byte in the window makes the write a race. -/
theorem hostWriteIntoLiveWindowIsRace : Obligations.HostWriteIntoLiveWindowIsRace := by
  intro s i a n x v rest hb hd hi hn ha hax hxa hw
  have hrace := (racesWith_iff (inFlight_of_busy hb hd)).mpr ⟨x, ⟨hax, hxa⟩, hw⟩
  rw [step_memWrite hi hn ha, if_pos hrace]

theorem byteAt_storeBytes_congr {m m' : Memory} {x : Nat} (a : Nat) (bs : List Byte) (h : byteAt m x = byteAt m' x) :
    byteAt (storeBytes m a bs) x = byteAt (storeBytes m' a bs) x := by
  rw [byteAt_storeBytes, byteAt_storeBytes, h]

/-- What a body error stores to the destination window does not depend on memory or on the bus. -/
theorem afterBodyError_store (i : Instr) (s : State) :
    ∃ bs : List Byte, bs.length ≤ dstLen i s.latch ∧ ∀ (m : Memory) (r : Response),
      afterBodyError i { s with mem := m, response := r } =
        { afterBodyError i s with mem := storeBytes m s.latch.dst bs, response := r } := by
  unfold afterBodyError
  split_ifs
  · exact ⟨freeBytes s.draws (min (dstLen i s.latch) (s.params.memSize - s.latch.dst)), by simp, fun m r => rfl⟩
  · exact ⟨[], by simp, fun m r => rfl⟩

/-- A command over a memory with the same source window stores the same bytes to its destination window and has the same
effect on everything else (40_command R133). -/
theorem exec_of_sameSource {i : Instr} {s t : State} {m : Memory} (r : Response) (h : exec i s = .next t)
    (hsrc : ∀ x, s.latch.src ≤ x → x < s.latch.src + srcLen i s.latch → byteAt s.mem x = byteAt m x) :
    ∃ bs : List Byte, bs.length ≤ dstLen i s.latch ∧ t.mem = storeBytes s.mem s.latch.dst bs ∧
      exec i { s with mem := m, response := r } =
        .next { t with mem := storeBytes m s.latch.dst bs, response := r } := by
  have hbody := bodyOf_congr (p := s.params) hsrc
  cases exec_next h with
  | checkFailed c hc =>
    exact ⟨[], by simp, by simp, exec_of_startCheck (s := { s with mem := m, response := r }) hc⟩
  | succeeded res hp hb =>
    exact ⟨res.out, (bodyOf_ok hb).1, rfl,
      exec_of_ok (s := { s with mem := m, response := r }) hp (hbody ▸ hb)⟩
  | bodyFailed c hp hb _ =>
    obtain ⟨bs, hlen, hstore⟩ := afterBodyError_store i s
    refine ⟨bs, hlen, congrArg State.mem (hstore s.mem s.response), ?_⟩
    rw [exec_of_raise (s := { s with mem := m, response := r }) hp (hbody ▸ hb), hstore]
    rfl

/-- A completion event of a busy block runs the latched command (40_command R137). -/
theorem step_complete {s : State} {i : Instr} (rest : List Event) (hb : s.status.busy = true)
    (hd : decode s.latch.word.toWord = .ok i) :
    step { s with inputs := .complete :: rest } = exec i { s with inputs := rest } := by
  simp only [step, runEvent, engineTurn, complete, hb, hd, if_true]

/-- Settles O56: the write leaves the source window alone, and the command's store leaves the written bytes alone. -/
theorem hostWriteOutsideWindowsIsIndependent : Obligations.HostWriteOutsideWindowsIsIndependent := by
  intro s t i a n v hb hd hn ha hw h
  have halone : exec i { s with inputs := [] } = .next t := (step_complete [] hb hd).symm.trans h
  have hrace : ¬ racesWith s a n = true := by
    rw [racesWith_iff (inFlight_of_busy hb hd)]
    rintro ⟨x, ⟨hax, hxa⟩, hx⟩
    exact hx.elim (hw x hax hxa).1 (hw x hax hxa).2
  have hwrite : step { s with inputs := [.memWrite a n v, .complete] } = .next (s.hostWrote a n v [.complete]) :=
    (step_memWrite (s := { s with inputs := [.memWrite a n v, .complete] }) rfl hn ha).trans (if_neg hrace)
  have hsource : ∀ x, s.latch.src ≤ x → x < s.latch.src + srcLen i s.latch →
      byteAt s.mem x = byteAt (s.hostWrote a n v []).mem x := by
    intro x hsx hxs
    refine (hostWrote_outside s v [] ?_).symm
    by_contra hx
    exact (hw x (by omega) (by omega)).1 ⟨hsx, hxs⟩
  obtain ⟨bs, (hlen : bs.length ≤ dstLen i s.latch), hmem, hexec⟩ :=
    exec_of_sameSource { data := 0, busError := false } halone hsource
  refine ⟨_, _, hwrite, (step_complete (s := s.hostWrote a n v []) [] hb hd).trans hexec, rfl, rfl, rfl, rfl,
    fun x hx => ?_, fun j hj => ?_⟩
  · rw [hmem]
    exact byteAt_storeBytes_congr _ bs (hostWrote_outside s v [] hx)
  · have hdst := (hw (a + j) (by omega) (by omega)).2
    refine (byteAt_storeBytes_outside ?_).trans (hostWrote_inside s v [] hj)
    change a + j < s.latch.dst ∨ s.latch.dst + bs.length ≤ a + j
    omega

/-! ### The host's own address map (20_memory R62) -/

theorem route_register {p : Params} {off : Nat} (h : off < 4096) : route p (p.regBase + off) = .register off := by
  rw [route, if_pos (by omega), Nat.add_sub_cancel_left]

theorem route_buffer {p : Params} {a : Nat}
    (h : ¬ (p.regBase ≤ p.memBase + a ∧ p.memBase + a < p.regBase + 4096)) :
    route p (p.memBase + a) = .buffer a := by
  rw [route, if_neg h, if_pos (by omega), Nat.add_sub_cancel_left]

/-- Settles O57: an access at a host address is the access its route leads to. -/
theorem hostAddressesReachBothSpaces : Obligations.HostAddressesReachBothSpaces := by
  refine fun s n v rest => ⟨fun a h => ⟨?_, ?_⟩, fun off h => ⟨?_, ?_⟩⟩ <;>
    simp only [step, runEvent, hostEvent]
  · simp only [hostBusWrite, route_buffer h]
  · simp only [hostBusRead, route_buffer h]
  · simp only [hostBusWrite, route_register h]
  · simp only [hostBusRead, route_register h]

end Sys2Proof.Machine
end

section
/-!
Command words: the opcode map row by row, the encoder as the decoder's inverse (30_encoding R91, R93), and the words that
name no command (30_encoding R95).
-/

namespace Sys2Proof

/-! ### The commands and their words (30_encoding R93) -/

/-- The family RoundTrip, of every command. -/
theorem Laws.RoundTrip.all : ∀ i : Instr, Statement i
  | .nop => nop
  | .colorFwd => colorFwd
  | .subsample => subsample
  | .tile => tile
  | .fdct => fdct
  | .quant => quant
  | .huffEnc => huffEnc
  | .compress => compress
  | .colorInv => colorInv
  | .upsample => upsample
  | .untile => untile
  | .idct => idct
  | .dequant => dequant
  | .huffDec => huffDec
  | .decompress => decompress

theorem Instr.mem_all (i : Instr) : i ∈ Instr.all :=
  List.contains_iff_mem.mp (Laws.RoundTrip.all i).1

theorem decode_encode (i : Instr) : decode (encode i) = .ok i := (Laws.RoundTrip.all i).2.2

theorem wellFormed_ofWord_encode (i : Instr) : (CmdWord.ofWord (encode i)).wellFormed = true :=
  (Laws.RoundTrip.all i).2.1

/-- Each row holds its command's word and the mask that keeps the whole word. -/
theorem opcodeMap_eq_map : opcodeMap = Instr.all.map fun i => ⟨i, 0xFFFFFFFF, encode i⟩ := by decide

theorem OpcodeRow.selects_iff_of_mem {r : OpcodeRow} {w : Word} (hr : r ∈ opcodeMap) :
    r.selects w = true ↔ w = encode r.instr := by
  rw [opcodeMap_eq_map] at hr
  obtain ⟨i, -, rfl⟩ := List.mem_map.mp hr
  rw [OpcodeRow.selects, and_fullMask, beq_iff_eq]

/-- The decoder reads a command from its encoding and from no other word. -/
theorem decode_eq_ok_iff {w : Word} {i : Instr} : decode w = .ok i ↔ w = encode i := by
  refine ⟨fun h => ?_, fun h => h ▸ decode_encode i⟩
  unfold decode at h
  split at h
  · next r hfind =>
    cases h
    have hsel : r.selects w = true := List.find?_some (p := fun r : OpcodeRow => r.selects w) hfind
    exact (OpcodeRow.selects_iff_of_mem (List.mem_of_find?_eq_some hfind)).mp hsel
  · split_ifs at h

/-- Settles O2: a word decodes to a command exactly when it is the command's encoding. -/
theorem decodeEncodeAgree : Obligations.DecodeEncodeAgree :=
  ⟨fun i _ => decode_encode i, fun _ _ => decode_eq_ok_iff.mp⟩

theorem mem_map_encode_iff {w : Word} {i : Instr} : (w, i) ∈ Instr.all.map (fun j => (encode j, j)) ↔ w = encode i := by
  simp [Instr.mem_all, eq_comm]

/-- Settles O1: the rows written out are the commands with their encodings. -/
theorem opcodeMapSelectsByWholeWord : Obligations.OpcodeMapSelectsByWholeWord :=
  fun _ _ => decode_eq_ok_iff.trans mem_map_encode_iff.symm

/-- Settles O4: five words, evaluated. -/
theorem sampleWordsDecode : Obligations.SampleWordsDecode := by
  unfold Obligations.SampleWordsDecode
  decide

/-! ### The words that name no command (30_encoding R95) -/

theorem CmdWord.wellFormed_eq_false_iff {c : CmdWord} :
    c.wellFormed = false ↔
      c.rsvd ≠ 0 ∨ (0x08 ≤ c.opcode.toNat ∧ c.opcode.toNat ≤ 0x10) ∨ 0x18 ≤ c.opcode.toNat := by
  simp only [CmdWord.wellFormed, CmdWord.reservedZero, CmdWord.opcodeAssigned, Bool.and_eq_false_iff,
    Bool.or_eq_false_iff, beq_eq_false_iff_ne, decide_eq_false_iff_not]
  exact or_congr_right (by omega)

/-- A word with an ill-formed field is rejected by the name of that field. -/
theorem decode_toWord_of_not_wellFormed {c : CmdWord} (h : c.wellFormed = false) :
    decode c.toWord = if c.rsvd = 0 then .error .opcodeUnassigned else .error .reservedNotZero := by
  have hnone : ∀ i, decode c.toWord ≠ .ok i := by
    intro i hi
    have hwf := wellFormed_ofWord_encode i
    rw [← decode_eq_ok_iff.mp hi, ofWord_toWord, h] at hwf
    cases hwf
  rw [decode_eq_error hnone, rsvd_toWord]

/-- Settles O3: a word is the word of its fields, and one of them is ill-formed. -/
theorem otherWordsAreRejectedByName : Obligations.OtherWordsAreRejectedByName := by
  intro w
  have hdecode (h : (CmdWord.ofWord w).wellFormed = false) := decode_toWord_of_not_wellFormed h
  rw [toWord_ofWord, CmdWord.wellFormed_eq_false_iff] at hdecode
  exact ⟨fun hrsvd => (hdecode (.inl hrsvd)).trans (if_neg hrsvd),
    fun hrsvd hop => (hdecode (.inr hop)).trans (if_pos hrsvd)⟩

end Sys2Proof

namespace Sys2Proof.Machine

theorem complete_of_not_wellFormed {s : State} (h : s.latch.word.wellFormed = false) : complete s = execIllegal s := by
  rw [complete, decode_toWord_of_not_wellFormed h]
  split_ifs <;> rfl

/-- Settles O8: the engine's turn decodes the latched word, which is ill-formed. -/
theorem illegalWordCompletesWithIllegalCmd : Obligations.IllegalWordCompletesWithIllegalCmd := by
  intro s hb hi hword
  rw [step_of_no_event hi, engineTurn, if_pos hb,
    complete_of_not_wellFormed (CmdWord.wellFormed_eq_false_iff.mpr hword)]
  rfl

end Sys2Proof.Machine
end

section
/-!
The life of a command: acceptance and refusal of a CMD write (40_command R131, R132), the completion of the latched
command (R137, R138), what it leaves unchanged (R139), and what its result depends on (R133).
-/

namespace Sys2Proof.Machine

/-! ### The CMD write (40_command R131, R132) -/

theorem writeReg_cmd_of_idle {s : State} (h : s.status.busy = false) (v : Word) : writeReg .cmd v s = accept v s := by
  simp [writeReg, writeCmd, h]

theorem writeReg_cmd_of_busy {s : State} (h : s.status.busy = true) (v : Word) : writeReg .cmd v s = dropCommand s := by
  simp [writeReg, writeCmd, h]

/-- Settles O6: the write reaches CMD of an idle block, which accepts the word. -/
theorem cmdWriteWhileIdleIsAccepted : Obligations.CmdWriteWhileIdleIsAccepted := by
  intro s v rest hi hidle
  refine ⟨_, step_regWrite (r := .cmd) hi, ?_⟩
  rw [writeReg_cmd_of_idle (s := { s with inputs := rest }) hidle]
  exact ⟨rfl, rfl, rfl, rfl, rfl, rfl, rfl, rfl, rfl, rfl, rfl, rfl⟩

/-- Settles O7: the write reaches CMD of a busy block, which drops the word. -/
theorem cmdWriteWhileBusyIsDropped : Obligations.CmdWriteWhileBusyIsDropped := by
  intro s v rest hi hbusy
  rw [step_regWrite (r := .cmd) hi, writeReg_cmd_of_busy (s := { s with inputs := rest }) hbusy]
  rfl

/-! ### The engine's turn (40_command R137, R138) -/

theorem engineTurn_of_decode_ok {s : State} {i : Instr} (hb : s.status.busy = true)
    (hd : decode s.latch.word.toWord = .ok i) : engineTurn s = exec i s := by
  simp [engineTurn, complete, hb, hd]

theorem engineTurn_of_decode_error {s : State} {x : DecodeError} (hb : s.status.busy = true)
    (hd : decode s.latch.word.toWord = .error x) : engineTurn s = .next (completeFailure .illegalCmd s) := by
  simp [engineTurn, complete, execIllegal, hb, hd]

/-- Settles O5: either way the step is the engine's turn. -/
theorem stepRunsTheLatchedCommand : Obligations.StepRunsTheLatchedCommand := by
  intro s i hb hd
  refine ⟨fun hi => ?_, fun rest hi => ?_⟩
  · rw [step_of_no_event hi, engineTurn_of_decode_ok hb hd]
  · rw [step_of_event hi]
    exact engineTurn_of_decode_ok (s := { s with inputs := rest }) hb hd

theorem exec_of_written {i : Instr} {s : State} (h : Written s.mem s.latch.src (srcLen i s.latch)) :
    ∃ t, exec i s = .next t := by
  cases hexec : exec i s with
  | next t => exact ⟨t, rfl⟩
  | fault f =>
    obtain ⟨_, _, hbody, _⟩ := exec_fault hexec
    exact absurd hbody (bodyOf_ne_uninit h)
  | refused r => exact absurd hexec exec_not_refused

/-- Settles O30: the source window holds no unwritten byte to stop at, and an illegal word reads none. -/
theorem writtenSourceAlwaysCompletes : Obligations.WrittenSourceAlwaysCompletes := by
  refine ⟨fun i s => exec_of_written, fun s hb hi hw => ?_⟩
  rw [step_of_no_event hi]
  cases hd : decode s.latch.word.toWord with
  | ok i =>
    obtain ⟨t, ht⟩ := exec_of_written (hw i hd)
    obtain ⟨hbusy, hdone, hpend, _⟩ := everyCommandWritesCompletionFields i s t ht
    exact ⟨t, (engineTurn_of_decode_ok hb hd).trans ht, hbusy, hdone, hpend⟩
  | error x => exact ⟨_, engineTurn_of_decode_error hb hd, rfl, rfl, rfl⟩

/-! ### NOP (40_command R140) -/

/-- Settles O14: no start check applies to NOP, and its body answers no bytes. -/
theorem nopSucceedsFromEveryState : Obligations.NopSucceedsFromEveryState := by
  intro s
  have hpass : StartChecksPass s.params .nop s.latch := startChecks_eq_none.mp rfl
  exact exec_of_ok hpass rfl

/-! ### What a command leaves unchanged (40_command R137, R139) -/

/-- A command fails, or it is its body's success that completes. -/
theorem exec_fails_or_succeeds {i : Instr} {s t : State} (h : exec i s = .next t) :
    (∃ e, FailedFrom s t e) ∨ ∃ r, bodyOf i s.params s.latch s.mem = .ok r ∧ t = completeSuccess r s := by
  cases exec_next h with
  | checkFailed e _ => exact .inl ⟨e, failedFrom_completeFailure e s⟩
  | succeeded r _ hb => exact .inr ⟨r, hb, rfl⟩
  | bodyFailed e _ _ _ => exact .inl ⟨e, failedFrom_afterBodyError e i s⟩

/-- Settles O10: a failure writes no operand register, and a success those of the body's dimensions, which only
DECOMPRESS answers. -/
theorem commandsLeaveOtherRegistersUnchanged : Obligations.CommandsLeaveOtherRegistersUnchanged := by
  intro i s t h
  rcases exec_fails_or_succeeds h with ⟨e, hf⟩ | ⟨r, hb, rfl⟩
  · exact ⟨hf.cmd, hf.irqEn, hf.latch, hf.params, hf.response, hf.inputs, hf.epoch, by simp [hf.ops]⟩
  · refine ⟨rfl, rfl, rfl, rfl, rfl, rfl, rfl, Operands.withDims_count _ _, Operands.withDims_srcAddr _ _,
      Operands.withDims_srcLen _ _, Operands.withDims_dstAddr _ _, Operands.withDims_dstLimit _ _,
      Operands.withDims_qtable _ _, fun hi => ?_⟩
    have hdims := (bodyOf_ok hb).2.2 (hi.resolve_right (by simp))
    rw [completeSuccess_ops, hdims, Operands.withDims_none]

/-! ### What a result depends on (40_command R133) -/

/-- RESULT_LEN counts no byte that was not written, also where it is a free value (log 17). -/
theorem resultLenOf_le (n : Nat) : (resultLenOf n).toNat ≤ n := by
  unfold resultLenOf
  split_ifs with h
  · exact Nat.mod_le n _
  · omega

theorem byteAt_completeSuccess {r : Success} {s : State} {j : Nat} (h : j < r.out.length) :
    byteAt (completeSuccess r s).mem (s.latch.dst + j) = some r.out[j] :=
  byteAt_storeBytes_inside h

/-- Settles O32: StartChecks and the body answer the same for both blocks. -/
theorem resultDependsOnLatchAndSourceAlone : Obligations.ResultDependsOnLatchAndSourceAlone := by
  intro i s s' hparams hlatch hsrc
  have hpass (hp : StartChecksPass s.params i s.latch) : StartChecksPass s'.params i s'.latch := by
    rwa [hparams, hlatch]
  have hbody : bodyOf i s'.params s'.latch s'.mem = bodyOf i s.params s.latch s.mem := by
    rw [hparams, hlatch]
    exact bodyOf_congr hsrc
  refine ⟨fun f hf => ?_, fun t ht => ?_⟩
  · obtain ⟨rfl, hp, hb, _⟩ := exec_fault hf
    exact exec_of_uninit (hpass hp) (hbody.trans hb)
  · cases exec_next ht with
    | checkFailed e hc =>
      have hc' : startChecks s'.params i s'.latch = some e := by rwa [hparams, hlatch]
      exact ⟨_, exec_of_startCheck hc', rfl, rfl, rfl, nofun, fun _ => nofun⟩
    | bodyFailed e hp hb _ =>
      exact ⟨_, exec_of_raise (hpass hp) (hbody.trans hb), rfl, rfl, rfl, nofun, fun _ => nofun⟩
    | succeeded r hp hb =>
      refine ⟨_, exec_of_ok (hpass hp) (hbody.trans hb), rfl, rfl, rfl, fun _ j _ hj => ?_, fun hi _ => ?_⟩
      · have hlen : j < r.out.length := hj.trans_le (resultLenOf_le _)
        rw [byteAt_completeSuccess hlen, ← hlatch, byteAt_completeSuccess hlen]
      · subst hi
        obtain ⟨w, h, hdims⟩ := bodyDecompress_dims hb
        simp [hdims]

end Sys2Proof.Machine
end

section
/-!
The color converter: COLOR_FWD and COLOR_INV byte by byte (41_color R152, R154), and its exactness on grey (R155).
-/

namespace Sys2Proof.Machine

/-! ### A command that answers bytes alone (40_command R136, R137) -/

/-- A command whose body answers bytes writes them from L.DST on, and no operand register. -/
theorem exec_bytes {i : Instr} {s : State} {out : List Byte} (hp : StartChecksPass s.params i s.latch)
    (hb : bodyOf i s.params s.latch s.mem = .ok (Success.bytes out)) :
    ∃ t, exec i s = .next t ∧ SucceededFrom s t out.length ∧ t.ops = s.ops ∧ BytesAt t.mem s.latch.dst out :=
  ⟨_, exec_of_ok hp hb, succeededFrom_completeSuccess _ s, rfl, bytesAt_storeBytes _ _ _⟩

/-! ### The Image to its planar triple (41_color R151, R152) -/

/-- Pixel `p` of the Image with bytes `img`, converted. -/
def fwdPixel (img : Nat → Byte) (p : Nat) : Byte × Byte × Byte :=
  colorFwdPx (img (3 * p)) (img (3 * p + 1)) (img (3 * p + 2))

/-- The planar triple of an Image given byte by byte, plane after plane. -/
theorem colorFwd_range_map (n : Nat) (img : Nat → Byte) : colorFwd ((List.range (3 * n)).map img) =
    (List.range n).map (fun p => (fwdPixel img p).1) ++
      ((List.range n).map (fun p => (fwdPixel img p).2.1) ++ (List.range n).map (fun p => (fwdPixel img p).2.2)) := by
  simp [colorFwd, colorFwdPlanes, pixelsOf_range_map, fwdPixel, Function.comp_def]

/-- Settles O15: the Image is read byte by byte, and entry `p` of each plane is a component of its pixel `p`. -/
theorem colorFwdWritesPlanarTriple : Obligations.ColorFwdWritesPlanarTriple := by
  intro s img hp hsrc
  have hb : bodyOf .colorFwd s.params s.latch s.mem =
      .ok (Success.bytes (colorFwd ((List.range (3 * (s.latch.w * s.latch.h))).map img))) := by
    simp only [bodyOf, bodyColorFwd, readWindow_eq_map hsrc, ok_bind]
    rfl
  obtain ⟨t, ht, hsucc, hops, hbytes⟩ := exec_bytes hp hb
  rw [colorFwd_length, List.length_map, List.length_range, Nat.mul_div_cancel_left _ (by decide)] at hsucc
  rw [colorFwd_range_map] at hbytes
  refine ⟨t, ht, hsucc, hops, fun p hlt => ⟨hbytes _ _ ?_, hbytes _ _ ?_, hbytes _ _ ?_⟩⟩
  · simp [List.getElem?_append, hlt, fwdPixel]
  · simp [List.getElem?_append, hlt, fwdPixel]
  · simp [hlt, fwdPixel, Nat.two_mul, Nat.add_assoc]

/-! ### The planar triple to its Image (41_color R153, R154) -/

/-- Two windows, one behind the other, are read as one. -/
theorem readWindow_append {m : Memory} {a n k : Nat} {xs ys : List Byte} (hx : readWindow m a n = .ok xs)
    (hy : readWindow m (a + n) k = .ok ys) : readWindow m a (n + k) = .ok (xs ++ ys) := by
  simp only [readWindow, engineReads_ok] at hx hy ⊢
  rw [← List.range'_append_1, List.map_append, List.map_append, hx, hy]

/-- A planar triple given sample by sample is read as its three planes. -/
theorem readWindow_triple {m : Memory} {a n : Nat} {y cb cr : Nat → Byte}
    (h : ∀ p, p < n → byteAt m (a + p) = some (y p) ∧ byteAt m (a + (n + p)) = some (cb p) ∧
      byteAt m (a + (2 * n + p)) = some (cr p)) :
    readWindow m a (3 * n) =
      .ok ((List.range n).map y ++ ((List.range n).map cb ++ (List.range n).map cr)) := by
  have hy : readWindow m a n = .ok ((List.range n).map y) := readWindow_eq_map fun p hp => (h p hp).1
  have hcb : readWindow m (a + n) n = .ok ((List.range n).map cb) := readWindow_eq_map fun p hp => by
    rw [Nat.add_assoc]
    exact (h p hp).2.1
  have hcr : readWindow m (a + n + n) n = .ok ((List.range n).map cr) := readWindow_eq_map fun p hp => by
    rw [show a + n + n + p = a + (2 * n + p) by omega]
    exact (h p hp).2.2
  rw [show 3 * n = n + (n + n) by omega]
  exact readWindow_append hy (readWindow_append hcb hcr)

/-- COLOR_INV cuts the triple where its planes meet (20_memory R70). -/
theorem colorInv_append {n : Nat} {ys cbs : List Byte} (crs : List Byte) (hy : ys.length = n) (hb : cbs.length = n) :
    colorInv n (ys ++ (cbs ++ crs)) = colorInvPlanes ys cbs crs := by
  have hcr : (ys ++ (cbs ++ crs)).drop (2 * n) = crs := by
    rw [← List.append_assoc]
    exact List.drop_left' (by rw [List.length_append]; omega)
  rw [colorInv, hcr, List.take_left' hy, List.drop_left' hy, List.take_left' hb]

/-- Settles O16: the triple is read plane by plane, and the Image of three planes is known pixel by pixel. -/
theorem colorInvWritesImage : Obligations.ColorInvWritesImage := by
  intro s y cb cr hp hsrc
  have hlen (f : Nat → Byte) : ((List.range (s.latch.w * s.latch.h)).map f).length = s.latch.w * s.latch.h := by simp
  have hb : bodyOf .colorInv s.params s.latch s.mem = .ok (Success.bytes (colorInvPlanes
      ((List.range (s.latch.w * s.latch.h)).map y) ((List.range (s.latch.w * s.latch.h)).map cb)
      ((List.range (s.latch.w * s.latch.h)).map cr))) := by
    rw [← colorInv_append _ (hlen y) (hlen cb)]
    simp only [bodyOf, bodyColorInv, readWindow_triple hsrc, ok_bind]
    rfl
  obtain ⟨t, ht, hsucc, hops, hbytes⟩ := exec_bytes hp hb
  rw [colorInvPlanes_length (hlen y) (hlen cb) (hlen cr)] at hsucc
  refine ⟨t, ht, hsucc, hops, fun p hlt => ?_⟩
  have sample (f : Nat → Byte) : ((List.range (s.latch.w * s.latch.h)).map f)[p]? = some (f p) := by simp [hlt]
  obtain ⟨hred, hgreen, hblue⟩ := colorInvPlanes_getElem? (sample y) (sample cb) (sample cr)
  exact ⟨hbytes _ _ hred, hbytes _ _ hgreen, hbytes _ _ hblue⟩

/-! ### An exact quotient (00_scope R14) -/

/-- A quotient that is exact is not rounded. -/
theorem divRoundHA_natCast_mul (n : Nat) {d : Nat} (hd : 1 ≤ d) : divRoundHA ((n * d : Nat) : Int) d = n := by
  rw [divRoundHA_natCast, show 2 * (n * d) + d = d + 2 * d * n by ring, Nat.add_mul_div_left _ _ (by omega),
    Nat.div_eq_of_lt (by omega), Nat.zero_add]

end Sys2Proof.Machine

namespace Sys2Proof.F64

/-! ### A zero added to a natural number that fits the significand (00_scope R12, R13) -/

/-- The number `n`, its mantissa moved up by `k` bits. -/
def shifted (n k : Nat) : F64 := { man := ((n * 2 ^ k : Nat) : Int), exp := -(k : Int) }

/-- Only zeros of the shift do not fit. -/
theorem excessBits_mul_two_pow_le {n : Nat} (hn : n < 2 ^ 53) (k : Nat) : excessBits (n * 2 ^ k) ≤ k := by
  rcases Nat.eq_zero_or_pos n with rfl | hpos
  · simp [excessBits]
  · have hlt : n * 2 ^ k < 2 ^ (53 + k) := by
      rw [Nat.pow_add]
      exact Nat.mul_lt_mul_of_pos_right hn (Nat.two_pow_pos k)
    have hlog := (Nat.log2_lt (by positivity)).mpr hlt
    simp only [excessBits]
    omega

/-- Rounding changes the shift at most, not the number. -/
theorem round_shifted {n : Nat} (hn : n < 2 ^ 53) (k : Nat) :
    ∃ j, round ((n * 2 ^ k : Nat) : Int) (-(k : Int)) = shifted n j := by
  obtain ⟨j, hj⟩ := Nat.exists_eq_add_of_le' (excessBits_mul_two_pow_le hn k)
  refine ⟨j, ?_⟩
  change F64.mk (shiftRNE (n * 2 ^ k) (excessBits (n * 2 ^ k)) : Nat) _ = _
  generalize excessBits (n * 2 ^ k) = e at hj
  have hsplit : n * 2 ^ k = n * 2 ^ j * 2 ^ e := by rw [hj, Nat.pow_add, Nat.mul_assoc]
  rw [shiftRNE_of_lt (by simp [hsplit]), hsplit, Nat.mul_div_cancel _ (Nat.two_pow_pos e), shifted, hj]
  congr 1
  omega

theorem add_shifted_of_man_zero {n : Nat} (hn : n < 2 ^ 53) (k : Nat) {z : F64} (hz : z.man = 0) :
    ∃ j, add (shifted n k) z = shifted n j := by
  obtain ⟨d, hd⟩ : ∃ d : Nat, min (-(k : Int)) z.exp = -((k + d : Nat) : Int) :=
    ⟨(-(k : Int) - min (-(k : Int)) z.exp).toNat, by omega⟩
  obtain ⟨j, hj⟩ := round_shifted hn (k + d)
  refine ⟨j, ?_⟩
  rw [← hj]
  simp only [add, manAt, hz, shifted, hd, pow2_eq, show (-(k : Int) - -((k + d : Nat) : Int)).toNat = d by omega]
  rw [Int.zero_mul, Int.add_zero, ← Nat.cast_mul, Nat.pow_add, Nat.mul_assoc]

theorem sub_shifted_of_man_zero {n : Nat} (hn : n < 2 ^ 53) (k : Nat) {z : F64} (hz : z.man = 0) :
    ∃ j, sub (shifted n k) z = shifted n j :=
  add_shifted_of_man_zero hn k (by simp [neg, hz])

theorem mul_man_of_man_zero (c : F64) {z : F64} (hz : z.man = 0) : (mul c z).man = 0 := by
  rw [mul, hz, Int.mul_zero]
  rfl

theorem roundHA_shifted (n k : Nat) : roundHA (shifted n k) = n := by
  rcases Nat.eq_zero_or_pos k with rfl | hk
  · simp [roundHA, shifted]
  · have hexp : ¬ 0 ≤ (shifted n k).exp := by simp only [shifted]; omega
    rw [roundHA, if_neg hexp]
    simp only [shifted, pow2_eq, Int.neg_neg, Int.toNat_natCast]
    exact Machine.divRoundHA_natCast_mul n Nat.one_le_two_pow

end Sys2Proof.F64

namespace Sys2Proof.Machine

open F64 (sub shifted add_shifted_of_man_zero sub_shifted_of_man_zero mul_man_of_man_zero roundHA_shifted)

/-! ### Grey pixels (41_color R155) -/

/-! The constants of each forward sum add up to 1 or to 0, but the rounding of the products does not cancel exactly: that
the sum stays within a half of its grey value is evaluated for the 256 bytes. -/

theorem channel_lumaOf_grey : ∀ v : Byte, channel (lumaOf v v v) = v := by decide +kernel

theorem channel_cbOf_grey : ∀ v : Byte, channel (cbOf v v v) = 128 := by decide +kernel

theorem channel_crOf_grey : ∀ v : Byte, channel (crOf v v v) = 128 := by decide +kernel

/-- A chroma sample of 128 leaves nothing to add to the luma. -/
theorem sub_c128_man : (sub (byteF64 128) c128).man = 0 := by decide

theorem byteF64_eq_shifted (v : Byte) : byteF64 v = shifted v.toNat 0 := by
  simp [byteF64, F64.ofInt, shifted]

theorem channel_shifted (v : Byte) (k : Nat) : channel (shifted v.toNat k) = v := by
  have hclamp : clamp (v.toNat : Int) 0 255 = v.toNat := by
    rw [clamp]
    omega
  rw [channel, roundHA_shifted, hclamp, byteOfInt]
  simp

/-- Every channel of a pixel without color is its luma, to which zeros are added. -/
theorem colorInvPx_grey (v : Byte) : colorInvPx v 128 128 = (v, v, v) := by
  have hv : v.toNat < 2 ^ 53 := by omega
  obtain ⟨r, hr⟩ := add_shifted_of_man_zero hv 0 (mul_man_of_man_zero c1402 sub_c128_man)
  obtain ⟨g, hg⟩ := sub_shifted_of_man_zero hv 0 (mul_man_of_man_zero c0344136 sub_c128_man)
  obtain ⟨g', hg'⟩ := sub_shifted_of_man_zero hv g (mul_man_of_man_zero c0714136 sub_c128_man)
  obtain ⟨b, hb⟩ := add_shifted_of_man_zero hv 0 (mul_man_of_man_zero c1772 sub_c128_man)
  simp only [colorInvPx, redOf, greenOf, blueOf, byteF64_eq_shifted v, hr, hg, hg', hb, channel_shifted]

/-- Settles O39: forward by the three sums of a grey pixel, back by its neutral chroma. -/
theorem greyPixelsAreExact : Obligations.GreyPixelsAreExact := by
  intro v
  refine ⟨?_, colorInvPx_grey v⟩
  rw [colorFwdPx, channel_lumaOf_grey, channel_cbOf_grey, channel_crOf_grey]

end Sys2Proof.Machine
end

section
/-!
The chroma subsampler: SUBSAMPLE and UPSAMPLE sample by sample (42_subsample R173, R175). The sampler and the tiler undone:
each sample of the plane is found where the other direction put it (R176, 43_tiler R190).
-/

namespace Sys2Proof.Machine

/-! ### A command that only moves bytes -/

/-- The bytes read at the offsets `ks` from `a` are those of memory, in order. -/
theorem getElem?_of_engineReads_offsets {m : Memory} {a : Nat} {ks : List Nat} {out : List Byte}
    (h : engineReads m (ks.map (a + ·)) = .ok out) {n k : Nat} (hk : ks[n]? = some k) : out[n]? = byteAt m (a + k) := by
  have hn := congrArg (·[n]?) (engineReads_ok.mp h)
  simp only [List.getElem?_map, hk, Option.map_some] at hn
  obtain ⟨b, hb, hbyte⟩ := Option.map_eq_some_iff.mp hn.symm
  rw [hb, hbyte]

/-- A command whose body answers the source bytes at the offsets `ks`: byte `n` of its output is the one at the `n`-th
offset. -/
theorem exec_moves {i : Instr} {s : State} {ks : List Nat} (hp : StartChecksPass s.params i s.latch)
    (hbody : bodyOf i s.params s.latch s.mem =
      engineReads s.mem (ks.map (s.latch.src + ·)) >>= fun out => pure (Success.bytes out))
    (hsrc : ∀ k ∈ ks, (byteAt s.mem (s.latch.src + k)).isSome) :
    ∃ t, exec i s = .next t ∧ SucceededFrom s t ks.length ∧ t.ops = s.ops ∧
      ∀ n k, ks[n]? = some k → byteAt t.mem (s.latch.dst + n) = byteAt s.mem (s.latch.src + k) := by
  obtain ⟨out, hout⟩ := engineReads_of_written (as := ks.map (s.latch.src + ·)) (by simpa using hsrc)
  have hlen : out.length = ks.length := by simpa using engineReads_length hout
  rw [hout, ok_bind, pure_eq_ok] at hbody
  obtain ⟨t, ht, hsucc, hops, hbytes⟩ := exec_bytes hp hbody
  refine ⟨t, ht, hlen ▸ hsucc, hops, fun n k hk => ?_⟩
  obtain ⟨b, hb⟩ := Option.isSome_iff_exists.mp (hsrc k (List.mem_of_getElem? hk))
  rw [hb]
  exact hbytes n b ((getElem?_of_engineReads_offsets hout hk).trans hb)

/-! ### SUBSAMPLE (42_subsample R172, R173) -/

/-- Settles O17: output sample `(i, j)` is the byte at its index in `subsampleIndices`. -/
theorem subsampleCopiesEvenSamples : Obligations.SubsampleCopiesEvenSamples := by
  intro s smp hp hsrc
  obtain ⟨t, ht, hsucc, hops, hmoved⟩ :=
    exec_moves (ks := subsampleIndices s.latch.w s.latch.h) hp rfl fun k hk => by
      obtain ⟨i, j, hi, hj, rfl⟩ := mem_subsampleIndices hk
      simp [hsrc i j hi hj]
  rw [subsampleIndices_length, Nat.mul_comm] at hsucc
  exact ⟨t, ht, hsucc, hops, fun i j hi hj =>
    (hmoved _ _ (subsampleIndices_getElem? hi hj)).trans (hsrc i j hi hj)⟩

/-! ### UPSAMPLE (42_subsample R174, R175) -/

theorem bodyOf_upsample_of_empty {p : Params} {l : Latch} {m : Memory} (hc : l.w / 2 = 0 ∨ l.h / 2 = 0) :
    bodyOf .upsample p l m = .ok (Success.bytes (List.replicate (l.w * l.h) 128)) :=
  if_pos (chromaEmpty_iff.mpr hc)

theorem bodyOf_upsample_of_nonempty {p : Params} {l : Latch} {m : Memory} (hc : ¬ (l.w / 2 = 0 ∨ l.h / 2 = 0)) :
    bodyOf .upsample p l m =
      engineReads m ((upsampleIndices l.w l.h).map (l.src + ·)) >>= fun out => pure (Success.bytes out) :=
  if_neg (mt chromaEmpty_iff.mp hc)

/-- Settles O18: an empty chroma plane gives 128 everywhere; else output sample `(x, y)` is the byte at its index in
`upsampleIndices`. -/
theorem upsampleReplicatesNearestSample : Obligations.UpsampleReplicatesNearestSample := by
  intro s smp hp hsrc
  by_cases hc : s.latch.w / 2 = 0 ∨ s.latch.h / 2 = 0
  · obtain ⟨t, ht, hsucc, hops, hbytes⟩ := exec_bytes hp (bodyOf_upsample_of_empty hc)
    rw [List.length_replicate] at hsucc
    refine ⟨t, ht, hsucc, hops, fun x y hx hy => ?_⟩
    have hlt : y * s.latch.w + x < s.latch.w * s.latch.h := Nat.mul_comm s.latch.h _ ▸ grid_index_lt hy hx
    rw [if_pos hc]
    exact hbytes _ _ (by simp [hlt])
  · obtain ⟨t, ht, hsucc, hops, hmoved⟩ := exec_moves hp (bodyOf_upsample_of_nonempty hc) fun k hk => by
      obtain ⟨x, y, _, _, rfl⟩ := mem_upsampleIndices hk
      simp [hsrc (min (x / 2) (s.latch.w / 2 - 1)) (min (y / 2) (s.latch.h / 2 - 1)) (by omega) (by omega)]
    rw [upsampleIndices_length, Nat.mul_comm] at hsucc
    refine ⟨t, ht, hsucc, hops, fun x y hx hy => ?_⟩
    rw [if_neg hc, hmoved _ _ (upsampleIndices_getElem? hx hy)]
    exact hsrc _ _ (by omega) (by omega)

/-! ### Upsampling undone (42_subsample R176) -/

theorem subsample_getElem? {plane : List Byte} {w h i j : Nat} (hi : i < w / 2) (hj : j < h / 2) :
    (subsample plane w h)[j * (w / 2) + i]? = some (plane.getD (2 * j * w + 2 * i) 0) := by
  rw [subsample, List.getElem?_map, subsampleIndices_getElem? hi hj, Option.map_some]

/-- The sample of the full plane at even coordinates is the sample of the chroma plane that it stands for. -/
theorem upsample_getElem?_even {plane : List Byte} {w h i j : Nat} (hi : i < w / 2) (hj : j < h / 2) :
    (upsample plane w h)[2 * j * w + 2 * i]? = some (plane.getD (j * (w / 2) + i) 0) := by
  have hc : ¬ (w / 2 = 0 ∨ h / 2 = 0) := by omega
  have hx : min (2 * i / 2) (w / 2 - 1) = i := by omega
  have hy : min (2 * j / 2) (h / 2 - 1) = j := by omega
  rw [upsample, if_neg (mt chromaEmpty_iff.mp hc), List.getElem?_map, upsampleIndices_getElem? (by omega) (by omega),
    hx, hy, Option.map_some]

theorem some_getD_of_lt {plane : List Byte} {k : Nat} (hk : k < plane.length) : some (plane.getD k 0) = plane[k]? := by
  rw [List.getD_eq_getElem _ _ hk, List.getElem?_eq_getElem hk]

theorem subsample_upsample {w h : Nat} {plane : List Byte} (hl : plane.length = (w / 2) * (h / 2)) :
    subsample (upsample plane w h) w h = plane := by
  rw [Nat.mul_comm] at hl
  refine grid_ext ((subsample_length _ w h).trans (Nat.mul_comm _ _)) hl fun j i hj hi => ?_
  rw [subsample_getElem? hi hj, List.getD_eq_getElem?_getD, upsample_getElem?_even hi hj, Option.getD_some]
  exact some_getD_of_lt (hl ▸ grid_index_lt hj hi)

/-! ### Tiling undone (43_tiler R190) -/

/-- A plane byte is in range: reassembly clamps it to itself. -/
@[simp] theorem sampleOf_toNat (b : Byte) : sampleOf (b.toNat : Int) = b := by
  have hclamp : clamp (b.toNat : Int) 0 255 = b.toNat := by
    rw [clamp]
    omega
  rw [sampleOf, hclamp, byteOfInt]
  simp

theorem untile_getElem? {els : List Int} {w h x y : Nat} (hx : x < w) (hy : y < h) :
    (untile els w h)[y * w + x]? =
      some (sampleOf (els.getD (64 * (y / 8 * ceil8 w + x / 8) + (8 * (y % 8) + x % 8)) 0)) := by
  rw [untile, List.getElem?_map, untileIndices_getElem? hx hy, Option.map_some]

/-- The element at which reassembly looks for sample `(x, y)` is that sample, not a cell past the plane. -/
theorem tile_getElem?_sample {plane : List Byte} {w h x y : Nat} (hx : x < w) (hy : y < h) :
    (tile plane w h)[64 * (y / 8 * ceil8 w + x / 8) + (8 * (y % 8) + x % 8)]? =
      some ((plane.getD (y * w + x) 0).toNat : Int) := by
  rw [tile, List.getElem?_map,
    tileIndices_getElem? (div8_lt_ceil8 hx) (div8_lt_ceil8 hy) (Nat.mod_lt _ (by decide)) (Nat.mod_lt _ (by decide)),
    Nat.div_add_mod, Nat.div_add_mod, if_pos ⟨hx, hy⟩, Option.map_some]

theorem untile_tile {w h : Nat} {plane : List Byte} (hl : plane.length = w * h) : untile (tile plane w h) w h = plane := by
  rw [Nat.mul_comm] at hl
  refine grid_ext ((untile_length _ w h).trans (Nat.mul_comm _ _)) hl fun y x hy hx => ?_
  rw [untile_getElem? hx hy, List.getD_eq_getElem?_getD, tile_getElem?_sample hx hy, Option.getD_some, sampleOf_toNat]
  exact some_getD_of_lt (hl ▸ grid_index_lt hy hx)

/-- Settles O38: each direction is undone sample by sample, at sizes of 0 as well. -/
theorem samplerAndTilerUndoThemselves : Obligations.SamplerAndTilerUndoThemselves :=
  ⟨fun _ _ _ _ _ => subsample_upsample, fun _ _ _ _ _ => untile_tile⟩

end Sys2Proof.Machine
end

section
/-!
The block tiler: TILE element by element (43_tiler R186, R187) and UNTILE sample by sample (R188, R189).
-/

namespace Sys2Proof.Machine

/-! ### A command that answers 32-bit values (20_memory R68, R69) -/

/-- A command whose body answers 32-bit values writes them from L.DST on, and no operand register. -/
theorem exec_words {i : Instr} {s : State} {ws : List Word} (hp : StartChecksPass s.params i s.latch)
    (hb : bodyOf i s.params s.latch s.mem = .ok (Success.bytes (wordsToBytes ws))) :
    ∃ t, exec i s = .next t ∧ SucceededFrom s t (4 * ws.length) ∧ t.ops = s.ops ∧
      ∀ n w, ws[n]? = some w → wordAt t.mem (s.latch.dst + 4 * n) = some w :=
  ⟨_, exec_of_ok hp hb, wordsToBytes_length ws ▸ succeededFrom_completeSuccess _ s, rfl,
    fun _ _ => wordAt_storeBytes_of_getElem?⟩

/-! ### TILE (43_tiler R186, R187) -/

/-- A sample as a block element is zero-extended. -/
theorem twos32_toNat (b : Byte) : twos32 (b.toNat : Int) = b.setWidth 32 := by
  rw [twos32, BitVec.ofInt_natCast, BitVec.ofNat_toNat]

/-- The sample at index `j` of the source plane; 0 stands in for a byte that holds no value. -/
def sourceSample (m : Memory) (src j : Nat) : Byte := (byteAt m (src + j)).getD 0

theorem sourceSample_eq {m : Memory} {src j : Nat} {b : Byte} (h : byteAt m (src + j) = some b) :
    sourceSample m src j = b := by
  rw [sourceSample, h, Option.getD_some]

/-- The block elements of TILE in order: the sample of a covered cell, 0 in any other. -/
def tileWords (m : Memory) (src w h : Nat) : List Word :=
  (tileIndices w h).map fun k => twos32 ((k.map fun j => ((sourceSample m src j).toNat : Int)).getD 0)

theorem tileWords_length (m : Memory) (src w h : Nat) : (tileWords m src w h).length = 64 * tiles w h := by
  rw [tileWords, List.length_map, tileIndices_length]

theorem tileWords_getElem? {m : Memory} {src w h tx ty r c : Nat} (htx : tx < ceil8 w) (hty : ty < ceil8 h) (hr : r < 8)
    (hc : c < 8) : (tileWords m src w h)[64 * (ty * ceil8 w + tx) + (8 * r + c)]? =
      some (if 8 * tx + c < w ∧ 8 * ty + r < h
            then (sourceSample m src ((8 * ty + r) * w + (8 * tx + c))).setWidth 32 else 0) := by
  rw [tileWords, List.getElem?_map, tileIndices_getElem? htx hty hr hc, Option.map_some]
  split_ifs
  · rw [Option.map_some, Option.getD_some, twos32_toNat]
  · rfl

/-- TILE of a plane whose samples all hold values. -/
theorem bodyOf_tile {p : Params} {l : Latch} {m : Memory}
    (h : ∀ x y, x < l.w → y < l.h → byteAt m (l.src + (y * l.w + x)) ≠ none) :
    bodyOf .tile p l m = .ok (Success.bytes (wordsToBytes (tileWords m l.src l.w l.h))) := by
  have hread : ∀ j, some j ∈ tileIndices l.w l.h → byteAt m (l.src + j) = some (sourceSample m l.src j) := by
    intro j hj
    obtain ⟨x, y, hx, hy, rfl⟩ := mem_tileIndices hj
    exact (Option.getD_of_ne_none (h x y hx hy) 0).symm
  simp only [bodyOf, bodyTile, tileElements_eq_map hread, ok_bind, pure_eq_ok, List.map_map, tileWords,
    Function.comp_def]

/-- Settles O19: element `(r, c)` of tile `(tx, ty)` is the cell at its index in `tileIndices`. -/
theorem tileWritesZeroPaddedBlocks : Obligations.TileWritesZeroPaddedBlocks := by
  intro s smp hp hsrc
  obtain ⟨t, ht, hsucc, hops, hwords⟩ := exec_words hp (bodyOf_tile fun x y hx hy => by simp [hsrc x y hx hy])
  rw [tileWords_length, ← Nat.mul_assoc] at hsucc
  refine ⟨t, ht, hsucc, hops, fun tx ty r c htx hty hr hc => ?_⟩
  have hcell := hwords _ _ (tileWords_getElem? htx hty hr hc)
  rw [Nat.mul_add, ← Nat.mul_assoc] at hcell
  rw [hcell]
  split_ifs with hin
  · rw [sourceSample_eq (hsrc _ _ hin.1 hin.2)]
  · rfl

/-! ### UNTILE (43_tiler R188, R189) -/

/-- Element `k` of the source block array; 0 stands in for one with a byte that holds no value. -/
def sourceElement (m : Memory) (src k : Nat) : Word := (wordAt m (src + 4 * k)).getD 0

/-- UNTILE of a block array whose elements inside the plane all hold values. -/
theorem bodyOf_untile {p : Params} {l : Latch} {m : Memory}
    (h : ∀ k ∈ untileIndices l.w l.h, wordAt m (l.src + 4 * k) ≠ none) :
    bodyOf .untile p l m = .ok (Success.bytes
      ((untileIndices l.w l.h).map fun k => sampleOf (sourceElement m l.src k).toInt)) := by
  have hread : ∀ k ∈ untileIndices l.w l.h, wordAt m (l.src + 4 * k) = some (sourceElement m l.src k) :=
    fun k hk => (Option.getD_of_ne_none (h k hk) 0).symm
  simp only [bodyOf, bodyUntile, untileSamples_eq_map hread, ok_bind, pure_eq_ok]

/-- Settles O20: sample `(x, y)` is the clamped element at its index in `untileIndices`. -/
theorem untileClampsElements : Obligations.UntileClampsElements := by
  intro s el hp hsrc
  have hel {x y : Nat} (hx : x < s.latch.w) (hy : y < s.latch.h) : wordAt s.mem (s.latch.src +
      4 * (64 * (y / 8 * ceil8 s.latch.w + x / 8) + (8 * (y % 8) + x % 8))) = some (el x y) := by
    rw [Nat.mul_add, ← Nat.mul_assoc]
    exact hsrc x y hx hy
  obtain ⟨t, ht, hsucc, hops, hbytes⟩ := exec_bytes hp (bodyOf_untile fun k hk => by
    obtain ⟨x, y, hx, hy, rfl⟩ := mem_untileIndices hk
    simp [hel hx hy])
  rw [List.length_map, untileIndices_length, Nat.mul_comm] at hsucc
  refine ⟨t, ht, hsucc, hops, fun x y hx hy => hbytes _ _ ?_⟩
  rw [List.getElem?_map, untileIndices_getElem? hx hy, Option.map_some, sourceElement, hel hx hy, Option.getD_some]
  rfl

end Sys2Proof.Machine
end

section
/-!
The block transforms: FDCT and IDCT block by block (44_transform R204, R205), from what every block command does.
-/

namespace Sys2Proof.Machine

/-! ### A command that answers blocks (20_memory R68) -/

/-- A command whose body answers blocks writes their elements from L.DST on, and no operand register. -/
theorem exec_blocks {i : Instr} {s : State} {bks : List Block} (hp : StartChecksPass s.params i s.latch)
    (hb : bodyOf i s.params s.latch s.mem = .ok (Success.bytes (bytesOfBlocks bks))) (hlen : ∀ b ∈ bks, b.length = 64) :
    ∃ t, exec i s = .next t ∧ SucceededFrom s t (256 * bks.length) ∧ t.ops = s.ops ∧
      ∀ k b e, bks[k]? = some b → e < 64 →
        wordAt t.mem (s.latch.dst + (256 * k + 4 * e)) = some (twos32 (b.getD e 0)) := by
  obtain ⟨t, ht, hsucc, hops, hwords⟩ := exec_words hp hb
  rw [List.length_map, flatten_length_of_blocks hlen, ← Nat.mul_assoc] at hsucc
  refine ⟨t, ht, hsucc, hops, fun k b e hk he => ?_⟩
  have heb : e < b.length := (hlen b (List.mem_of_getElem? hk)).symm ▸ he
  have hword := hwords (64 * k + e) (twos32 (b.getD e 0)) (by
    rw [List.getElem?_map, flatten_getElem?_of_blocks hlen hk he, List.getD_eq_getElem _ _ heb,
      List.getElem?_eq_getElem heb, Option.map_some])
  rwa [Nat.mul_add, ← Nat.mul_assoc] at hword

/-! ### A command that takes every block through a function (44_transform R204, R205, 45_quant R221, R223) -/

/-- Block `k` of a block array whose elements are the 32-bit values `el`. -/
def blockOf (el : Nat → Nat → Word) (k : Nat) : Block := (List.range 64).map fun e => (el k e).toInt

@[simp] theorem blockOf_length (el : Nat → Nat → Word) (k : Nat) : (blockOf el k).length = 64 := by simp [blockOf]

/-- A list given by index, cut into blocks. -/
theorem chunks64_range_map {α : Type} (n : Nat) (g : Nat → α) : chunks64 n ((List.range (64 * n)).map g) =
    (List.range n).map fun k => (List.range 64).map fun e => g (64 * k + e) := by
  induction n generalizing g with
  | zero => rfl
  | succ n ih =>
    have hrange : (List.range (64 * (n + 1))).map g =
        (List.range 64).map g ++ (List.range (64 * n)).map fun j => g (64 + j) := by
      rw [Nat.mul_succ, Nat.add_comm, List.range_add, List.map_append, List.map_map]
      rfl
    rw [hrange, chunks64, List.take_left' (by simp), List.drop_left' (by simp), ih, List.range_succ_eq_map (n := n)]
    simp only [List.map_cons, List.map_map, Function.comp_def, Nat.mul_zero, Nat.add_zero, Nat.mul_succ,
      Nat.add_comm, Nat.add_left_comm]

/-- The source window of a block command is read as its blocks. -/
theorem readWindow_blocks {m : Memory} {a n : Nat} {el : Nat → Nat → Word}
    (h : ∀ k e, k < n → e < 64 → wordAt m (a + (256 * k + 4 * e)) = some (el k e)) :
    ∃ bs, readWindow m a (256 * n) = .ok bs ∧ blocksOfBytes n bs = (List.range n).map (blockOf el) := by
  have hel : ∀ j, j < 64 * n → wordAt m (a + 4 * j) = some (el (j / 64) (j % 64)) := fun j hj => by
    rw [← h (j / 64) (j % 64) (by omega) (by omega)]
    congr 2
    omega
  obtain ⟨bs, hread, hwords⟩ := readWindow_words hel
  rw [← Nat.mul_assoc] at hread
  refine ⟨bs, hread, ?_⟩
  rw [blocksOfBytes, hwords, List.map_map, chunks64_range_map]
  refine List.map_congr_left fun k _ => List.map_congr_left fun e he => ?_
  have he : e < 64 := List.mem_range.mp he
  simp [sext32, Nat.mul_add_div, Nat.div_eq_of_lt he, Nat.mod_eq_of_lt he]

/-- A command that takes every block of its source by itself through `f`: the source is read as a whole before the first
byte is written, so the destination may be the source. -/
theorem exec_blockBody {i : Instr} {s : State} {f : Latch → Block → Block} {el : Nat → Nat → Word}
    (hp : StartChecksPass s.params i s.latch) (hbody : bodyOf i = blockBody f)
    (hlen : ∀ b, b.length = 64 → (f s.latch b).length = 64)
    (hsrc : ∀ k e, k < s.latch.count → e < 64 → wordAt s.mem (s.latch.src + (256 * k + 4 * e)) = some (el k e)) :
    ∃ t, exec i s = .next t ∧ SucceededFrom s t (256 * s.latch.count) ∧ t.ops = s.ops ∧
      ∀ k e, k < s.latch.count → e < 64 → wordAt t.mem (s.latch.dst + (256 * k + 4 * e)) =
        some (twos32 ((f s.latch (blockOf el k)).getD e 0)) := by
  obtain ⟨bs, hread, hblocks⟩ := readWindow_blocks hsrc
  have hout : bodyOf i s.params s.latch s.mem =
      .ok (Success.bytes (bytesOfBlocks ((List.range s.latch.count).map fun k => f s.latch (blockOf el k)))) := by
    rw [hbody, blockBody, hread, ok_bind, hblocks, List.map_map, pure_eq_ok]
    rfl
  obtain ⟨t, ht, hsucc, hops, hwords⟩ := exec_blocks hp hout (by simp [hlen])
  rw [List.length_map, List.length_range] at hsucc
  exact ⟨t, ht, hsucc, hops, fun k e hk he => hwords k _ e (by simp [hk]) he⟩

/-! ### FDCT and IDCT (44_transform R204, R205) -/

/-- Settles O21: each is the block command of its transform. -/
theorem transformsActBlockByBlock : Obligations.TransformsActBlockByBlock := by
  rintro s el i f (⟨rfl, rfl⟩ | ⟨rfl, rfl⟩) hp hsrc
  · exact exec_blockBody (f := fun _ => fdct) hp rfl (fun b _ => fdct_length b) hsrc
  · exact exec_blockBody (f := fun _ => idct) hp rfl (fun b _ => idct_length b) hsrc

end Sys2Proof.Machine
end

section
/-!
The quantizer: QUANT and DEQUANT element by element (45_quant R221 to R224), and what one loses and the other gives back
(R225).
-/

namespace Sys2Proof.Machine

/-! ### Every element with its own table entry (45_quant R221, R223) -/

/-- Element `e` of a block meets the latched table entry of its index. -/
theorem zipWith_blockOf_qt_getD (g : Int → Nat → Int) (el : Nat → Nat → Word) (l : Latch) (k : Nat) (e : Fin 64) :
    (List.zipWith g (blockOf el k) l.qt).getD e 0 = g (el k e).toInt l.ops.qtable[e].toNat := by
  have he : (e : Nat) < (List.zipWith g (blockOf el k) l.qt).length := by simp
  rw [List.getD_eq_getElem _ _ he, List.getElem_zipWith]
  simp [blockOf, Latch.qt]

/-- A command that combines every element of its source with the latched table entry of its index by `g`. -/
theorem exec_tableBody {i : Instr} {s : State} {g : Int → Nat → Int} {el : Nat → Nat → Word}
    (hp : StartChecksPass s.params i s.latch) (hbody : bodyOf i = blockBody fun l b => List.zipWith g b l.qt)
    (hsrc : ∀ k e, k < s.latch.count → e < 64 → wordAt s.mem (s.latch.src + (256 * k + 4 * e)) = some (el k e)) :
    ∃ t, exec i s = .next t ∧ SucceededFrom s t (256 * s.latch.count) ∧ t.ops = s.ops ∧
      ∀ (k : Nat) (e : Fin 64), k < s.latch.count → wordAt t.mem (s.latch.dst + (256 * k + 4 * e.val)) =
        some (twos32 (g (el k e).toInt s.latch.ops.qtable[e].toNat)) := by
  obtain ⟨t, ht, hsucc, hops, hwords⟩ := exec_blockBody hp hbody (fun b hb => by simp [hb]) hsrc
  refine ⟨t, ht, hsucc, hops, fun k e hk => ?_⟩
  rw [hwords k e hk e.isLt, zipWith_blockOf_qt_getD]

/-- Settles O22: each is the table command of its function on one element. -/
theorem quantizersUseLatchedTable : Obligations.QuantizersUseLatchedTable := by
  rintro s el i f (⟨rfl, rfl⟩ | ⟨rfl, rfl⟩) hp hsrc
  · exact exec_tableBody (g := quant) hp rfl hsrc
  · exact exec_tableBody (g := dequant) hp rfl hsrc

/-! ### The quantizer and the dequantizer, one after the other (45_quant R225) -/

/-- A product in range is not saturated. -/
theorem dequant_eq_mul {b : Int} {t : Nat} (hlo : -2147483648 ≤ b * t) (hhi : b * t ≤ 2147483647) :
    dequant b t = b * t := by
  rw [dequant, sat32, clamp]
  omega

/-- The rounded quotient is within half a divisor of `b`, so its product stays in range. -/
theorem dequant_quant_error {b : Int} {t : Nat} (ht : 1 ≤ t) (hb : b.natAbs + t ≤ 2147483647) :
    (dequant (quant b t) t - b).natAbs ≤ t / 2 := by
  have hnear : 2 * (quant b t * t - b).natAbs ≤ t := (divRoundIsNearestHalfAway b t ht).1
  rw [dequant_eq_mul (by omega) (by omega)]
  omega

/-- An exact quotient is not rounded, whatever its sign. -/
theorem quant_mul (q : Int) {t : Nat} (ht : 1 ≤ t) : quant (q * t) t = q := by
  rw [quant]
  obtain ⟨n, rfl | rfl⟩ := q.eq_nat_or_neg
  · exact_mod_cast divRoundHA_natCast_mul n ht
  · rw [Int.neg_mul, divRoundHA_neg]
    exact_mod_cast congrArg Neg.neg (divRoundHA_natCast_mul n ht)

theorem quant_one (b : Int) : quant b 1 = b := by
  simpa using quant_mul b le_rfl

/-- Settles O37: the product in between never saturates under the bounds of R225. -/
theorem quantizationErrorBounded : Obligations.QuantizationErrorBounded := by
  refine ⟨fun b t _ _ ht _ hb => dequant_quant_error ht hb, fun q t ht _ hq => ?_, fun b hlo hhi => ⟨quant_one b, ?_⟩⟩
  · rw [dequant_eq_mul (by omega) (by omega), quant_mul q ht]
  · simpa using dequant_eq_mul (b := b) (t := 1) (by omega) (by omega)

end Sys2Proof.Machine
end

section
/-!
The entropy coder: what HUFF_ENC writes and HUFF_DEC reads back (46_entropy R250, R260, R261), the decoder's errors on
streams no encoder writes (R252, R254), and the laws of the tree and the codebook (R238, R241, R246, R247, R262).
-/

namespace Sys2Proof.Machine

/-! ### The round trip (46_entropy R250, R260, R261) -/

/-- The source window of the latched HUFF_DEC, as the decoder's input. -/
def huffInput (s : State) : BitSource := { mem := s.mem, base := s.latch.src, len := s.latch.srclen }

/-- HUFF_DEC answers the values the decoder reads in its source window, or the decoder's stop. -/
theorem bodyOf_huffDec (s : State) : bodyOf .huffDec s.params s.latch s.mem =
    (huffDec s.params (huffInput s) s.latch.count).map fun vals => Success.bytes (wordsToBytes vals) := by
  change huffDec s.params (huffInput s) s.latch.count >>= _ = _
  cases huffDec s.params (huffInput s) s.latch.count <;> rfl

/-- Settles O24: the decoder gives back the encoded sequence, and HUFF_DEC stores what the decoder gives. -/
theorem huffDecInvertsHuffEnc : Obligations.HuffDecInvertsHuffEnc := by
  intro s vals out hp hcount hdistinct henc hlen hsrc
  have hdec : huffDec s.params (huffInput s) s.latch.count = .ok vals :=
    hcount ▸ huffDec_huffEnc henc hdistinct hsrc hlen
  exact hcount ▸ exec_words hp (by rw [bodyOf_huffDec, hdec, Except.map])

/-- HUFF_ENC on `vals` with encoding `out`. A COUNT of 0, which the body answers by itself, is no exception: the empty
sequence has no distinct value, and its encoding has no byte. -/
theorem bodyOf_huffEnc {p : Params} {l : Latch} {m : Memory} {v : Nat → Word} {out : List Byte}
    (hsrc : ∀ j, j < l.count → wordAt m (l.src + 4 * j) = some (v j))
    (henc : huffEnc ((List.range l.count).map v) = some out) :
    bodyOf .huffEnc p l m =
      if p.maxSymbols < ((List.range l.count).map v).dedup.length ∨ l.dstlim < out.length
      then .error (.raise .capacity)
      else .ok (Success.bytes out) := by
  obtain ⟨bs, hread, hwords⟩ := readWindow_words hsrc
  rw [bodyOf, bodyHuffEnc, hread, ok_bind]
  by_cases hzero : l.count = 0
  · rw [if_pos hzero]
    rw [hzero] at henc ⊢
    cases henc
    simp [pure_eq_ok]
  · rw [if_neg hzero, hwords, encodeInto_eq henc, List.nil_append]

/-- Settles O23: the body answers the encoding or raises CAPACITY, which leaves memory alone in an encoder. -/
theorem huffEncWritesEncodingOrReportsCapacity : Obligations.HuffEncWritesEncodingOrReportsCapacity := by
  intro s v out hp hsrc vals henc
  have hbody := bodyOf_huffEnc (p := s.params) hsrc henc
  constructor
  · intro hdistinct hlen
    rw [if_neg (not_or.mpr ⟨not_lt.mpr hdistinct, not_lt.mpr hlen⟩)] at hbody
    exact exec_bytes hp hbody
  · intro hcap
    rw [if_pos hcap] at hbody
    exact ⟨_, exec_of_raise hp hbody, failedFrom_afterBodyError _ _ s, rfl⟩

/-! ### Streams that no encoder writes (46_entropy R252, R254) -/

/-- HUFF_DEC on an input that the decoder refuses. -/
theorem exec_huffDec_of_raise {s : State} {e : Err} (hp : StartChecksPass s.params .huffDec s.latch)
    (h : huffDec s.params (huffInput s) s.latch.count = .error (.raise e)) :
    ∃ t, exec .huffDec s = .next t ∧ FailedFrom s t e :=
  ⟨_, exec_of_raise hp (by rw [bodyOf_huffDec, h, Except.map]), failedFrom_afterBodyError _ _ s⟩

theorem readBit_huffInput {s : State} {k : Nat} {b : Bool} (h : BitAt s.mem s.latch.src k b)
    (hk : k < 8 * s.latch.srclen) : readBit (huffInput s) k = .ok b :=
  readBit_of_bitAt (src := huffInput s) h hk

/-- Bits at the start of the source window, given one by one, are bits the decoder reads. -/
theorem bitsAt_huffInput {s : State} {bs : Bits} (hlen : bs.length ≤ 8 * s.latch.srclen)
    (h : ∀ j, j < bs.length → BitAt s.mem s.latch.src j (bs.getD j false)) : BitsAt (huffInput s) 0 bs := by
  intro j b hj
  obtain ⟨hlt, rfl⟩ := List.getElem?_eq_some_iff.mp hj
  rw [Nat.zero_add, ← List.getD_eq_getElem bs false hlt]
  exact readBit_huffInput (h j hlt) (by omega)

/-- Every tag 0 opens one more node, so as many of them as nodes are left end at the limit, on whatever fuel. -/
theorem parseTree_of_zero_tags {src : BitSource} {limit fuel k m : Nat}
    (h : ∀ j, j < limit - m → readBit src (k + j) = .ok false) :
    parseTree src limit fuel k m = .error (.raise .formatTree) := by
  induction fuel generalizing k m with
  | zero => rfl
  | succ fuel ih =>
    unfold parseTree
    split_ifs with hm
    · rfl
    · have htag : readBit src k = .ok false := h 0 (by omega)
      have hleft : parseTree src limit fuel (k + 1) (m + 1) = .error (.raise .formatTree) :=
        ih fun j hj => by
          rw [Nat.succ_add_eq_add_succ]
          exact h (j + 1) (by omega)
      simp only [htag, ok_bind, Bool.false_eq_true, if_false, hleft, error_bind]

/-- Settles O28: the tree parse fails at the node limit, before it reads the next tag. -/
theorem zeroTagStreamHitsNodeLimit : Obligations.ZeroTagStreamHitsNodeLimit := by
  intro s hp _ hcount hlen hbits
  refine exec_huffDec_of_raise hp ?_
  rw [huffDec, if_neg hcount, parseTree_of_zero_tags, error_bind]
  intro j hj
  rw [nodeLimit] at hj
  rw [Nat.zero_add]
  exact readBit_huffInput (hbits j (by omega)) (by omega)

/-- Under a single leaf every bit 0 is one value, and a bit 1 before the last value is FORMAT_CODE. -/
theorem decodeStream_leaf_of_one {src : BitSource} {v : Word} {n count k : Nat} (hn : n < count)
    (hzeros : ∀ j, j < n → readBit src (k + j) = .ok false) (hone : readBit src (k + n) = .ok true) :
    decodeStream src (.leaf v) count k = .error (.raise .formatCode) := by
  induction n generalizing count k with
  | zero =>
    obtain ⟨c, rfl⟩ : ∃ c, count = c + 1 := ⟨count - 1, by omega⟩
    have hbit : readBit src k = .ok true := hone
    simp only [decodeStream, decodeValue, hbit, ok_bind, if_true, error_bind]
  | succ n ih =>
    obtain ⟨c, rfl⟩ : ∃ c, count = c + 1 := ⟨count - 1, by omega⟩
    have hbit : readBit src k = .ok false := hzeros 0 (by omega)
    have hrest : decodeStream src (.leaf v) c (k + 1) = .error (.raise .formatCode) := by
      refine ih (by omega) (fun j hj => ?_) ?_
      · rw [Nat.succ_add_eq_add_succ]
        exact hzeros (j + 1) (by omega)
      · rw [Nat.succ_add_eq_add_succ]
        exact hone
    simp only [decodeStream, decodeValue, hbit, ok_bind, Bool.false_eq_true, if_false, pure_eq_ok, hrest, error_bind]

/-- Settles O29: the 33 bits are the serialization of a leaf, and the stream after it starts at bit 64. -/
theorem oneBitUnderSingleLeafIsFormatCode : Obligations.OneBitUnderSingleLeafIsFormatCode := by
  intro s v n hp hsym hn hlen htree hzeros hone
  have hser : (HTree.leaf v).ser.length = 33 := by rw [HTree.ser, List.length_cons, bits32_length]
  have hbits : BitsAt (huffInput s) 0 (HTree.leaf v).ser := bitsAt_huffInput (by omega) (by rwa [hser])
  have hnodes : (HTree.leaf v).nodes ≤ nodeLimit s.params := by
    rw [HTree.nodes, nodeLimit]
    omega
  have hparse := parseTree_ser (limit := nodeLimit s.params) (m := 0) hbits hnodes (by rwa [Nat.zero_add])
  have hstream : decodeStream (huffInput s) (.leaf v) s.latch.count 64 = .error (.raise .formatCode) :=
    decodeStream_leaf_of_one hn (fun j hj => readBit_huffInput (hzeros j hj) (by omega)) (readBit_huffInput hone hlen)
  refine exec_huffDec_of_raise hp ?_
  have hstart : streamStart (0 + 33) = 64 := by decide
  simpa only [huffDec, if_neg (show s.latch.count ≠ 0 by omega), hparse, hser, ok_bind, hstart] using hstream

/-! ### The encoding and its length (46_entropy R244, R246, R247) -/

/-- Settles O40: the empty sequence is encoded apart, and any other by its tree and its codebook. -/
theorem encoderNeverMissesAnEntry : Obligations.EncoderNeverMissesAnEntry := by
  intro s
  by_cases hs : s = []
  · exact ⟨[], by rw [hs]; rfl⟩
  · obtain ⟨_, _, _, _, _, henc⟩ := huffEnc_cons hs
    exact ⟨_, henc⟩

theorem ne_nil_of_buildTree {s : List Word} {t : HTree} (h : buildTree s = some t) : s ≠ [] := by
  rintro rfl
  rw [buildTree_nil] at h
  cases h

/-- The leaves of the tree of a sequence are its distinct values. -/
theorem buildTree_leaves_perm {s : List Word} {t : HTree} (h : buildTree s = some t) : t.leaves.Perm s.dedup := by
  obtain ⟨u, hu, hp⟩ := buildTree_some (ne_nil_of_buildTree h)
  rw [h] at hu
  cases hu
  exact hp

/-- The encoding by a tree and its codes: the tree's section, then the stream's. -/
theorem huffEnc_of_buildTree {s : List Word} {t : HTree} {codes : Bits} (ht : buildTree s = some t)
    (hc : encodeValues t.codebook s = some codes) : huffEnc s = some (section64 t.ser ++ section64 codes) := by
  have hs : s.isEmpty = false := by simpa using ne_nil_of_buildTree ht
  simp [huffEnc, hs, ht, hc]

/-- Settles O41: each section has the length of its bits in whole 64-bit words, and a tree of n leaves has 34n - 1. -/
theorem encodedLengthFormula : Obligations.EncodedLengthFormula := by
  intro s out henc
  refine ⟨?_, fun t codes ht hc => ⟨?_, encodeValues_length hc⟩⟩
  · rintro rfl
    exact (Option.some.inj henc).symm
  · have hout : out = section64 t.ser ++ section64 codes :=
      Option.some.inj (henc.symm.trans (huffEnc_of_buildTree ht hc))
    have hser : t.ser.length = 34 * s.dedup.length - 1 := by
      rw [← (buildTree_leaves_perm ht).length_eq, ← t.ser_length, Nat.add_sub_cancel]
    rw [hout, List.length_append, section64_length, section64_length, hser]

/-! ### The tree of a multiset (46_entropy R238) -/

/-- A frequency table is known from its entries, as its order is. -/
theorem Rising.eq_of_mem_iff {t t' : List (Word × Nat)} (h : Rising t) (h' : Rising t')
    (hm : ∀ p, p ∈ t ↔ p ∈ t') : t = t' := by
  have hp : t.Perm t' := (List.perm_ext_iff_of_nodup h.nodup.of_map h'.nodup.of_map).mpr hm
  exact hp.eq_of_pairwise (fun a b _ _ hab hba => absurd hab (lt_asymm hba)) h h'

theorem freqTable_perm {s s' : List Word} (h : s.Perm s') : freqTable s = freqTable s' := by
  refine (freqTable_rising s).eq_of_mem_iff (freqTable_rising s') fun ⟨v, n⟩ => ?_
  rw [mem_freqTable, mem_freqTable, h.mem_iff, h.count_eq]

/-- Settles O42: the tree is built from the frequency table, which is the same for both. -/
theorem treeDependsOnMultisetOnly : Obligations.TreeDependsOnMultisetOnly :=
  fun _ _ h => buildTree_congr (freqTable_perm h)

/-! ### The codebook (46_entropy R241, R262) -/

/-- Neither of two codes begins with the other. -/
def PrefixFree (p q : Word × Bits) : Prop := ¬ p.2 <+: q.2 ∧ ¬ q.2 <+: p.2

/-- The space a list of codes takes up: the sum of `2^-|code|`. -/
def codeSpace (cs : List (Word × Bits)) : ℚ := (cs.map fun p => (1 / 2 : ℚ) ^ p.2.length).sum

/-- A code behind one more bit. -/
def branch (b : Bool) (p : Word × Bits) : Word × Bits := (p.1, b :: p.2)

theorem HTree.paths_node (l r : HTree) :
    (HTree.node l r).paths = l.paths.map (branch false) ++ r.paths.map (branch true) := rfl

theorem prefixFree_branch {b : Bool} {p q : Word × Bits} (h : PrefixFree p q) :
    PrefixFree (branch b p) (branch b q) := by
  simpa [PrefixFree, branch] using h

theorem prefixFree_branches (p q : Word × Bits) : PrefixFree (branch false p) (branch true q) := by
  simp [PrefixFree, branch]

theorem codeSpace_append (cs ds : List (Word × Bits)) : codeSpace (cs ++ ds) = codeSpace cs + codeSpace ds := by
  simp [codeSpace]

theorem codeSpace_branch (b : Bool) (cs : List (Word × Bits)) :
    codeSpace (cs.map (branch b)) = 1 / 2 * codeSpace cs := by
  rw [codeSpace, codeSpace, List.map_map, ← List.sum_map_mul_left]
  exact congrArg List.sum (List.map_congr_left fun p _ => pow_succ' _ _)

/-- Two paths of a tree part at the node where their leaves do. -/
theorem HTree.paths_prefixFree (t : HTree) : t.paths.Pairwise PrefixFree := by
  induction t with
  | leaf v => exact List.pairwise_singleton _ _
  | node l r ihl ihr =>
    rw [paths_node, List.pairwise_append]
    refine ⟨ihl.map _ fun _ _ => prefixFree_branch, ihr.map _ fun _ _ => prefixFree_branch, fun p hp q hq => ?_⟩
    obtain ⟨p, _, rfl⟩ := List.mem_map.mp hp
    obtain ⟨q, _, rfl⟩ := List.mem_map.mp hq
    exact prefixFree_branches p q

/-- Each branch of a node takes up half of the node's code space. -/
theorem HTree.paths_codeSpace (t : HTree) : codeSpace t.paths = 1 := by
  induction t with
  | leaf v => simp [paths, codeSpace]
  | node l r ihl ihr =>
    rw [paths_node, codeSpace_append, codeSpace_branch, codeSpace_branch, ihl, ihr]
    norm_num

/-- Only the tree of a single leaf has a codebook that differs from its paths. -/
theorem HTree.codebook_eq_paths {t : HTree} (h : 2 ≤ t.leaves.length) : t.codebook = t.paths := by
  cases t with
  | leaf v => simp [leaves] at h
  | node l r => rfl

theorem HTree.mem_leaves_iff_codebook {t : HTree} {v : Word} : v ∈ t.leaves ↔ ∃ c, (v, c) ∈ t.codebook := by
  simp [← codebook_keys]

/-- Settles O43: with two or more leaves the codes are the paths of the tree. -/
theorem codebookIsPrefixFreeAndComplete : Obligations.CodebookIsPrefixFreeAndComplete := by
  intro s t ht hs
  have hleaves := buildTree_leaves_perm ht
  have hpaths : t.codebook = t.paths := HTree.codebook_eq_paths (hleaves.length_eq ▸ hs)
  refine ⟨?_, fun v => ?_, ?_⟩
  · rw [hpaths]
    exact t.paths_prefixFree
  · rw [← HTree.mem_leaves_iff_codebook, hleaves.mem_iff, List.mem_dedup]
  · rw [hpaths]
    exact t.paths_codeSpace

end Sys2Proof.Machine
end

section
/-!
COMPRESS and DECOMPRESS as compositions of their stages (47_pipeline R271 to R276): the container COMPRESS writes, the
header DECOMPRESS accepts, and the Image it writes.
-/

namespace Sys2Proof.Machine

/-! ### COMPRESS (47_pipeline R271, R272) -/

/-- COMPRESS on an Image whose coefficient sequence has the encoding `body`. -/
theorem bodyOf_compress {p : Params} {l : Latch} {m : Memory} {img : Nat → Byte} {body : List Byte}
    (hsrc : ∀ j, j < 3 * (l.w * l.h) → byteAt m (l.src + j) = some (img j))
    (henc : huffEnc (compressSequence img l.w l.h l.qt) = some body) :
    bodyOf .compress p l m =
      if p.maxSymbols < (compressSequence img l.w l.h l.qt).dedup.length ∨ l.dstlim < 138 + body.length
      then .error (.raise .capacity)
      else .ok (Success.bytes (headerBytes l.w l.h l.qt ++ body)) := by
  have hqt := latch_qt_length l
  rw [bodyOf, bodyCompress, readWindow_eq_map hsrc, ok_bind, coefficients_eq_compressSequence img _ _ hqt,
    encodeInto_eq henc, List.length_append, headerBytes_length hqt]

/-- Settles O25: the body answers header and encoding or raises CAPACITY, which leaves memory alone in an encoder. -/
theorem compressWritesContainer : Obligations.CompressWritesContainer := by
  intro s img body hp hsrc seq header henc
  have hbody := bodyOf_compress (p := s.params) hsrc henc
  constructor
  · intro hdistinct hlen
    rw [if_neg (not_or.mpr ⟨not_lt.mpr hdistinct, not_lt.mpr hlen⟩)] at hbody
    obtain ⟨t, ht, hsucc, hops, hbytes⟩ := exec_bytes hp hbody
    rw [List.length_append, headerBytes_length (latch_qt_length s.latch)] at hsucc
    exact ⟨t, ht, hsucc, hops, hbytes⟩
  · intro hcap
    rw [if_pos hcap] at hbody
    exact ⟨_, exec_of_raise hp hbody, failedFrom_afterBodyError _ _ s, rfl⟩

/-! ### The container header (30_encoding R111, 47_pipeline R273) -/

/-- The header checks on the 138 bytes at the latched source. -/
theorem readHeader_of_bytesAt {p : Params} {l : Latch} {m : Memory} {hdr : List Byte} (hlen : 138 ≤ l.srclen)
    (hl : hdr.length = 138) (hb : BytesAt m l.src hdr) :
    readHeader p l m =
      if (Header.ofBytes hdr).illegal then .error (.raise .formatHeader)
      else if (Header.ofBytes hdr).tooLarge p l.dstlim then .error (.raise .capacity)
      else .ok (Header.ofBytes hdr) := by
  have hread : readWindow m l.src headerLen = .ok hdr := by
    simpa [hl, headerLen] using readWindow_of_bytesAt hb
  rw [readHeader, if_neg (show ¬ l.srclen < headerLen from not_lt.mpr hlen), hread, ok_bind]
  rfl

theorem readHeader_of_short {p : Params} {l : Latch} {m : Memory} (h : l.srclen < 138) :
    readHeader p l m = .error (.raise .formatTruncated) := if_pos h

/-- W of a header is the value of its first four bytes: four bytes fit a register. -/
theorem Header.ofBytes_w (bs : List Byte) : (Header.ofBytes bs).w = beValue (bs.take 4) := by
  have hlt : beValue (bs.take 4) < 2 ^ 32 :=
    (beValue_lt _).trans_le (Nat.pow_le_pow_right (n := 256) (by decide) (List.length_take_le 4 bs))
  exact Nat.mod_eq_of_lt hlt

theorem Header.ofBytes_h (bs : List Byte) : (Header.ofBytes bs).h = beValue ((bs.drop 4).take 4) :=
  Header.ofBytes_w (bs.drop 4)

/-- A header's table has an entry 0 exactly when one of the 64 byte pairs from byte 10 on has the value 0. -/
theorem Header.zero_mem_ofBytes_qt {bs : List Byte} (hl : bs.length = 138) :
    0 ∈ (Header.ofBytes bs).qt ↔ ∃ i, i < 64 ∧ beValue ((bs.drop (10 + 2 * i)).take 2) = 0 := by
  have hlen : (bs.drop 10).length / 2 = 64 := by rw [List.length_drop, hl]
  have hentry : ∀ i, i < 64 →
      (Header.ofBytes bs).qt[i]? = some (beValue ((bs.drop (10 + 2 * i)).take 2)) := fun i hi => by
    rw [← List.drop_drop]
    exact bytesToHalves_getElem? _ i (hlen ▸ hi)
  rw [List.mem_iff_getElem?]
  constructor
  · rintro ⟨i, hi⟩
    have hi64 : i < 64 := by
      rw [← hlen, ← bytesToHalves_length]
      exact (List.getElem?_eq_some_iff.mp hi).1
    exact ⟨i, hi64, Option.some.inj ((hentry i hi64).symm.trans hi)⟩
  · rintro ⟨i, hi, hzero⟩
    exact ⟨i, (hentry i hi).trans (congrArg some hzero)⟩

theorem Header.illegal_ofBytes {bs : List Byte} (hl : bs.length = 138) :
    (Header.ofBytes bs).illegal = true ↔
      bs.getD 8 0 ≠ 1 ∨ bs.getD 9 0 ≠ 0 ∨ (∃ i, i < 64 ∧ beValue ((bs.drop (10 + 2 * i)).take 2) = 0) ∨
        beValue (bs.take 4) = 0 ∨ beValue ((bs.drop 4).take 4) = 0 := by
  simp only [Header.illegal, Bool.or_eq_true, bne_iff_ne, beq_iff_eq, List.contains_iff_mem,
    Header.zero_mem_ofBytes_qt hl, Header.ofBytes_w, Header.ofBytes_h]
  rfl

theorem Header.tooLarge_iff {p : Params} {limit : Nat} {hd : Header} :
    hd.tooLarge p limit = true ↔ p.maxPixels < hd.w * hd.h ∨ limit < 3 * (hd.w * hd.h) := by
  simp [Header.tooLarge]

/-- DECOMPRESS on a container whose header it refuses. -/
theorem exec_decompress_of_header {s : State} {e : Err} (hp : StartChecksPass s.params .decompress s.latch)
    (h : readHeader s.params s.latch s.mem = .error (.raise e)) :
    ∃ t, exec .decompress s = .next t ∧ FailedFrom s t e :=
  ⟨_, exec_of_raise hp (bind_eq_error.mpr (.inl h)), failedFrom_afterBodyError _ _ s⟩

/-- Settles O27: the checks are those of `readHeader`, in its order. -/
theorem headerChecksInOrder : Obligations.HeaderChecksInOrder := by
  intro s hp ends
  refine ⟨fun hshort => exec_decompress_of_header hp (readHeader_of_short hshort), ?_⟩
  intro hdr hlen hl hb w h entry illegal tooLarge
  have hread := readHeader_of_bytesAt (p := s.params) hlen hl hb
  have hillegal : (Header.ofBytes hdr).illegal = true ↔ illegal := Header.illegal_ofBytes hl
  have htoo : (Header.ofBytes hdr).tooLarge s.params s.latch.dstlim = true ↔ tooLarge := by
    rw [Header.tooLarge_iff, Header.ofBytes_w, Header.ofBytes_h]
  refine ⟨fun hi => exec_decompress_of_header hp ?_, fun hi ht => exec_decompress_of_header hp ?_⟩
  · rw [hread, if_pos (hillegal.mpr hi)]
  · rw [hread, if_neg (mt hillegal.mp hi), if_pos (htoo.mpr ht)]

/-! ### DECOMPRESS (47_pipeline R274, R276) -/

/-- A command whose body succeeds writes its bytes from L.DST on, and its dimensions (40_command R137). -/
theorem exec_stores {i : Instr} {s : State} {r : Success} (hp : StartChecksPass s.params i s.latch)
    (hb : bodyOf i s.params s.latch s.mem = .ok r) :
    ∃ t, exec i s = .next t ∧ SucceededFrom s t r.out.length ∧ t.ops = s.ops.withDims r.dims ∧
      BytesAt t.mem s.latch.dst r.out :=
  ⟨_, exec_of_ok hp hb, succeededFrom_completeSuccess r s, rfl, bytesAt_storeBytes _ _ _⟩

/-- The header of a `w` by `h` Image with table `qt`, as DECOMPRESS reads it. -/
def imageHeader (w h : Nat) (qt : List Nat) : Header :=
  { width := BitVec.ofNat 32 w, height := BitVec.ofNat 32 h, ss := 1, qf := 0, qt := qt }

theorem imageHeader_w {w : Nat} (hw : w < 2 ^ 32) (h : Nat) (qt : List Nat) : (imageHeader w h qt).w = w :=
  Nat.mod_eq_of_lt hw

theorem imageHeader_h {h : Nat} (hh : h < 2 ^ 32) (w : Nat) (qt : List Nat) : (imageHeader w h qt).h = h :=
  Nat.mod_eq_of_lt hh

theorem imageHeader_legal {w h : Nat} {qt : List Nat} (hw : 1 ≤ w) (hw' : w < 2 ^ 32) (hh : 1 ≤ h) (hh' : h < 2 ^ 32)
    (hq : ∀ q ∈ qt, 1 ≤ q) : (imageHeader w h qt).illegal = false := by
  have hzero : 0 ∉ qt := fun h0 => absurd (hq 0 h0) (by decide)
  have hw0 : w ≠ 0 := by omega
  have hh0 : h ≠ 0 := by omega
  rw [Header.illegal, imageHeader_w hw', imageHeader_h hh']
  simp [imageHeader, hzero, hw0, hh0]

/-- The header of an Image that the block and the destination can hold passes the checks and reads back as it was
written. -/
theorem readHeader_of_headerBytes {p : Params} {l : Latch} {m : Memory} {w h : Nat} {qt : List Nat} (hw : 1 ≤ w)
    (hw' : w < 2 ^ 32) (hh : 1 ≤ h) (hh' : h < 2 ^ 32) (hpix : w * h ≤ p.maxPixels) (hlim : 3 * (w * h) ≤ l.dstlim)
    (hqlen : qt.length = 64) (hq : ∀ q ∈ qt, 1 ≤ q ∧ q ≤ 65535) (hlen : 138 ≤ l.srclen)
    (hb : BytesAt m l.src (headerBytes w h qt)) : readHeader p l m = .ok (imageHeader w h qt) := by
  have hof : Header.ofBytes (headerBytes w h qt) = imageHeader w h qt :=
    ofBytes_headerBytes hw' hh' fun q hmem => Nat.lt_succ_of_le (hq q hmem).2
  have hlegal : (imageHeader w h qt).illegal = false := imageHeader_legal hw hw' hh hh' fun q hmem => (hq q hmem).1
  have hfits : ¬ (imageHeader w h qt).tooLarge p l.dstlim = true := by
    rw [Header.tooLarge_iff, imageHeader_w hw', imageHeader_h hh']
    omega
  rw [readHeader_of_bytesAt hlen (headerBytes_length hqlen) hb, hof, hlegal, if_neg (by decide), if_neg hfits]

/-- DECOMPRESS on a container with a legal header and an encoding of as many coefficients as it asks for. -/
theorem bodyOf_decompress {p : Params} {l : Latch} {m : Memory} {hdr body : List Byte} {hd : Header} {seq : List Word}
    (hread : readHeader p l m = .ok hd) (hl : hdr.length = headerLen) (hseq : seq.length = ncoef hd.w hd.h)
    (hdistinct : seq.dedup.length ≤ p.maxSymbols) (henc : huffEnc seq = some body)
    (hlen : 138 + body.length ≤ l.srclen) (hb : BytesAt m l.src (hdr ++ body)) :
    bodyOf .decompress p l m =
      .ok { out := imageOfCoefficients hd seq, dims := some (hd.width, hd.height) } := by
  have hbody : BytesAt m (l.src + headerLen) body := hl ▸ hb.append.2
  have hdec : huffDec p { mem := m, base := l.src + headerLen, len := l.srclen - headerLen } (ncoef hd.w hd.h) =
      .ok seq := by
    rw [← hseq]
    exact huffDec_huffEnc henc hdistinct hbody (Nat.le_sub_of_add_le' hlen)
  rw [bodyOf, bodyDecompress, hread, ok_bind, hdec, ok_bind, pure_eq_ok]

/-- Settles O26: the header reads back as it was written, the decoder gives back the sequence, and the Image of the two is
stored. -/
theorem decompressWritesImageAndDimensions : Obligations.DecompressWritesImageAndDimensions := by
  intro s w h qt seq body hp hw hw' hh hh' hpix hlim hqlen hq hseq hdistinct henc hlen hb
  have hread : readHeader s.params s.latch s.mem = .ok (imageHeader w h qt) :=
    readHeader_of_headerBytes hw hw' hh hh' hpix hlim hqlen hq (by omega) hb.append.1
  have hdw := imageHeader_w hw' h qt
  have hdh := imageHeader_h hh' w qt
  have hseq' : seq.length = ncoef (imageHeader w h qt).w (imageHeader w h qt).h := by
    rw [hdw, hdh, ncoef, Nat.mul_comm]
    exact hseq
  obtain ⟨t, ht, hsucc, hops, hstored⟩ := exec_stores hp
    (bodyOf_decompress hread (headerBytes_length hqlen) hseq' hdistinct henc hlen hb)
  rw [imageOfCoefficients_length, hdw, hdh] at hsucc
  refine ⟨t, ht, hsucc, hops, fun x y hx hy => ?_⟩
  have hpixel := imageOfCoefficients_getElem? (hd := imageHeader w h qt) hqlen hseq' (hdw.symm ▸ hx) (hdh.symm ▸ hy)
  rw [hdw, hdh] at hpixel
  obtain ⟨hred, hgreen, hblue⟩ := hpixel
  exact ⟨hstored _ _ hred, hstored _ _ hgreen, hstored _ _ hblue⟩

end Sys2Proof.Machine
end

section
/-!
Exceptions: the order of the start checks (60_exceptions R293) and the destination window after a failure (R296).
-/

namespace Sys2Proof.Machine

/-! ### The start checks, one condition each (60_exceptions R293) -/

theorem dimensionCheck_eq (p : Params) (i : Instr) (l : Latch) :
    dimensionCheck p i l =
      if isDimensioned i = true ∧ (l.w = 0 ∨ l.h = 0) then some .badDimension
      else if isDimensioned i = true ∧ p.maxPixels < l.w * l.h then some .capacity
      else none := by
  unfold dimensionCheck
  cases isDimensioned i <;> simp

theorem tableCheck_eq (i : Instr) (l : Latch) :
    tableCheck i l = if usesTable i = true ∧ 0 ∈ l.qt then some .qtableZero else none := by
  simp [tableCheck]

theorem rangeCheck_eq (p : Params) (i : Instr) (l : Latch) :
    rangeCheck p i l =
      if (0 < srcLen i l ∧ p.memSize < l.src + srcLen i l) ∨ (0 < dstLen i l ∧ p.memSize < l.dst + dstLen i l)
      then some .addressRange else none := by
  simp only [rangeCheck, outOfRange, Bool.and_eq_true, decide_eq_true_eq, ite_or]

theorem overlapCheck_eq (i : Instr) (l : Latch) :
    overlapCheck i l =
      if 0 < srcLen i l ∧ 0 < dstLen i l ∧ l.src < l.dst + dstLen i l ∧ l.dst < l.src + srcLen i l ∧
        ¬ (mayRunInPlace i = true ∧ l.src = l.dst)
      then some .overlap else none := by
  simp [overlapCheck, windowsMeet, and_assoc, or_iff_not_imp_left]

/-- A command that fails a start check completes with its error, writes nothing and draws no free byte. -/
theorem exec_fails_of_startCheck {i : Instr} {s : State} {e : Err} (h : startChecks s.params i s.latch = some e) :
    ∃ t, exec i s = .next t ∧ FailedFrom s t e ∧ t.mem = s.mem ∧ t.draws = s.draws :=
  ⟨_, exec_of_startCheck h, failedFrom_completeFailure e s, rfl, rfl⟩

/-- Settles O13: each condition is reached where the ones before it are false. -/
theorem firstFailingStartCheckIsReported : Obligations.FirstFailingStartCheckIsReported := by
  rintro i s p l rfl rfl dimBad tooMany tableBad rangeBad overlapBad ends
  refine ⟨fun hd => ?_, fun hd hm => ?_, fun hd hm ht => ?_, fun hd hm ht hr => ?_, fun hd hm ht hr ho => ?_⟩ <;>
    refine exec_fails_of_startCheck ?_ <;>
    rw [startChecks, dimensionCheck_eq]
  · rw [if_pos hd, Option.some_or]
  · rw [if_neg hd, if_pos hm, Option.some_or]
  · rw [if_neg hd, if_neg hm, Option.none_or, tableCheck_eq, if_pos ht, Option.some_or]
  · rw [if_neg hd, if_neg hm, Option.none_or, tableCheck_eq, if_neg ht, Option.none_or, rangeCheck_eq, if_pos hr,
      Option.some_or]
  · rw [if_neg hd, if_neg hm, Option.none_or, tableCheck_eq, if_neg ht, Option.none_or, rangeCheck_eq, if_neg hr,
      Option.none_or, overlapCheck_eq, if_pos ho]

/-! ### The destination window after a failure (60_exceptions R296) -/

/-- The commands whose body can fail: an encoder, and then with CAPACITY, or a decoder. -/
theorem raises_cases {i : Instr} {e : Err} (h : raises i e) :
    ((i = .huffEnc ∨ i = .compress) ∧ e = .capacity) ∨ i = .huffDec ∨ i = .decompress := by
  cases i with
  | huffEnc => exact .inl ⟨.inl rfl, h⟩
  | compress => exact .inl ⟨.inr rfl, h⟩
  | huffDec => exact .inr (.inl rfl)
  | decompress => exact .inr (.inr rfl)
  | _ => exact h.elim

/-- Settles O12: a failed start check stores nothing, and a body error what its command's kind stores. -/
theorem destinationAfterFailure : Obligations.DestinationAfterFailure := by
  refine ⟨fun s t hb hi hword h => ?_, fun i s t h herr => ?_⟩
  · rw [step_of_no_event hi] at h
    cases hd : decode s.latch.word.toWord with
    | ok i => exact absurd hd (hword i)
    | error x =>
      rw [engineTurn_of_decode_error hb hd] at h
      cases h
      exact ⟨rfl, rfl⟩
  · cases exec_next h with
    | succeeded r _ _ => cases herr
    | checkFailed e hc =>
      refine ⟨fun _ => rfl, fun hp => ?_⟩
      rw [startChecks_eq_none.mpr hp] at hc
      cases hc
    | bodyFailed e hp _ hr =>
      refine ⟨fun hn => absurd hp hn, fun _ => ?_⟩
      rcases raises_cases hr with ⟨hi, rfl⟩ | hi
      · refine .inl ⟨hi, rfl, ?_⟩
        rcases hi with rfl | rfl <;> rfl
      · have hdec : isDecoder i = true := by rcases hi with rfl | rfl <;> rfl
        refine .inr ⟨hi, fun x => ?_⟩
        rw [afterBodyError_of_decoder hdec]
        exact byteAt_scrambleDst hp x

end Sys2Proof.Machine
end

section
/-!
Reset: what the reset step leaves in registers and memory (70_reset R320 to R322), and the first command after it (R324).
-/

namespace Sys2Proof.Machine

/-! ### The reset step (70_reset R320 to R322) -/

theorem inFlight_of_illegal {s : State} (h : ∀ i, decode s.latch.word.toWord ≠ .ok i) : inFlight s = none := by
  rw [inFlight]
  split_ifs
  · cases hd : decode s.latch.word.toWord with
    | ok i => exact absurd hd (h i)
    | error x => rfl
  · rfl

theorem abortCommand_inputs (s : State) : (abortCommand s).inputs = s.inputs := by
  unfold abortCommand; split <;> rfl

theorem abortCommand_epoch (s : State) : (abortCommand s).epoch = s.epoch := by
  unfold abortCommand; split <;> rfl

/-- The window of an aborted command is scrambled as far as memory reaches, whether or not it passed StartChecks. -/
theorem byteAt_scrambleDst_below (i : Instr) (s : State) (x : Nat) :
    byteAt (scrambleDst i s).mem x =
      if s.latch.dst ≤ x ∧ x < s.latch.dst + dstLen i s.latch ∧ x < s.params.memSize
      then some (Config.freeByte (s.draws + (x - s.latch.dst))) else byteAt s.mem x := by
  rw [scrambleDst, byteAt_scramble]
  exact if_congr (by omega) rfl rfl

theorem resetStep_mem_of_none {s : State} (h : inFlight s = none) : (resetStep s).mem = s.mem := by
  rw [resetStep, resetRegisters_mem, abortCommand, h]

theorem byteAt_resetStep_of_inFlight {s : State} {i : Instr} (h : inFlight s = some i) (x : Nat) :
    byteAt (resetStep s).mem x =
      if s.latch.dst ≤ x ∧ x < s.latch.dst + dstLen i s.latch ∧ x < s.params.memSize
      then some (Config.freeByte (s.draws + (x - s.latch.dst))) else byteAt s.mem x := by
  rw [resetStep, resetRegisters_mem, abortCommand, h]
  exact byteAt_scrambleDst_below i s x

/-- A hardware reset and a soft reset are the reset step, but for the bus's answer to the write that asked for it. -/
theorem step_reset {s : State} {e : Event} {rest : List Event} (hi : s.inputs = e :: rest)
    (he : e = .hardReset ∨ ∃ v : Word, v.getLsbD 1 = true ∧ e = .regWrite 0x00C 4 v) :
    ∃ r, step s = .next { resetStep { s with inputs := rest } with response := r } := by
  rcases he with rfl | ⟨v, hv, rfl⟩
  · exact ⟨_, step_of_event hi⟩
  · refine ⟨{ data := 0, busError := false }, ?_⟩
    rw [step_regWrite (r := .ctrl) hi, writeReg, writeCtrl, if_pos hv]
    rfl

/-- Settles O58: the reset step writes every register, and stores free bytes where a command was in flight. -/
theorem resetStepResetsRegistersAndKeepsMemory : Obligations.ResetStepResetsRegistersAndKeepsMemory := by
  intro s e rest hi he
  obtain ⟨r, hstep⟩ := step_reset hi he
  refine ⟨_, hstep, rfl, rfl, rfl, rfl, rfl, rfl, rfl, resetStep_params _, abortCommand_inputs _, abortCommand_epoch _,
    fun hidle => ?_, fun _ hword => ?_, fun i hb hd x => ?_⟩
  · exact resetStep_mem_of_none (s := { s with inputs := rest }) (inFlight_of_idle hidle)
  · exact resetStep_mem_of_none (s := { s with inputs := rest }) (inFlight_of_illegal hword)
  · exact byteAt_resetStep_of_inFlight (s := { s with inputs := rest }) (inFlight_of_busy hb hd) x

/-! ### The first command after a reset (70_reset R324) -/

/-- With every operand at its reset value the windows of an undimensioned command are empty. -/
theorem srcLen_dstLen_of_reset {i : Instr} (hi : isDimensioned i = false) (c : CmdWord) :
    srcLen i { word := c, ops := Operands.reset } = 0 ∧ dstLen i { word := c, ops := Operands.reset } = 0 := by
  cases i with
  | nop | fdct | quant | huffEnc | idct | dequant | huffDec | decompress => exact ⟨rfl, rfl⟩
  | colorFwd | subsample | tile | compress | colorInv | upsample | untile => cases hi

theorem qt_of_reset {c : CmdWord} {t : Nat} (ht : t ∈ Latch.qt { word := c, ops := Operands.reset }) : t ≠ 0 := by
  simp only [Latch.qt, Operands.reset, Vector.toList_replicate, List.map_replicate, List.mem_replicate] at ht
  rw [ht.2]
  decide

theorem startChecksPass_of_reset {i : Instr} (hi : isDimensioned i = false) (p : Params) (c : CmdWord) :
    StartChecksPass p i { word := c, ops := Operands.reset } := by
  obtain ⟨hsrc, hdst⟩ := srcLen_dstLen_of_reset hi c
  exact ⟨by simp [hi], by simp [hi], fun _ _ => qt_of_reset, .inl hsrc, .inl hdst, .inl hsrc⟩

/-- Every command but DECOMPRESS has nothing to do on empty windows. -/
theorem bodyOf_of_reset {i : Instr} (hi : isDimensioned i = false) (hdec : i ≠ .decompress) (p : Params) (c : CmdWord)
    (m : Memory) : bodyOf i p { word := c, ops := Operands.reset } m = .ok (Success.bytes []) := by
  cases i with
  | nop | fdct | quant | huffEnc | idct | dequant | huffDec => rfl
  | decompress => exact absurd rfl hdec
  | colorFwd | subsample | tile | compress | colorInv | upsample | untile => cases hi

/-- A command with an empty destination window leaves memory alone, however it ends. -/
theorem exec_mem_of_dstLen_eq_zero {i : Instr} {s t : State} (h : exec i s = .next t) (hdst : dstLen i s.latch = 0) :
    t.mem = s.mem := by
  obtain ⟨bs, hmem, hlen, _⟩ := exec_mem h
  rw [hdst, Nat.le_zero, List.length_eq_zero_iff] at hlen
  rw [hmem, hlen, storeBytes_nil]

/-- A command whose latched operands are the reset values changes no byte and no operand register. -/
theorem exec_of_reset {i : Instr} {s : State} (hl : s.latch.ops = Operands.reset) :
    ∃ u, exec i s = .next u ∧ u.mem = s.mem ∧ u.ops = s.ops ∧
      ((isDimensioned i = true ∧ FailedFrom s u .badDimension) ∨
       (i = .decompress ∧ FailedFrom s u .formatTruncated) ∨
       (isDimensioned i = false ∧ i ≠ .decompress ∧ SucceededFrom s u 0)) := by
  have hlatch : s.latch = { word := s.latch.word, ops := Operands.reset } := by rw [← hl]
  by_cases hdim : isDimensioned i = true
  · have hcheck : startChecks s.params i s.latch = some .badDimension := by
      rw [startChecks, dimensionCheck_eq, if_pos ⟨hdim, .inl (by rw [hlatch]; rfl)⟩, Option.some_or]
    obtain ⟨u, hu, hf, hmem, _⟩ := exec_fails_of_startCheck hcheck
    exact ⟨u, hu, hmem, hf.ops, .inl ⟨hdim, hf⟩⟩
  · rw [Bool.not_eq_true] at hdim
    have hp : StartChecksPass s.params i s.latch := hlatch ▸ startChecksPass_of_reset hdim s.params _
    by_cases hdec : i = .decompress
    · subst hdec
      have hempty : s.latch.srclen = 0 := by rw [hlatch]; rfl
      obtain ⟨u, hu, hf⟩ := exec_decompress_of_header hp (readHeader_of_short (by omega))
      have hdst : dstLen .decompress s.latch = 0 := by rw [hlatch]; rfl
      exact ⟨u, hu, exec_mem_of_dstLen_eq_zero hu hdst, hf.ops, .inr (.inl ⟨rfl, hf⟩)⟩
    · have hb : bodyOf i s.params s.latch s.mem = .ok (Success.bytes []) := by
        rw [hlatch]
        exact bodyOf_of_reset hdim hdec _ _ _
      exact ⟨_, exec_of_ok hp hb, rfl, rfl, .inr (.inr ⟨hdim, hdec, succeededFrom_completeSuccess _ s⟩)⟩

/-- Settles O60: the latch takes the reset values at acceptance, and the completion runs the command on them. -/
theorem firstCommandAfterReset : Obligations.FirstCommandAfterReset := by
  intro s i hops hidle hi
  have hstep := step_regWrite (r := .cmd) hi
  rw [writeReg_cmd_of_idle (s := { s with inputs := [.complete] }) hidle] at hstep
  set t := answer 0 (accept (encode i) { s with inputs := [.complete] }) with ht
  have hword : decode t.latch.word.toWord = .ok i := by
    rw [← decode_encode i, ← toWord_ofWord (encode i)]
    rfl
  obtain ⟨u, hu, hmem, hops', hend⟩ := exec_of_reset (i := i) (s := { t with inputs := [] }) hops
  refine ⟨t, u, hstep, ((stepRunsTheLatchedCommand t i rfl hword).2 [] rfl).trans hu, hmem, ?_, hops', ?_⟩
  · rcases hend with ⟨_, hf⟩ | ⟨_, hf⟩ | ⟨_, _, hs⟩
    · exact hf.resultLen
    · exact hf.resultLen
    · exact hs.resultLen (by decide)
  · rcases hend with ⟨hdim, hf⟩ | ⟨rfl, hf⟩ | ⟨hdim, hdec, hs⟩
    · rw [hf.status]
      simp [hdim, ht, Err.code]
    · rw [hf.status]
      rfl
    · rw [hs.status]
      simp [hdim, hdec, ht]

end Sys2Proof.Machine
end
